-- ==== Sys2Proof/Word.lean ====
section
/-! DEFINITION. The machine's word and lane types. -/

namespace Sys2Proof

/-- A register of the block, and one word of a command (R21, R80). -/
abbrev Word := BitVec 32

/-- One byte of memory, one pixel-buffer sample, one coefficient of the LUT (R9, R119). -/
abbrev Byte := BitVec 8

/-- A 16-bit lane of a working vector register (R180). -/
abbrev Half := BitVec 16

end Sys2Proof
end

