-- ==== Sys2Proof/Config.lean ====
section
/-! DEFINITION. What an implementation fixes (the parameters of R8) and the free values of the model. -/

namespace Sys2Proof

/-- `VEC_CHROMA_MODE` (R8, R197): how the forward vector commands decimate chroma. -/
inductive ChromaMode where
  /-- the truncating sum of four (R152), this hardware -/
  | truncSum
  /-- two successive rounding averages, the horizontal pairs first (R158) -/
  | pairwiseHFirst
  /-- two successive rounding averages, the vertical pairs first (R158) -/
  | pairwiseVFirst
deriving DecidableEq, Repr

/-- `VEC_TAIL_POLICY` (R8, R189): a vector command whose width is not a multiple of 32. -/
inductive TailPolicy where
  /-- the columns past the last full group of 32 are left alone, this hardware -/
  | drop
  /-- such a command has no meaning (U4) -/
  | refuse
deriving DecidableEq, Repr

/-- The OPEN parameters of R8 that this model varies. -/
structure Config where
  /-- `HAS_VECTOR` (R199) -/
  hasVector   : Bool
  /-- `VEC_CHROMA_MODE` (R197) -/
  vecChroma   : ChromaMode
  /-- `VEC_TAIL_POLICY` (R189) -/
  vecTail     : TailPolicy
  /-- `DEBUG_ASSERT` (R232) -/
  debugAssert : Bool
  /-- `ADDR_BITS` (R8, R50): the width of a byte address -/
  addrBits    : Nat
  /-- `DIM_BITS` (R8, R74): the width of WIDTH, HEIGHT and the three strides -/
  dimBits     : Nat
deriving DecidableEq, Repr

/-- The values this hardware takes (R8). -/
def Config.hardware : Config where
  hasVector   := true
  vecChroma   := .truncSum
  vecTail     := .drop
  debugAssert := false
  addrBits    := 32
  dimBits     := 32

/-- The bound that `DIM_BITS` puts on WIDTH, HEIGHT and the three strides (R74). Every register is reached as a 32-bit word
(R32), so a configuration narrower than 32 acts through this bound (notes/assumptions/11.md). -/
abbrev Config.dimBound (cfg : Config) : Nat := 2 ^ cfg.dimBits

/-- The number of byte addresses of the memory space of a configuration (R50). -/
abbrev Config.addressSpace (cfg : Config) : Nat := 2 ^ cfg.addrBits

/-- The number of byte addresses of the memory space of this hardware (R50). -/
abbrev Config.spaceSize : Nat := Config.hardware.addressSpace

/-- `VEC_PIXELS` (R8). -/
abbrev Config.vecPixels : Nat := 32

/-- `VEC_BYTES` (R8), the alignment unit of the aligned commands (R60). -/
abbrev Config.vecBytes : Nat := 16

/-- FREE VALUE (notes/assumptions/1.md): what `RD` returns for a register that has not been written since
reset, at the given draw (R31, R211: an unconstrained value). -/
opaque Config.unwrittenWord : (draw : Nat) → Word

/-- FREE VALUE (notes/assumptions/14.md): the byte left at an address of the write footprint of a command that
a reset abandoned, at the given draw (R246: a `draw` per byte). -/
opaque Config.abandonedByte : (draw : Nat) → (address : Nat) → Byte

end Sys2Proof
end

