-- ==== Sys2Proof/Syntax.lean ====
section
/-! DEFINITION. The six commands as data (R3, R82): one constructor per row of the opcode table. -/

namespace Sys2Proof

/-- The colorimetry standard operand (R83): "exhaustive and fixed". -/
inductive Std where
  | fullRange
  | bt601
  | bt709
deriving DecidableEq, Repr

/-- `CMD.DIR` (R22). -/
inductive Dir where
  /-- RGB to YUV 4:2:0 -/
  | forward
  /-- YUV 4:2:0 to RGB -/
  | inverse
deriving DecidableEq, Repr

/-- `CMD.IMPL` (R22), less its reserved value. -/
inductive Impl where
  | scalar
  | vecUnaligned
  | vecAligned
deriving DecidableEq, Repr

/-- Words 1 to 9 of a command (R80): the operands of DOC0's call, each the unsigned number it holds (R84). -/
structure Desc where
  width     : Word
  height    : Word
  rgbBase   : Word
  rgbStride : Word
  yBase     : Word
  uBase     : Word
  vBase     : Word
  yStride   : Word
  uvStride  : Word
deriving DecidableEq, Repr

/-- WIDTH, HEIGHT and the three strides, the words whose width is `DIM_BITS` (R8, R74). -/
def Desc.dims (d : Desc) : List Word := [d.width, d.height, d.rgbStride, d.yStride, d.uvStride]

/-- The ten words of a command (R80), as the registers or the START latch hold them. -/
structure CommandWords where
  cmd  : Word
  desc : Desc
deriving DecidableEq, Repr

/-- The six commands, in the order of the opcode table (R82). -/
inductive Instr where
  /-- `RGB2YUV.S` (R170) -/
  | rgb2yuvS (std : Std) (d : Desc)
  /-- `YUV2RGB.S` (R171) -/
  | yuv2rgbS (std : Std) (d : Desc)
  /-- `RGB2YUV.VU` (R191) -/
  | rgb2yuvVu (std : Std) (d : Desc)
  /-- `YUV2RGB.VU` (R193) -/
  | yuv2rgbVu (std : Std) (d : Desc)
  /-- `RGB2YUV.VA` (R192) -/
  | rgb2yuvVa (std : Std) (d : Desc)
  /-- `YUV2RGB.VA` (R194) -/
  | yuv2rgbVa (std : Std) (d : Desc)
deriving DecidableEq, Repr

/-- The direction of a command. -/
def Instr.dir : Instr → Dir
  | .rgb2yuvS _ _ => .forward
  | .yuv2rgbS _ _ => .inverse
  | .rgb2yuvVu _ _ => .forward
  | .yuv2rgbVu _ _ => .inverse
  | .rgb2yuvVa _ _ => .forward
  | .yuv2rgbVa _ _ => .inverse

/-- The implementation a command asks for. -/
def Instr.impl : Instr → Impl
  | .rgb2yuvS _ _ => .scalar
  | .yuv2rgbS _ _ => .scalar
  | .rgb2yuvVu _ _ => .vecUnaligned
  | .yuv2rgbVu _ _ => .vecUnaligned
  | .rgb2yuvVa _ _ => .vecAligned
  | .yuv2rgbVa _ _ => .vecAligned

/-- The standard operand of a command. -/
def Instr.std : Instr → Std
  | .rgb2yuvS std _ => std
  | .yuv2rgbS std _ => std
  | .rgb2yuvVu std _ => std
  | .yuv2rgbVu std _ => std
  | .rgb2yuvVa std _ => std
  | .yuv2rgbVa std _ => std

/-- The descriptor of a command. -/
def Instr.desc : Instr → Desc
  | .rgb2yuvS _ d => d
  | .yuv2rgbS _ d => d
  | .rgb2yuvVu _ d => d
  | .yuv2rgbVu _ d => d
  | .rgb2yuvVa _ d => d
  | .yuv2rgbVa _ d => d

/-- The command of a direction and an implementation (R82). -/
def Instr.ofParts : Dir → Impl → Std → Desc → Instr
  | .forward, .scalar, std, d => .rgb2yuvS std d
  | .inverse, .scalar, std, d => .yuv2rgbS std d
  | .forward, .vecUnaligned, std, d => .rgb2yuvVu std d
  | .inverse, .vecUnaligned, std, d => .yuv2rgbVu std d
  | .forward, .vecAligned, std, d => .rgb2yuvVa std d
  | .inverse, .vecAligned, std, d => .yuv2rgbVa std d

/-- The ten registers that `WR` stores into (R21, R22). -/
inductive RegName where
  | cmd
  | width
  | height
  | rgbBase
  | rgbStride
  | yBase
  | uBase
  | vBase
  | yStride
  | uvStride
deriving DecidableEq, Repr

/-- The fields of a row of the forward coefficient table, in the order of the register window (R25, R112). -/
inductive FwdField where
  | rw
  | gw
  | bw
  | cbScale
  | crScale
  | yScale
  | yOffset
deriving DecidableEq, Repr

/-- The fields of a row of the inverse coefficient table, in the order of the register window (R25, R113). -/
inductive InvField where
  | cbDescale
  | crDescale
  | gCb
  | gCr
  | yScale
  | yOffset
deriving DecidableEq, Repr

/-- What a word offset of the register space names (R21 to R25, R32). -/
inductive RegTarget where
  | ctrl
  | status
  | reg (r : RegName)
  | lutFwd (s : Std) (k : FwdField)
  | lutInv (s : Std) (k : InvField)
deriving DecidableEq, Repr

end Sys2Proof
end

