-- ==== Sys2Proof/WellFormed.lean ====
section
/-! DEFINITION. Which commands a configuration has an encoding for (R85). Everything else that can be wrong with a
command's CMD word cannot be written down as an `Instr`; what can be wrong with its operands is a precondition of
START (Machine/Operands.lean), for the encoding admits every operand word (R80, R210). -/

namespace Sys2Proof

/-- The implementation is a vector one. -/
def Impl.isVector : Impl → Bool
  | .scalar => false
  | .vecUnaligned => true
  | .vecAligned => true

/-- The command exists in the configuration: without `HAS_VECTOR` the four vector encodings are reserved (R85, R199). -/
def Instr.wellFormed (cfg : Config) (i : Instr) : Bool :=
  cfg.hasVector || !i.impl.isVector

end Sys2Proof
end

