-- ==== Sys2Proof/Decode.lean ====
section
/-! DEFINITION. From the ten words of a command to the command (R80 to R86), from a register offset to what it names
(R21 to R25, R32), and the encoders of both, written from the same tables. -/

namespace Sys2Proof

/-- Why a CMD word is reserved (R85). -/
inductive DecodeError where
  /-- a bit of `CMD[31:5]` is set -/
  | reservedBits
  /-- `IMPL` = 3 -/
  | reservedImpl
  /-- `STD` = 3 -/
  | reservedStd
  /-- `IMPL` = 1 or 2 in a configuration without `HAS_VECTOR` (U14) -/
  | vectorAbsent
deriving DecidableEq, Repr

/-! ## The fields of CMD (R81) -/

/-- `DIR`, bit 0. -/
def dirField (w : Word) : Nat := w.toNat % 2

/-- `IMPL`, bits 2:1. -/
def implField (w : Word) : Nat := w.toNat / 2 % 4

/-- `STD`, bits 4:3. -/
def stdField (w : Word) : Nat := w.toNat / 8 % 4

/-- Bits 31:5, which must be 0. -/
def reservedField (w : Word) : Nat := w.toNat / 32

/-- `DIR` (R22). -/
def dirOf (n : Nat) : Dir := if n = 0 then .forward else .inverse

/-- `IMPL` (R22); 3 is reserved. -/
def implOf : Nat → Option Impl
  | 0 => some .scalar
  | 1 => some .vecUnaligned
  | 2 => some .vecAligned
  | _ => none

/-- `STD` (R22, R83); 3 is reserved. -/
def stdOf : Nat → Option Std
  | 0 => some .fullRange
  | 1 => some .bt601
  | 2 => some .bt709
  | _ => none

/-! ## Decoding a command -/

/-- The command the ten words are, or why they are none (R82, R85). -/
def decode (cfg : Config) (w : CommandWords) : Except DecodeError Instr :=
  match w with
  | ⟨cmd, d⟩ =>
    if reservedField cmd = 0 then
      match implOf (implField cmd) with
      | none => .error .reservedImpl
      | some impl =>
        match stdOf (stdField cmd) with
        | none => .error .reservedStd
        | some std =>
          if (Instr.ofParts (dirOf (dirField cmd)) impl std d).wellFormed cfg then
            .ok (Instr.ofParts (dirOf (dirField cmd)) impl std d)
          else .error .vectorAbsent
    else .error .reservedBits

/-! ## Encoding a command -/

/-- The value of `DIR` (R22). -/
def Dir.code : Dir → Nat
  | .forward => 0
  | .inverse => 1

/-- The value of `IMPL` (R22). -/
def Impl.code : Impl → Nat
  | .scalar => 0
  | .vecUnaligned => 1
  | .vecAligned => 2

/-- The value of `STD` (R22, R83). -/
def Std.code : Std → Nat
  | .fullRange => 0
  | .bt601 => 1
  | .bt709 => 2

/-- `match` of R82 for the command: `IMPL:DIR` in `CMD[2:0]`. -/
def Instr.matchWord (i : Instr) : Nat := i.dir.code + 2 * i.impl.code

/-- `mask` of R82: every bit but those of `STD`. -/
def Instr.maskWord : Word := 0xFFFFFFE7

/-- The ten words of a command (R80, R82: `match | (STD << 3)`). -/
def encode (i : Instr) : CommandWords where
  cmd  := BitVec.ofNat 32 (i.matchWord + 8 * i.std.code)
  desc := i.desc

/-! ## The opcode table's numbering -/

/-- Word `k` of a command whose bits are the number `w`: bit 0 is the least significant bit of the first word. -/
def tableWord (w k : Nat) : Word := BitVec.ofNat 32 (w >>> (32 * k))

/-- The ten words, in the order of R80, of a command given as `nbits` bits; every bit above `nbits` is 0. -/
def tableWords (nbits w : Nat) : CommandWords where
  cmd  := tableWord (w % 2 ^ nbits) 0
  desc :=
    { width     := tableWord (w % 2 ^ nbits) 1
      height    := tableWord (w % 2 ^ nbits) 2
      rgbBase   := tableWord (w % 2 ^ nbits) 3
      rgbStride := tableWord (w % 2 ^ nbits) 4
      yBase     := tableWord (w % 2 ^ nbits) 5
      uBase     := tableWord (w % 2 ^ nbits) 6
      vBase     := tableWord (w % 2 ^ nbits) 7
      yStride   := tableWord (w % 2 ^ nbits) 8
      uvStride  := tableWord (w % 2 ^ nbits) 9 }

/-- The command this hardware's decoder reads from `nbits` bits `w`, numbered as the opcode table numbers them. -/
def decodeTableWord (nbits w : Nat) : Option Instr :=
  match decode Config.hardware (tableWords nbits w) with
  | .ok i => some i
  | .error _ => none

/-! ## The register space (R21 to R25, R32) -/

/-- Word `k` of a row of the forward window (R25); the eighth is reserved. -/
def fwdFieldOf : Nat → Option FwdField
  | 0 => some .rw
  | 1 => some .gw
  | 2 => some .bw
  | 3 => some .cbScale
  | 4 => some .crScale
  | 5 => some .yScale
  | 6 => some .yOffset
  | _ => none

/-- Word `k` of a row of the inverse window (R25); the seventh and the eighth are reserved. -/
def invFieldOf : Nat → Option InvField
  | 0 => some .cbDescale
  | 1 => some .crDescale
  | 2 => some .gCb
  | 3 => some .gCr
  | 4 => some .yScale
  | 5 => some .yOffset
  | _ => none

/-- The control and descriptor registers by offset (R21 to R23); 0x30 to 0x3C are reserved. -/
def fixedTargetOf : Nat → Option RegTarget
  | 0x00 => some .ctrl
  | 0x04 => some .status
  | 0x08 => some (.reg .cmd)
  | 0x0C => some (.reg .width)
  | 0x10 => some (.reg .height)
  | 0x14 => some (.reg .rgbBase)
  | 0x18 => some (.reg .rgbStride)
  | 0x1C => some (.reg .yBase)
  | 0x20 => some (.reg .uBase)
  | 0x24 => some (.reg .vBase)
  | 0x28 => some (.reg .yStride)
  | 0x2C => some (.reg .uvStride)
  | _ => none

/-- What an aligned word offset names; `none` for a reserved offset and for one past 0xFF (R32). -/
def targetOf (offset : Nat) : Option RegTarget :=
  if offset % 4 ≠ 0 then none
  else if offset < 0x40 then fixedTargetOf offset
  else if offset < 0xA0 then
    match stdOf ((offset - 0x40) / 0x20), fwdFieldOf ((offset - 0x40) % 0x20 / 4) with
    | some s, some k => some (.lutFwd s k)
    | _, _ => none
  else if offset < 0x100 then
    match stdOf ((offset - 0xA0) / 0x20), invFieldOf ((offset - 0xA0) % 0x20 / 4) with
    | some s, some k => some (.lutInv s k)
    | _, _ => none
  else none

/-- The position of a forward field in its row (R25). -/
def FwdField.index : FwdField → Nat
  | .rw => 0
  | .gw => 1
  | .bw => 2
  | .cbScale => 3
  | .crScale => 4
  | .yScale => 5
  | .yOffset => 6

/-- The position of an inverse field in its row (R25). -/
def InvField.index : InvField → Nat
  | .cbDescale => 0
  | .crDescale => 1
  | .gCb => 2
  | .gCr => 3
  | .yScale => 4
  | .yOffset => 5

/-- The offset of CMD or of a descriptor register (R21, R22). -/
def RegName.offset : RegName → Nat
  | .cmd => 0x08
  | .width => 0x0C
  | .height => 0x10
  | .rgbBase => 0x14
  | .rgbStride => 0x18
  | .yBase => 0x1C
  | .uBase => 0x20
  | .vBase => 0x24
  | .yStride => 0x28
  | .uvStride => 0x2C

/-- The offset of anything the register space holds (R21 to R25). -/
def RegTarget.offset : RegTarget → Nat
  | .ctrl => 0x00
  | .status => 0x04
  | .reg r => r.offset
  | .lutFwd s k => 0x40 + 0x20 * s.code + 4 * k.index
  | .lutInv s k => 0xA0 + 0x20 * s.code + 4 * k.index

end Sys2Proof
end

