-- ==== Sys2Proof/Machine/State.lean ====
section
/-! DEFINITION. Everything the spec gives the machine (R20), the host's side of the interface (R13, R217), the reasons a
step can stop, and the machine right after reset (R31). -/

namespace Sys2Proof.Machine

open Sys2Proof

/-- The reasons a step stops with a fault. The block itself raises none (R225). -/
inductive Fault where
  /-- Raised by START in a configuration with `DEBUG_ASSERT` = on, for a command that violates U2, U3, U4 or U6 or has an
  odd dimension (R232: it may "stop a simulation"). This hardware has `DEBUG_ASSERT` = off, so `step` never raises it. Safe. -/
  | debugAssertion
deriving DecidableEq, Repr

/-- The reasons a step has no meaning. Each is a `refuse` row of the table of R226, except the first, the last
and `dimensionTooLarge`. -/
inductive Refusal where
  /-- An instruction without a meaning yet: raised by no arm of `exec` now. Safe. -/
  | notModelled (mnemonic : String)
  /-- U1, raised by START and by a command: a footprint byte outside the memory handed over for its buffer; and by the host's
  taking such memory away while a command owns it (R73). Safe. -/
  | notBacked
  /-- U2, raised by START and by a command: a stride below the tight row size (R56). Safe. -/
  | strideTooShort
  /-- U3, raised by START and by an aligned vector command: a 16-byte access at an address not a multiple of 16 (R60). Safe. -/
  | misaligned
  /-- U4, raised by START and by a vector command under `VEC_TAIL_POLICY = REFUSE` only, never on this hardware (R189). Safe. -/
  | tailRefused
  /-- U5, raised by START and by a command: two of the four address sets meet (R59). Safe. -/
  | buffersOverlap
  /-- U6 and U14, raised by START: the latched CMD is reserved (R85). Safe. -/
  | reservedCommand (why : DecodeError)
  /-- U7, raised by `WR` to CMD or a descriptor register and by START, while BUSY (R34). Safe. -/
  | busy
  /-- U8, raised by START: CMD or a descriptor register not written since reset (R31). Safe. -/
  | descriptorNotWritten
  /-- U9, raised by START, by a command and by the host's own memory accesses: an address outside the memory space (R63). Safe. -/
  | addressOutOfRange
  /-- Raised by START and by a command, in a configuration with `DIM_BITS` below 32 only: WIDTH, HEIGHT or a stride not below
  2^`DIM_BITS` (R74). Safe. -/
  | dimensionTooLarge
  /-- U10, raised by the memory accesses of other agents: a write into a footprint, or a read of the write footprint, of a
  command that was started and whose DONE has not been observed (R64, R252). Safe. -/
  | footprintContended
  /-- U12, raised by `WR` and `RD`: not an aligned 32-bit word (R32). Safe. -/
  | notAnAlignedWord
  /-- U12, raised by `WR` and `RD`: a reserved register offset (R32). Safe. -/
  | reservedOffset
  /-- U12, raised by `WR CTRL` with a bit of 31:1 set (R23, R32). Safe. -/
  | reservedCtrlBits
  /-- Raised by a step of a BUSY state without a latched command: no state that meets `State.Inv` is one (R28). Safe. -/
  | noLatchedCommand
deriving DecidableEq, Repr

/-- CMD or a descriptor register: what it holds, and whether it was written since reset (R31: it "holds no value until
written"). The value of an unwritten one is the model's own and is never seen: `RD` gives a free value and START refuses. -/
structure Reg where
  value   : Word
  written : Bool
deriving DecidableEq, Repr

/-- CMD and the nine descriptor registers (R21, R22). -/
structure RegFile where
  cmd       : Reg
  width     : Reg
  height    : Reg
  rgbBase   : Reg
  rgbStride : Reg
  yBase     : Reg
  uBase     : Reg
  vBase     : Reg
  yStride   : Reg
  uvStride  : Reg
deriving DecidableEq, Repr

/-- Memory: the listed bytes at strictly rising addresses, none equal to what an unlisted address reads as (`Memory.wf`
in Machine/Ops.lean). -/
abbrev Memory := List Host.Cell

/-- A range of ordinary memory that the host has allocated (R73). -/
structure Region where
  base : Nat
  size : Nat
deriving DecidableEq, Repr

/-- The memory that the host has allocated for each of the four buffers and hands to the block (R73). -/
structure Backing where
  rgb : List Region
  y   : List Region
  u   : List Region
  v   : List Region
deriving DecidableEq, Repr

/-- What the outside world does next (R13, R217): the host operations of R210 to R214, the host's own accesses to the
memory it shares with the block (R29, R50), reset (R245), and the moment at which the running command completes (R213). -/
inductive HostOp where
  /-- `WR`: write `value` to the register space at a byte offset, as one access of `bytes` bytes (R210) -/
  | wr (offset bytes : Nat) (value : Word)
  /-- `RD`: read the register space at a byte offset, as one access of `bytes` bytes (R211) -/
  | rd (offset bytes : Nat)
  /-- `WAIT` (R214) -/
  | wait
  /-- another agent stores a byte in memory (R29, R64) -/
  | memWrite (address : Nat) (value : Byte)
  /-- another agent loads a byte from memory (R29, R64) -/
  | memRead (address : Nat)
  /-- the host allocates memory for the four buffers and hands it to the block, in place of what it handed over before (R73) -/
  | lend (backing : Backing)
  /-- reset is applied (R245, R246) -/
  | reset
  /-- time passes until the running command, if there is one, has completed (R213, R260); the host observes nothing -/
  | finish
deriving DecidableEq, Repr

/-- What a read returned to the host. -/
inductive Datum where
  | word (w : Word)
  | byte (b : Byte)
deriving DecidableEq, Repr

/-- The state of one instance of the block, of the memory it is attached to, and of the host that drives it. -/
structure State where
  /-- CMD and the descriptor registers (R21, R22) -/
  regs     : RegFile
  /-- `STATUS.BUSY` (R23) -/
  busy     : Bool
  /-- `STATUS.DONE` (R23) -/
  done     : Bool
  /-- the descriptor latched at START, which exists only while BUSY (R28) -/
  latch    : Option CommandWords
  /-- the memory (R29, R50) -/
  mem      : Memory
  /-- the memory of each buffer (R73) -/
  backing  : Backing
  /-- the commands started whose completion the host has not observed yet, the latest first: until then their footprints
  are the block's (R64, R252) -/
  owned    : List Instr
  /-- what the outside world does, in the order it does it (R217) -/
  inputs   : List HostOp
  /-- what the host's reads returned, the latest first (R211) -/
  received : List Datum
  /-- the model's own: the number of free values drawn so far -/
  draws    : Nat
deriving DecidableEq, Repr

/-- A register right after reset. DESIGN CHOICE (notes/assumptions/1.md): the value 0, marked as not written (R31). -/
def Reg.reset : Reg := { value := 0, written := false }

/-- The descriptor registers right after reset (R31). -/
def RegFile.reset : RegFile where
  cmd       := Reg.reset
  width     := Reg.reset
  height    := Reg.reset
  rgbBase   := Reg.reset
  rgbStride := Reg.reset
  yBase     := Reg.reset
  uBase     := Reg.reset
  vBase     := Reg.reset
  yStride   := Reg.reset
  uvStride  := Reg.reset

/-- The memory space as one region for each buffer. DESIGN CHOICE (notes/assumptions/4.md): the spec leaves allocation to the
host (R6, R73). -/
def Backing.everywhere : Backing where
  rgb := [{ base := 0, size := Config.spaceSize }]
  y   := [{ base := 0, size := Config.spaceSize }]
  u   := [{ base := 0, size := Config.spaceSize }]
  v   := [{ base := 0, size := Config.spaceSize }]

/-- The machine right after reset (R31, R245): idle, no command completed, no register written, nothing latched. What the
model chooses here (the memory's contents, its backing, no pending input) is in notes/assumptions 1 to 5. -/
def State.reset : State where
  regs     := RegFile.reset
  busy     := false
  done     := false
  latch    := none
  mem      := []
  backing  := Backing.everywhere
  owned    := []
  inputs   := []
  received := []
  draws    := 0

end Sys2Proof.Machine
end

