-- ==== Sys2Proof/Machine/Lut.lean ====
section
/-! DEFINITION. coefficient_lut (spec file 40): the two tables, their lookup, and the derivation they come from. The tables
are constants, not state (R24, R118). -/

namespace Sys2Proof.Machine

open Sys2Proof

/-- A row of `LUT.fwd` (R112, R119): seven unsigned 8-bit fields. -/
structure FwdRow where
  rw      : Byte
  gw      : Byte
  bw      : Byte
  cbScale : Byte
  crScale : Byte
  yScale  : Byte
  yOffset : Byte
deriving DecidableEq, Repr

/-- A row of `LUT.inv` (R113, R119): six unsigned 8-bit fields. -/
structure InvRow where
  cbDescale : Byte
  crDescale : Byte
  gCb       : Byte
  gCr       : Byte
  yScale    : Byte
  yOffset   : Byte
deriving DecidableEq, Repr

/-- `LUT.fwd[s]` (R114, R116). -/
def lutFwd : Std → FwdRow
  | .fullRange => ⟨77, 150, 29, 144, 183, 128, 0⟩
  | .bt601 => ⟨77, 150, 29, 127, 160, 110, 16⟩
  | .bt709 => ⟨54, 184, 18, 121, 143, 110, 16⟩

/-- `LUT.inv[s]` (R115, R116). -/
def lutInv : Std → InvRow
  | .fullRange => ⟨113, 90, 44, 91, 128, 0⟩
  | .bt601 => ⟨129, 102, 50, 104, 149, 16⟩
  | .bt709 => ⟨135, 115, 27, 68, 149, 16⟩

/-- A field of a forward row, as the register window orders them (R25). -/
def FwdRow.field (c : FwdRow) : FwdField → Byte
  | .rw => c.rw
  | .gw => c.gw
  | .bw => c.bw
  | .cbScale => c.cbScale
  | .crScale => c.crScale
  | .yScale => c.yScale
  | .yOffset => c.yOffset

/-- A field of an inverse row, as the register window orders them (R25). -/
def InvRow.field (c : InvRow) : InvField → Byte
  | .cbDescale => c.cbDescale
  | .crDescale => c.crDescale
  | .gCb => c.gCb
  | .gCr => c.gCr
  | .yScale => c.yScale
  | .yOffset => c.yOffset

/-! ## The derivation (R110 to R113), design-time arithmetic in exact rationals -/

/-- The analog definition of a standard (R110). -/
structure Analog where
  rf         : ℚ
  bf         : ℚ
  yMin       : Nat
  yMax       : Nat
  chromaSpan : Nat

/-- The three standards (R110). -/
def analog : Std → Analog
  | .fullRange => ⟨299 / 1000, 114 / 1000, 0, 255, 255⟩
  | .bt601 => ⟨299 / 1000, 114 / 1000, 16, 235, 224⟩
  | .bt709 => ⟨2126 / 10000, 722 / 10000, 16, 235, 224⟩

/-- `round`: to nearest, ties up (R111). -/
def roundHalfUp (x : ℚ) : Int := ⌊x + 1 / 2⌋

/-- The seven fields of a forward row as integers, before they are stored. -/
structure FwdIntegers where
  rw      : Int
  gw      : Int
  bw      : Int
  cbScale : Int
  crScale : Int
  yScale  : Int
  yOffset : Int

/-- The six fields of an inverse row as integers, before they are stored. -/
structure InvIntegers where
  cbDescale : Int
  crDescale : Int
  gCb       : Int
  gCr       : Int
  yScale    : Int
  yOffset   : Int

/-- `deriveForward` (R112). -/
def deriveForward (a : Analog) : FwdIntegers where
  rw      := roundHalfUp (a.rf * 256)
  gw      := 256 - roundHalfUp (a.rf * 256) - roundHalfUp (a.bf * 256)
  bw      := roundHalfUp (a.bf * 256)
  cbScale := roundHalfUp ((a.chromaSpan / 255) / (2 * (1 - a.bf)) * 256)
  crScale := roundHalfUp ((a.chromaSpan / 255) / (2 * (1 - a.rf)) * 256)
  yScale  := roundHalfUp ((a.yMax - a.yMin) / 255 * 128)
  yOffset := a.yMin

/-- `deriveInverse` (R113). -/
def deriveInverse (a : Analog) : InvIntegers where
  cbDescale := roundHalfUp (255 * 2 * (1 - a.bf) / a.chromaSpan * 64)
  crDescale := roundHalfUp (255 * 2 * (1 - a.rf) / a.chromaSpan * 64)
  gCb       := roundHalfUp (a.bf / (1 - a.bf - a.rf) * 255 * 2 * (1 - a.bf) / a.chromaSpan * 128)
  gCr       := roundHalfUp (a.rf / (1 - a.bf - a.rf) * 255 * 2 * (1 - a.rf) / a.chromaSpan * 128)
  yScale    := roundHalfUp (255 / (a.yMax - a.yMin) * 128)
  yOffset   := a.yMin

end Sys2Proof.Machine
end

