-- ==== Sys2Proof/Machine/Arith.lean ====
section
/-! DEFINITION. fixed_point_color_matrix and the chroma decimation (spec files 41 and 42): the per-pixel and per-block
arithmetic, in exact integers (R130). -/

namespace Sys2Proof.Machine

open Sys2Proof

/-- `a >> n`: the floor shift (R10). -/
def asr (a : Int) (n : Nat) : Int := a >>> n

/-- A byte as the unsigned integer it is (R9). -/
def ofByte (b : Byte) : Int := (b.toNat : Int)

/-- An integer of [0, 255] as the byte that is stored (R134). -/
def toByte (a : Int) : Byte := BitVec.ofInt 8 a

/-- `clamp8` (R138). -/
def clamp8 (a : Int) : Int := if a < 0 then 0 else if a > 255 then 255 else a

/-! ## Forward (R131 to R134) -/

/-- `FWD_LUMA` (R131). -/
def fwdLuma (c : FwdRow) (r g b : Byte) : Int :=
  asr (ofByte c.rw * ofByte r + ofByte c.gw * ofByte g + ofByte c.bw * ofByte b) 8

/-- The blue-difference term `tU` of `FWD_CHROMA_TERM` (R132). -/
def fwdTermU (c : FwdRow) (b : Byte) (yp : Int) : Int :=
  asr ((ofByte b - yp) * ofByte c.cbScale) 8 + 128

/-- The red-difference term `tV` of `FWD_CHROMA_TERM` (R132). -/
def fwdTermV (c : FwdRow) (r : Byte) (yp : Int) : Int :=
  asr ((ofByte r - yp) * ofByte c.crScale) 8 + 128

/-- `FWD_RERANGE` (R133). -/
def fwdRerange (c : FwdRow) (yp : Int) : Int :=
  asr (yp * ofByte c.yScale) 7 + ofByte c.yOffset

/-! ## Chroma decimation (R152, R158) -/

/-- `CHROMA_DECIMATE` (R152): the truncating mean of the four terms of a block. -/
def chromaDecimate (tl tr bl br : Int) : Int := asr (tl + tr + bl + br) 2

/-- The rounding average of R158. -/
def avg (a b : Int) : Int := asr (a + b + 1) 1

/-- The decimation of a `VEC_CHROMA_MODE` (R197). -/
def decimate : ChromaMode → (tl tr bl br : Int) → Int
  | .truncSum, tl, tr, bl, br => chromaDecimate tl tr bl br
  | .pairwiseHFirst, tl, tr, bl, br => avg (avg tl tr) (avg bl br)
  | .pairwiseVFirst, tl, tr, bl, br => avg (avg tl bl) (avg tr br)

/-! ## Inverse (R135 to R137) -/

/-- The chroma-derived offsets of a block (R135). -/
structure Offsets where
  b : Int
  r : Int
  g : Int
deriving DecidableEq, Repr

/-- `INV_OFFSETS` (R135). -/
def invOffsets (c : InvRow) (u v : Byte) : Offsets where
  b := asr (ofByte c.cbDescale * (ofByte u - 128)) 6
  r := asr (ofByte c.crDescale * (ofByte v - 128)) 6
  g := asr (ofByte c.gCb * (ofByte u - 128) + ofByte c.gCr * (ofByte v - 128)) 7

/-- `INV_LUMA` (R136). -/
def invLuma (c : InvRow) (y : Byte) : Int :=
  asr (ofByte c.yScale * (ofByte y - ofByte c.yOffset)) 7

/-- The red byte of `INV_PIXEL` (R137). -/
def invRed (yp : Int) (o : Offsets) : Byte := toByte (clamp8 (yp + o.r))

/-- The green byte of `INV_PIXEL` (R137): the offset is subtracted. -/
def invGreen (yp : Int) (o : Offsets) : Byte := toByte (clamp8 (yp - o.g))

/-- The blue byte of `INV_PIXEL` (R137). -/
def invBlue (yp : Int) (o : Offsets) : Byte := toByte (clamp8 (yp + o.b))

end Sys2Proof.Machine
end

