-- ==== Sys2Proof/Machine/Ops.lean ====
section
/-! DEFINITION. The named operations over memory, over the descriptor registers and over the engine's status. There is no
exception to take and none to return from (R225, R230); the one thing that plays that part, completion, is
`State.complete`. -/

namespace Sys2Proof.Machine

open Sys2Proof

/-! ## Memory (R50) -/

/-- What an address that is not listed reads as. DESIGN CHOICE (notes/assumptions/3.md): the spec gives memory no
contents of its own. -/
def Memory.unlisted : Byte := 0

/-- `MemRead(a, 1)` (R11). -/
def Memory.read : Memory → Nat → Byte
  | [], _ => Memory.unlisted
  | (k, v) :: m, a => if k = a then v else Memory.read m a

/-- A cell in front of a memory whose addresses are all larger, if it says anything. -/
def Memory.push (a : Nat) (v : Byte) (m : Memory) : Memory :=
  if v = Memory.unlisted then m else (a, v) :: m

/-- `MemWrite(a, 1, v)` (R11), keeping the canonical form. -/
def Memory.write : Memory → Nat → Byte → Memory
  | [], a, v => Memory.push a v []
  | (k, w) :: m, a, v =>
    if a < k then Memory.push a v ((k, w) :: m)
    else if a = k then Memory.push a v m
    else (k, w) :: Memory.write m a v

/-- The stores of a list, first to last. -/
def Memory.writeAll (m : Memory) (stores : List Host.Cell) : Memory :=
  stores.foldl (fun m' c => Memory.write m' c.1 c.2) m

/-- The canonical form: addresses strictly rising, no cell that repeats what an unlisted address reads as. -/
def Memory.wf : Memory → Bool
  | [] => true
  | [(_, v)] => v != Memory.unlisted
  | (k, v) :: (k', v') :: m => v != Memory.unlisted && decide (k < k') && Memory.wf ((k', v') :: m)

/-- Every listed address lies in the memory space (R50). -/
def Memory.inSpace (m : Memory) : Bool := m.all fun c => decide (c.1 < Config.spaceSize)

/-- One of the regions holds the address (R73). -/
def backedAt (regions : List Region) (a : Nat) : Bool :=
  regions.any fun r => decide (r.base ≤ a) && decide (a < r.base + r.size)

/-! ## CMD and the descriptor registers (R21, R22) -/

/-- The register of a name. -/
def RegFile.get (f : RegFile) : RegName → Reg
  | .cmd => f.cmd
  | .width => f.width
  | .height => f.height
  | .rgbBase => f.rgbBase
  | .rgbStride => f.rgbStride
  | .yBase => f.yBase
  | .uBase => f.uBase
  | .vBase => f.vBase
  | .yStride => f.yStride
  | .uvStride => f.uvStride

/-- `reg <- value` (R210): all 32 bits stored. -/
def RegFile.set (f : RegFile) (r : RegName) (v : Word) : RegFile :=
  match r with
  | .cmd => { f with cmd := { value := v, written := true } }
  | .width => { f with width := { value := v, written := true } }
  | .height => { f with height := { value := v, written := true } }
  | .rgbBase => { f with rgbBase := { value := v, written := true } }
  | .rgbStride => { f with rgbStride := { value := v, written := true } }
  | .yBase => { f with yBase := { value := v, written := true } }
  | .uBase => { f with uBase := { value := v, written := true } }
  | .vBase => { f with vBase := { value := v, written := true } }
  | .yStride => { f with yStride := { value := v, written := true } }
  | .uvStride => { f with uvStride := { value := v, written := true } }

/-- All ten registers have been written since reset (R212, U8). -/
def RegFile.allWritten (f : RegFile) : Bool :=
  f.cmd.written && f.width.written && f.height.written && f.rgbBase.written && f.rgbStride.written
    && f.yBase.written && f.uBase.written && f.vBase.written && f.yStride.written && f.uvStride.written

/-- The ten words the registers hold, what START latches (R212). -/
def RegFile.words (f : RegFile) : CommandWords where
  cmd  := f.cmd.value
  desc :=
    { width     := f.width.value
      height    := f.height.value
      rgbBase   := f.rgbBase.value
      rgbStride := f.rgbStride.value
      yBase     := f.yBase.value
      uBase     := f.uBase.value
      vBase     := f.vBase.value
      yStride   := f.yStride.value
      uvStride  := f.uvStride.value }

/-- The registers after `WR` has stored the ten words of a command (R218). -/
def RegFile.ofWords (w : CommandWords) : RegFile where
  cmd       := { value := w.cmd, written := true }
  width     := { value := w.desc.width, written := true }
  height    := { value := w.desc.height, written := true }
  rgbBase   := { value := w.desc.rgbBase, written := true }
  rgbStride := { value := w.desc.rgbStride, written := true }
  yBase     := { value := w.desc.yBase, written := true }
  uBase     := { value := w.desc.uBase, written := true }
  vBase     := { value := w.desc.vBase, written := true }
  yStride   := { value := w.desc.yStride, written := true }
  uvStride  := { value := w.desc.uvStride, written := true }

/-! ## The engine's status (R212, R213) -/

/-- The effect of START (R212): the ten words `w`, which are the command `i`, are latched, DONE is cleared, BUSY is set, and
the footprints of the command are the block's from now on (R64). -/
def State.begin (s : State) (w : CommandWords) (i : Instr) : State :=
  { s with done := false, busy := true, latch := some w, owned := i :: s.owned }

/-- Completion (R213): the command's stores are in memory, BUSY is cleared, DONE is set, and nothing of the running
command survives (R28). -/
def State.complete (s : State) (stores : List Host.Cell) : State :=
  { s with mem := s.mem.writeAll stores, busy := false, done := true, latch := none }

/-- The host has read STATUS: where it read DONE = 1, the footprints of the commands started before are the host's again
(R64, R252). Nothing of the block changes (R35). -/
def State.observeDone (s : State) : State :=
  { s with owned := if s.done then [] else s.owned }

/-- A datum is returned to the host. -/
def State.receive (s : State) (x : Datum) : State :=
  { s with received := x :: s.received }

end Sys2Proof.Machine
end

