-- ==== Sys2Proof/Machine/Operands.lean ====
section
/-! DEFINITION. What a command derives from its descriptor (R84): the processed geometry, the byte addresses, the
footprints, the accesses, and the preconditions of START and of the command (R226). -/

namespace Sys2Proof.Machine

open Sys2Proof

/-! ## Geometry (R84, R150, R189) -/

/-- `PC`, the number of processed pixel columns. -/
def Impl.columns (impl : Impl) (w : Nat) : Nat :=
  if impl.isVector then Config.vecPixels * (w / Config.vecPixels) else 2 * (w / 2)

/-- `W`. -/
def cmdWidth (i : Instr) : Nat := i.desc.width.toNat

/-- `H`. -/
def cmdHeight (i : Instr) : Nat := i.desc.height.toNat

/-- `NBY`, the number of bands. -/
def bands (i : Instr) : Nat := cmdHeight i / 2

/-- `PR`, the number of processed pixel rows. -/
def procRows (i : Instr) : Nat := 2 * bands i

/-- `PC`. -/
def procCols (i : Instr) : Nat := Impl.columns i.impl (cmdWidth i)

/-- `NBX`, the number of blocks per band. -/
def bandBlocks (i : Instr) : Nat := procCols i / 2

/-! ## Addresses, in unbounded integers (R51 to R53, R63) -/

/-- `rgbAddr(py, px)`: the R byte; G and B follow (R51, R54). -/
def rgbAddr (d : Desc) (py px : Nat) : Nat := d.rgbBase.toNat + py * d.rgbStride.toNat + 3 * px

/-- `yAddr(py, px)` (R52). -/
def yAddr (d : Desc) (py px : Nat) : Nat := d.yBase.toNat + py * d.yStride.toNat + px

/-- `uAddr(by, bx)` (R53). -/
def uAddr (d : Desc) (band bx : Nat) : Nat := d.uBase.toNat + band * d.uvStride.toNat + bx

/-- `vAddr(by, bx)` (R53). -/
def vAddr (d : Desc) (band bx : Nat) : Nat := d.vBase.toNat + band * d.uvStride.toNat + bx

/-! ## Footprints (R57) -/

/-- The address set `{ base + r*stride + c : r < rows, c < cols }`, the shape of each of the four sets of R57. -/
structure Plane where
  base   : Nat
  stride : Nat
  rows   : Nat
  cols   : Nat
deriving DecidableEq, Repr

/-- The first address of a row. -/
def Plane.rowStart (p : Plane) (r : Nat) : Nat := p.base + r * p.stride

/-- Membership in the set. -/
def Plane.has (p : Plane) (a : Nat) : Bool :=
  (List.range p.rows).any fun r => decide (p.rowStart r ≤ a) && decide (a < p.rowStart r + p.cols)

/-- The addresses of the set, row by row. -/
def Plane.addresses (p : Plane) : List Nat :=
  (List.range p.rows).flatMap fun r => (List.range p.cols).map fun c => p.rowStart r + c

/-- The two sets have no address in common: no row of one meets a row of the other. -/
def Plane.disjoint (p q : Plane) : Bool :=
  (List.range p.rows).all fun r => (List.range q.rows).all fun t =>
    p.cols == 0 || q.cols == 0 || decide (p.rowStart r + p.cols ≤ q.rowStart t)
      || decide (q.rowStart t + q.cols ≤ p.rowStart r)

/-- Every address of the set lies below a bound, the size of the memory space (R63). -/
def Plane.below (bound : Nat) (p : Plane) : Bool :=
  (List.range p.rows).all fun r => p.cols == 0 || decide (p.rowStart r + p.cols ≤ bound)

/-- Every address of the set lies in the regions (R73). -/
def Plane.backed (regions : List Region) (p : Plane) : Bool :=
  (List.range p.rows).all fun r => (List.range p.cols).all fun c => backedAt regions (p.rowStart r + c)

/-- The RGB set of R57. -/
def rgbPlane (i : Instr) : Plane :=
  ⟨i.desc.rgbBase.toNat, i.desc.rgbStride.toNat, procRows i, 3 * procCols i⟩

/-- The Y set of R57. -/
def yPlane (i : Instr) : Plane :=
  ⟨i.desc.yBase.toNat, i.desc.yStride.toNat, procRows i, procCols i⟩

/-- The U set of R57. -/
def uPlane (i : Instr) : Plane :=
  ⟨i.desc.uBase.toNat, i.desc.uvStride.toNat, bands i, bandBlocks i⟩

/-- The V set of R57. -/
def vPlane (i : Instr) : Plane :=
  ⟨i.desc.vBase.toNat, i.desc.uvStride.toNat, bands i, bandBlocks i⟩

/-- The planes a command reads, `ReadFP` of R57. -/
def readPlanes (i : Instr) : List Plane :=
  match i.dir with
  | .forward => [rgbPlane i]
  | .inverse => [yPlane i, uPlane i, vPlane i]

/-- The planes a command writes, `WriteFP` of R57. -/
def writePlanes (i : Instr) : List Plane :=
  match i.dir with
  | .forward => [yPlane i, uPlane i, vPlane i]
  | .inverse => [rgbPlane i]

/-- An address of `ReadFP`. -/
def inReadFP (i : Instr) (a : Nat) : Bool := (readPlanes i).any fun p => p.has a

/-- An address of `WriteFP`. -/
def inWriteFP (i : Instr) (a : Nat) : Bool := (writePlanes i).any fun p => p.has a

/-- The addresses of `WriteFP`. -/
def writeAddresses (i : Instr) : List Nat := (writePlanes i).flatMap Plane.addresses

/-! ## The blocks of a command, in traversal order (R151, R189) -/

/-- The blocks of a scalar command (R170, R171). -/
def scalarBlocks (d : Desc) : List (Nat × Nat) :=
  (List.range (d.height.toNat / 2)).flatMap fun band =>
    (List.range (d.width.toNat / 2)).map fun bx => (band, bx)

/-- The blocks of a vector command, sixteen to a vector block (R189, R191, R193). -/
def vectorBlocks (d : Desc) : List (Nat × Nat) :=
  (List.range (d.height.toNat / 2)).flatMap fun band =>
    (List.range (d.width.toNat / Config.vecPixels)).flatMap fun k =>
      (List.range 16).map fun j => (band, 16 * k + j)

/-- The addresses of the 16-byte accesses of a vector block (R61, R198): of each of its two pixel rows six of RGB and
two of Y, and one of U and one of V. -/
def vectorBlockAccesses (d : Desc) (band k : Nat) : List Nat :=
  ([0, 1].flatMap fun dy =>
      ((List.range 6).map fun j => rgbAddr d (2 * band + dy) (32 * k) + 16 * j)
        ++ (List.range 2).map fun j => yAddr d (2 * band + dy) (32 * k) + 16 * j)
    ++ [uAddr d band (16 * k), vAddr d band (16 * k)]

/-- The addresses of all the 16-byte accesses of a vector command (R61). -/
def vectorAccesses (d : Desc) : List Nat :=
  (List.range (d.height.toNat / 2)).flatMap fun band =>
    (List.range (d.width.toNat / Config.vecPixels)).flatMap fun k => vectorBlockAccesses d band k

/-! ## Preconditions (R226) -/

/-- U2 does not hold: no stride is below the tight row size (R56). -/
def stridesOk (i : Instr) : Bool :=
  decide (3 * cmdWidth i ≤ i.desc.rgbStride.toNat) && decide (cmdWidth i ≤ i.desc.yStride.toNat)
    && decide ((cmdWidth i + 1) / 2 ≤ i.desc.uvStride.toNat)

/-- U3 does not hold: every 16-byte access of an aligned command is at a multiple of 16 (R60). -/
def alignedOk (i : Instr) : Bool :=
  match i.impl with
  | .scalar => true
  | .vecUnaligned => true
  | .vecAligned => (vectorAccesses i.desc).all fun a => a % Config.vecBytes == 0

/-- U4 does not hold (R189). -/
def tailOk (cfg : Config) (i : Instr) : Bool :=
  match cfg.vecTail with
  | .drop => true
  | .refuse => !i.impl.isVector || cmdWidth i % Config.vecPixels == 0

/-- U5 does not hold: the four sets are pairwise disjoint (R59). -/
def disjointOk (i : Instr) : Bool :=
  (rgbPlane i).disjoint (yPlane i) && (rgbPlane i).disjoint (uPlane i) && (rgbPlane i).disjoint (vPlane i)
    && (yPlane i).disjoint (uPlane i) && (yPlane i).disjoint (vPlane i) && (uPlane i).disjoint (vPlane i)

/-- U9 does not hold (R63). -/
def rangeOk (cfg : Config) (i : Instr) : Bool :=
  (rgbPlane i).below cfg.addressSpace && (yPlane i).below cfg.addressSpace
    && (uPlane i).below cfg.addressSpace && (vPlane i).below cfg.addressSpace

/-- WIDTH, HEIGHT and the three strides are below 2^`DIM_BITS` (R74). -/
def dimsOk (cfg : Config) (i : Instr) : Bool := i.desc.dims.all fun w => decide (w.toNat < cfg.dimBound)

/-- U1 does not hold: each of the four sets lies in the memory of its own buffer (R73). -/
def backedOk (b : Backing) (i : Instr) : Bool :=
  (rgbPlane i).backed b.rgb && (yPlane i).backed b.y && (uPlane i).backed b.u && (vPlane i).backed b.v

/-- The first precondition of a command that does not hold, if there is one. Where several fail there is nothing to
prioritise (R229); the order here is the model's. -/
def violation (cfg : Config) (i : Instr) (b : Backing) : Option Refusal :=
  if !i.wellFormed cfg then some (.reservedCommand .vectorAbsent)
  else if !stridesOk i then some .strideTooShort
  else if !alignedOk i then some .misaligned
  else if !tailOk cfg i then some .tailRefused
  else if !disjointOk i then some .buffersOverlap
  else if !rangeOk cfg i then some .addressOutOfRange
  else if !dimsOk cfg i then some .dimensionTooLarge
  else if !backedOk b i then some .notBacked
  else none

/-- What `DEBUG_ASSERT` = on may observe of the ten words at START (R232): U2, U3, U4, U6 and odd dimensions. -/
def debugObserves (cfg : Config) (w : CommandWords) : Bool :=
  match decode cfg w with
  | .error _ => true
  | .ok i =>
    !stridesOk i || !alignedOk i || (i.impl.isVector && cmdWidth i % Config.vecPixels != 0)
      || cmdWidth i % 2 != 0 || cmdHeight i % 2 != 0

end Sys2Proof.Machine
end

