-- ==== Sys2Proof/Machine/Blocks.lean ====
section
/-! DEFINITION. subsampler_420 (spec file 42): one forward and one inverse 2x2 block, as the list of its stores. A block
reads the memory that START saw (R65 a); no block reads what another wrote (R58, R59). -/

namespace Sys2Proof.Machine

open Sys2Proof

/-- What the forward arithmetic makes of one pixel (R153). -/
structure FwdPixel where
  y  : Int
  tU : Int
  tV : Int
deriving DecidableEq, Repr

/-- One pixel of FWD_BLOCK (R131 to R133): the chroma terms use the provisional luma. -/
def fwdPixel (c : FwdRow) (r g b : Byte) : FwdPixel where
  y  := fwdRerange c (fwdLuma c r g b)
  tU := fwdTermU c b (fwdLuma c r g b)
  tV := fwdTermV c r (fwdLuma c r g b)

/-- The pixel `(py, px)` of the RGB buffer, R, G, B at rising addresses (R54), through the forward arithmetic. -/
def loadFwdPixel (c : FwdRow) (d : Desc) (m : Memory) (py px : Nat) : FwdPixel :=
  fwdPixel c (m.read (rgbAddr d py px)) (m.read (rgbAddr d py px + 1)) (m.read (rgbAddr d py px + 2))

/-- `FWD_BLOCK(c, by, bx)` (R153): four Y bytes, one U and one V. -/
def fwdBlock (mode : ChromaMode) (c : FwdRow) (d : Desc) (m : Memory) (band bx : Nat) : List Host.Cell :=
  let tl := loadFwdPixel c d m (2 * band) (2 * bx)
  let tr := loadFwdPixel c d m (2 * band) (2 * bx + 1)
  let bl := loadFwdPixel c d m (2 * band + 1) (2 * bx)
  let br := loadFwdPixel c d m (2 * band + 1) (2 * bx + 1)
  [ (yAddr d (2 * band) (2 * bx), toByte tl.y),
    (yAddr d (2 * band) (2 * bx + 1), toByte tr.y),
    (yAddr d (2 * band + 1) (2 * bx), toByte bl.y),
    (yAddr d (2 * band + 1) (2 * bx + 1), toByte br.y),
    (uAddr d band bx, toByte (decimate mode tl.tU tr.tU bl.tU br.tU)),
    (vAddr d band bx, toByte (decimate mode tl.tV tr.tV bl.tV br.tV)) ]

/-- The three stores of one pixel of INV_BLOCK (R136, R137, R154). -/
def invPixel (c : InvRow) (d : Desc) (m : Memory) (o : Offsets) (py px : Nat) : List Host.Cell :=
  let yp := invLuma c (m.read (yAddr d py px))
  [ (rgbAddr d py px, invRed yp o),
    (rgbAddr d py px + 1, invGreen yp o),
    (rgbAddr d py px + 2, invBlue yp o) ]

/-- `INV_BLOCK(c, by, bx)` (R154): the chroma sample is replicated to the four pixels. -/
def invBlock (c : InvRow) (d : Desc) (m : Memory) (band bx : Nat) : List Host.Cell :=
  let o := invOffsets c (m.read (uAddr d band bx)) (m.read (vAddr d band bx))
  invPixel c d m o (2 * band) (2 * bx) ++ invPixel c d m o (2 * band) (2 * bx + 1)
    ++ invPixel c d m o (2 * band + 1) (2 * bx) ++ invPixel c d m o (2 * band + 1) (2 * bx + 1)

/-- The stores of a forward command over its blocks. -/
def fwdStores (mode : ChromaMode) (std : Std) (d : Desc) (m : Memory) (blocks : List (Nat × Nat)) :
    List Host.Cell :=
  blocks.flatMap fun p => fwdBlock mode (lutFwd std) d m p.1 p.2

/-- The stores of an inverse command over its blocks. -/
def invStores (std : Std) (d : Desc) (m : Memory) (blocks : List (Nat × Nat)) : List Host.Cell :=
  blocks.flatMap fun p => invBlock (lutInv std) d m p.1 p.2

/-- A command with its preconditions: it completes with its stores (R213), or it has no meaning (R226). -/
def runCommand (cfg : Config) (i : Instr) (stores : List Host.Cell) (s : State) :
    Host.Outcome State Fault Refusal :=
  match violation cfg i s.backing with
  | some r => .refused r
  | none => .next (s.complete stores)

end Sys2Proof.Machine
end

