-- ==== Sys2Proof/Machine/Scalar.lean ====
section
/-! DEFINITION. The scalar commands (spec file 43), in any configuration of R8 and on this hardware. -/

namespace Sys2Proof.Machine

open Sys2Proof

/-- `RGB2YUV.S` (R170); its decimation truncates in every configuration (R157, R197). -/
def rgb2yuvSIn (cfg : Config) (std : Std) (d : Desc) (s : State) : Host.Outcome State Fault Refusal :=
  runCommand cfg (.rgb2yuvS std d) (fwdStores .truncSum std d s.mem (scalarBlocks d)) s

/-- `YUV2RGB.S` (R171). -/
def yuv2rgbSIn (cfg : Config) (std : Std) (d : Desc) (s : State) : Host.Outcome State Fault Refusal :=
  runCommand cfg (.yuv2rgbS std d) (invStores std d s.mem (scalarBlocks d)) s

/-- `RGB2YUV.S` of this hardware. -/
def execRgb2yuvS (std : Std) (d : Desc) (s : State) : Host.Outcome State Fault Refusal :=
  rgb2yuvSIn Config.hardware std d s

/-- `YUV2RGB.S` of this hardware. -/
def execYuv2rgbS (std : Std) (d : Desc) (s : State) : Host.Outcome State Fault Refusal :=
  yuv2rgbSIn Config.hardware std d s

end Sys2Proof.Machine
end

