-- ==== Sys2Proof/Machine/Vector.lean ====
section
/-! DEFINITION. The vector commands (spec file 44, section 3), in any configuration of R8 and on this hardware. Their
lane-level decomposition is in Machine/Lanes.lean. -/

namespace Sys2Proof.Machine

open Sys2Proof

/-- `RGB2YUV.VU` (R191); the decimation is that of `VEC_CHROMA_MODE` (R197). -/
def rgb2yuvVuIn (cfg : Config) (std : Std) (d : Desc) (s : State) : Host.Outcome State Fault Refusal :=
  runCommand cfg (.rgb2yuvVu std d) (fwdStores cfg.vecChroma std d s.mem (vectorBlocks d)) s

/-- `YUV2RGB.VU` (R193). -/
def yuv2rgbVuIn (cfg : Config) (std : Std) (d : Desc) (s : State) : Host.Outcome State Fault Refusal :=
  runCommand cfg (.yuv2rgbVu std d) (invStores std d s.mem (vectorBlocks d)) s

/-- `RGB2YUV.VA` (R192): as the unaligned command, with the alignment precondition (U3). -/
def rgb2yuvVaIn (cfg : Config) (std : Std) (d : Desc) (s : State) : Host.Outcome State Fault Refusal :=
  runCommand cfg (.rgb2yuvVa std d) (fwdStores cfg.vecChroma std d s.mem (vectorBlocks d)) s

/-- `YUV2RGB.VA` (R194): as the unaligned command, with the alignment precondition (U3). -/
def yuv2rgbVaIn (cfg : Config) (std : Std) (d : Desc) (s : State) : Host.Outcome State Fault Refusal :=
  runCommand cfg (.yuv2rgbVa std d) (invStores std d s.mem (vectorBlocks d)) s

/-- `RGB2YUV.VU` of this hardware. -/
def execRgb2yuvVu (std : Std) (d : Desc) (s : State) : Host.Outcome State Fault Refusal :=
  rgb2yuvVuIn Config.hardware std d s

/-- `YUV2RGB.VU` of this hardware. -/
def execYuv2rgbVu (std : Std) (d : Desc) (s : State) : Host.Outcome State Fault Refusal :=
  yuv2rgbVuIn Config.hardware std d s

/-- `RGB2YUV.VA` of this hardware. -/
def execRgb2yuvVa (std : Std) (d : Desc) (s : State) : Host.Outcome State Fault Refusal :=
  rgb2yuvVaIn Config.hardware std d s

/-- `YUV2RGB.VA` of this hardware. -/
def execYuv2rgbVa (std : Std) (d : Desc) (s : State) : Host.Outcome State Fault Refusal :=
  yuv2rgbVaIn Config.hardware std d s

end Sys2Proof.Machine
end

