-- ==== Sys2Proof/Machine/Dispatch.lean ====
section
/-! DEFINITION. One arm per command. -/

namespace Sys2Proof.Machine

open Sys2Proof

def exec (i : Instr) (s : State) : Host.Outcome State Fault Refusal :=
  match i with
  | .rgb2yuvS std d => Sys2Proof.Machine.execRgb2yuvS std d s
  | .yuv2rgbS std d => Sys2Proof.Machine.execYuv2rgbS std d s
  | .rgb2yuvVu std d => Sys2Proof.Machine.execRgb2yuvVu std d s
  | .yuv2rgbVu std d => Sys2Proof.Machine.execYuv2rgbVu std d s
  | .rgb2yuvVa std d => Sys2Proof.Machine.execRgb2yuvVa std d s
  | .yuv2rgbVa std d => Sys2Proof.Machine.execYuv2rgbVa std d s

end Sys2Proof.Machine
end

