-- ==== Sys2Proof/Machine/Flags.lean ====
section
/-! DEFINITION. Status computations. There are no flags, condition codes or predicates (R27): no command computes one, and
saturation leaves no trace (R227). What a program can read back about the engine is the STATUS word (R23). -/

namespace Sys2Proof.Machine

open Sys2Proof

/-- `BUSY | (DONE << 1)` (R23, R211); bits 31:2 read as 0. -/
def statusWord (busy done : Bool) : Word :=
  BitVec.ofNat 32 (busy.toNat + 2 * done.toNat)

/-- What a read of STATUS returns. -/
def State.status (s : State) : Word := statusWord s.busy s.done

end Sys2Proof.Machine
end

