-- ==== Sys2Proof/Machine/HostOps.lean ====
section
/-! DEFINITION. The host operations of spec file 45 (`WR`, `RD`, `START`), the host's own memory accesses (R29, R64), and
reset (R245, R246). Each is given the state from which the operation has already been taken off the host's list. -/

namespace Sys2Proof.Machine

open Sys2Proof

/-- `START` (R212): the ten words are latched and the command they describe begins, or the START has no meaning. -/
def startOp (cfg : Config) (s : State) : Host.Outcome State Fault Refusal :=
  if s.busy then .refused .busy
  else if !s.regs.allWritten then .refused .descriptorNotWritten
  else if cfg.debugAssert && debugObserves cfg s.regs.words then .fault .debugAssertion
  else
    match decode cfg s.regs.words with
    | .error e => .refused (.reservedCommand e)
    | .ok i =>
      match violation cfg i s.backing with
      | some r => .refused r
      | none => .next (s.begin s.regs.words i)

/-- `WR CTRL, value` (R23, R210). -/
def writeCtrl (cfg : Config) (value : Word) (s : State) : Host.Outcome State Fault Refusal :=
  if value.toNat / 2 ≠ 0 then .refused .reservedCtrlBits
  else if value.toNat % 2 = 1 then startOp cfg s
  else .next s

/-- `WR` to what an offset names (R210): STATUS and the LUT window ignore it. -/
def writeTarget (cfg : Config) (t : RegTarget) (value : Word) (s : State) : Host.Outcome State Fault Refusal :=
  match t with
  | .ctrl => writeCtrl cfg value s
  | .status => .next s
  | .reg r => if s.busy then .refused .busy else .next { s with regs := s.regs.set r value }
  | .lutFwd _ _ => .next s
  | .lutInv _ _ => .next s

/-- `WR` (R210, R32). -/
def writeOp (cfg : Config) (offset bytes : Nat) (value : Word) (s : State) : Host.Outcome State Fault Refusal :=
  if bytes ≠ 4 ∨ offset % 4 ≠ 0 then .refused .notAnAlignedWord
  else
    match targetOf offset with
    | none => .refused .reservedOffset
    | some t => writeTarget cfg t value s

/-- `RD` of what an offset names (R211): no state of the block changes; a STATUS that reads DONE = 1 gives the footprints
back to the host (R252). A register not written since reset gives a free value, a new one at each read (R31,
notes/assumptions/1.md). -/
def readTarget (t : RegTarget) (s : State) : State :=
  match t with
  | .ctrl => s.receive (.word 0)
  | .status => (s.receive (.word s.status)).observeDone
  | .reg r =>
    if (s.regs.get r).written then s.receive (.word (s.regs.get r).value)
    else { s.receive (.word (Config.unwrittenWord s.draws)) with draws := s.draws + 1 }
  | .lutFwd std k => s.receive (.word ((lutFwd std).field k |>.zeroExtend 32))
  | .lutInv std k => s.receive (.word ((lutInv std).field k |>.zeroExtend 32))

/-- `RD` (R211, R32). -/
def readOp (offset bytes : Nat) (s : State) : Host.Outcome State Fault Refusal :=
  if bytes ≠ 4 ∨ offset % 4 ≠ 0 then .refused .notAnAlignedWord
  else
    match targetOf offset with
    | none => .refused .reservedOffset
    | some t => .next (readTarget t s)

/-- The command that is running: the latched words, while BUSY (R28). -/
def State.running (s : State) : Option Instr :=
  if s.busy then
    match s.latch with
    | none => none
    | some w =>
      match decode Config.hardware w with
      | .ok i => some i
      | .error _ => none
  else none

/-- The address is in a footprint of a command whose completion the host has not observed (R64). -/
def State.ownsAny (s : State) (a : Nat) : Bool := s.owned.any fun i => inReadFP i a || inWriteFP i a

/-- The address is in the write footprint of a command whose completion the host has not observed (R64). -/
def State.ownsWritten (s : State) (a : Nat) : Bool := s.owned.any fun i => inWriteFP i a

/-- The host hands over other memory for the buffers: what a command owns stays handed over until DONE is observed, "for the
duration of the command" (R73, R214). -/
def lendOp (b : Backing) (s : State) : Host.Outcome State Fault Refusal :=
  if s.owned.all (backedOk b) then .next { s with backing := b } else .refused .notBacked

/-- Another agent stores a byte of the memory space, whose every address is a byte (R50, R71): from START until DONE is observed, outside both footprints of the
command (R64, U10). -/
def memWriteOp (a : Nat) (v : Byte) (s : State) : Host.Outcome State Fault Refusal :=
  if Config.spaceSize ≤ a then .refused .addressOutOfRange
  else if s.ownsAny a then .refused .footprintContended
  else .next { s with mem := s.mem.write a v }

/-- Another agent loads a byte of the memory space: from START until DONE is observed, outside the write footprint of
the command (R64, R252, U10). -/
def memReadOp (a : Nat) (s : State) : Host.Outcome State Fault Refusal :=
  if Config.spaceSize ≤ a then .refused .addressOutOfRange
  else if s.ownsWritten a then .refused .footprintContended
  else .next (s.receive (.byte (s.mem.read a)))

/-- What an abandoned command leaves in memory (R246): a free byte at every address of its write footprint
(notes/assumptions/14.md), every other byte unchanged. -/
def abandon (i : Instr) (draw : Nat) (m : Memory) : Memory :=
  m.writeAll ((writeAddresses i).map fun a => (a, Config.abandonedByte draw a))

/-- Reset (R245): the registers take their reset values, the engine is idle; a running command is abandoned (R246). -/
def resetOp (s : State) : State :=
  match s.running with
  | none => { s with regs := RegFile.reset, busy := false, done := false, latch := none, owned := [] }
  | some i =>
    { s with regs := RegFile.reset, busy := false, done := false, latch := none, owned := [],
             mem := abandon i s.draws s.mem, draws := s.draws + 1 }

end Sys2Proof.Machine
end

