-- ==== Sys2Proof/Machine/Issue.lean ====
section
/-! DEFINITION. What happens next: the engine completes the command it latched, or the host performs its next operation
(R13, R213, R217). -/

namespace Sys2Proof.Machine

open Sys2Proof

/-- The fetch: the ten words latched at START. There is no program counter and no fetch from memory (R26, R69). -/
def State.fetched (s : State) : Option CommandWords := s.latch

/-- The engine runs the latched command to its end (R213). -/
def runLatched (s : State) : Host.Outcome State Fault Refusal :=
  match s.fetched with
  | none => .refused .noLatchedCommand
  | some w =>
    match decode Config.hardware w with
    | .error e => .refused (.reservedCommand e)
    | .ok i => exec i s

/-- The engine's turn: a running command completes; an idle block does nothing (R29). -/
def engineTurn (s : State) : Host.Outcome State Fault Refusal :=
  if s.busy then runLatched s else .next s

/-- `WAIT` (R214): repeated reads of STATUS. While BUSY the command completes first; once DONE reads 1 the wait is over
and the host has observed it (R214); with neither it goes on for ever (I29). `rest` is what the host does after it. -/
def waitOp (rest : List HostOp) (s : State) : Host.Outcome State Fault Refusal :=
  if s.busy then runLatched s
  else if s.done then .next { s.observeDone with inputs := rest }
  else .next s

/-- One host operation, `rest` being what the host does after it. -/
def hostTurn (op : HostOp) (rest : List HostOp) (s : State) : Host.Outcome State Fault Refusal :=
  match op with
  | .wr offset bytes value => writeOp Config.hardware offset bytes value { s with inputs := rest }
  | .rd offset bytes => readOp offset bytes { s with inputs := rest }
  | .wait => waitOp rest s
  | .memWrite a v => memWriteOp a v { s with inputs := rest }
  | .memRead a => memReadOp a { s with inputs := rest }
  | .lend b => lendOp b { s with inputs := rest }
  | .reset => .next (resetOp { s with inputs := rest })
  | .finish => engineTurn { s with inputs := rest }

/-- One step: the host's next operation; when it has none, the engine's turn. -/
def advance (s : State) : Host.Outcome State Fault Refusal :=
  match s.inputs with
  | [] => engineTurn s
  | op :: rest => hostTurn op rest s

/-- The commands whose footprints are the block's once the ten words are started. -/
def ownedWith (w : CommandWords) (owned : List Instr) : List Instr :=
  match decode Config.hardware w with
  | .ok i => i :: owned
  | .error _ => owned

/-- The state in which the command of the ten words has just been started and completes next: the registers hold the
words, START has latched them, and the next thing that happens is that time passes until it is complete
(notes/assumptions/8.md). -/
def placeCommand (w : CommandWords) (s : State) : State :=
  { s with regs := RegFile.ofWords w, busy := true, done := false, latch := some w,
           owned := ownedWith w s.owned, inputs := .finish :: s.inputs }

end Sys2Proof.Machine
end

