-- ==== Sys2Proof/Machine/Step.lean ====
section
/-! DEFINITION. One step of the machine, and the placement of a command where the next step runs it. -/

namespace Sys2Proof.Machine

open Sys2Proof

/-- One step (Machine/Issue.lean). -/
def step (s : State) : Host.Outcome State Fault Refusal := advance s

/-- The command whose words are `nbits` bits `w`, numbered as the opcode table numbers them, started and about to run. -/
def State.withFetchWord (s : State) (nbits w : Nat) : State := placeCommand (tableWords nbits w) s

end Sys2Proof.Machine
end

