-- ==== Sys2Proof/Machine/Calls.lean ====
section
/-! DEFINITION. What one line of the assembler stands for (R87, R88, R218), and the shards of a command (R156, R235). These
are host programs and descriptor arithmetic, not operations of the block. -/

namespace Sys2Proof.Machine

open Sys2Proof

/-- `WR <register>, value`. -/
def HostOp.wrReg (r : RegName) (v : Word) : HostOp := .wr r.offset 4 v

/-- `START`: `WR CTRL, 1` (R212). -/
def HostOp.start : HostOp := .wr RegTarget.ctrl.offset 4 1

/-- The ten `WR` of a call, in the order of R218. -/
def descriptorWrites (w : CommandWords) : List HostOp :=
  [ .wrReg .width w.desc.width, .wrReg .height w.desc.height,
    .wrReg .rgbBase w.desc.rgbBase, .wrReg .rgbStride w.desc.rgbStride,
    .wrReg .yBase w.desc.yBase, .wrReg .uBase w.desc.uBase, .wrReg .vBase w.desc.vBase,
    .wrReg .yStride w.desc.yStride, .wrReg .uvStride w.desc.uvStride,
    .wrReg .cmd w.cmd ]

/-- A complete call (R218): the ten `WR`, `START`, `WAIT`. -/
def callOps (i : Instr) : List HostOp := descriptorWrites (encode i) ++ [.start, .wait]

/-- The descriptor of the rows from `r0`, an even number, on: `rows` rows (R156, R235). -/
def Desc.rowShard (d : Desc) (r0 rows : Nat) : Desc :=
  { d with
    height  := BitVec.ofNat 32 rows
    rgbBase := d.rgbBase + BitVec.ofNat 32 (r0 * d.rgbStride.toNat)
    yBase   := d.yBase + BitVec.ofNat 32 (r0 * d.yStride.toNat)
    uBase   := d.uBase + BitVec.ofNat 32 (r0 / 2 * d.uvStride.toNat)
    vBase   := d.vBase + BitVec.ofNat 32 (r0 / 2 * d.uvStride.toNat) }

/-- The descriptor of the columns from `c0`, an even number, on: `cols` columns (R156, R235). -/
def Desc.colShard (d : Desc) (c0 cols : Nat) : Desc :=
  { d with
    width   := BitVec.ofNat 32 cols
    rgbBase := d.rgbBase + BitVec.ofNat 32 (3 * c0)
    yBase   := d.yBase + BitVec.ofNat 32 c0
    uBase   := d.uBase + BitVec.ofNat 32 (c0 / 2)
    vBase   := d.vBase + BitVec.ofNat 32 (c0 / 2) }

/-- The same command on another descriptor. -/
def Instr.withDesc (i : Instr) (d : Desc) : Instr := Instr.ofParts i.dir i.impl i.std d

/-- The full groups of 32 columns of a width, `K` of R88. -/
def fullGroups (d : Desc) : Nat := Config.vecPixels * (d.width.toNat / Config.vecPixels)

/-- `.VX` (R88): the vector command, and the scalar command on the remainder unless there is none. `impl` is the vector
implementation chosen. -/
def expandVx (dir : Dir) (impl : Impl) (std : Std) (d : Desc) : List Instr :=
  Instr.ofParts dir impl std d ::
    if d.width.toNat = fullGroups d then []
    else [Instr.ofParts dir .scalar std (Desc.colShard d (fullGroups d) (d.width.toNat - fullGroups d))]

/-- Commands one after the other, each from the state in which the one before completed. -/
def execSeq : List Instr → State → Host.Outcome State Fault Refusal
  | [], s => .next s
  | i :: is, s =>
    match exec i s with
    | .next t => execSeq is t
    | .fault f => .fault f
    | .refused r => .refused r

end Sys2Proof.Machine
end

