-- ==== Sys2Proof/Machine/Lanes.lean ====
section
/-! DEFINITION. The lane operations of the vector datapath (R180 to R188, R200) and the lane-level decomposition of one
vector block (R195, R196). The working registers are internal to a running command (R30) and the decomposition is
informative: R190 governs, and the commands of Machine/Vector.lean are written from it. -/

namespace Sys2Proof.Machine

open Sys2Proof

/-! ## Lane operations -/

/-- `WIDEN_LO` (R181). -/
def widenLo (v : Vector Byte 16) : Vector Half 8 :=
  Vector.ofFn fun i : Fin 8 => (v[i.val]'(by omega)).zeroExtend 16

/-- `WIDEN_HI` (R181). -/
def widenHi (v : Vector Byte 16) : Vector Half 8 :=
  Vector.ofFn fun i : Fin 8 => (v[8 + i.val]'(by omega)).zeroExtend 16

/-- `MULLO16` (R182): the low 16 bits of the lane product. -/
def mullo16 {n : Nat} (a b : Vector Half n) : Vector Half n := Vector.zipWith (· * ·) a b

/-- `ADD16` (R183), wrapping. -/
def add16 {n : Nat} (a b : Vector Half n) : Vector Half n := Vector.zipWith (· + ·) a b

/-- `SUB16` (R183), wrapping. -/
def sub16 {n : Nat} (a b : Vector Half n) : Vector Half n := Vector.zipWith (· - ·) a b

/-- `SRA16` (R184). -/
def sra16 {n : Nat} (a : Vector Half n) (k : Nat) : Vector Half n := a.map fun x : Half => x.sshiftRight k

/-- `SRL16` (R185). -/
def srl16 {n : Nat} (a : Vector Half n) (k : Nat) : Vector Half n := a.map fun x : Half => x >>> k

/-- A lane read as signed and saturated to a byte (R186). -/
def packLane (x : Half) : Byte := toByte (clamp8 x.toInt)

/-- `PACKUS` (R186). -/
def packus (a b : Vector Half 8) : Vector Byte 16 :=
  Vector.ofFn fun i : Fin 16 =>
    if h : i.val < 8 then packLane (a[i.val]'h) else packLane (b[i.val - 8]'(by omega))

/-- `AVGU8` on one lane (R187): rounding up, computed without overflow. -/
def avgLane (a b : Byte) : Byte := BitVec.ofNat 8 ((a.toNat + b.toNat + 1) / 2)

/-- `AVGU8` (R187). No command of this hardware uses it (R197). -/
def avgu8 (a b : Vector Byte 16) : Vector Byte 16 := Vector.zipWith avgLane a b

/-- `PAIRSUM16` (R200). -/
def pairsum16 {m : Nat} (a : Vector Half (2 * m)) : Vector Half m :=
  Vector.ofFn fun j : Fin m => a[2 * j.val]'(by omega) + a[2 * j.val + 1]'(by omega)

/-- Three planar rows of 32 pixels. -/
structure Planar where
  r : Vector Byte 32
  g : Vector Byte 32
  b : Vector Byte 32

/-- `DEINTERLEAVE3` (R188). -/
def deinterleave3 (v : Vector Byte 96) : Planar where
  r := Vector.ofFn fun i : Fin 32 => v[3 * i.val]'(by omega)
  g := Vector.ofFn fun i : Fin 32 => v[3 * i.val + 1]'(by omega)
  b := Vector.ofFn fun i : Fin 32 => v[3 * i.val + 2]'(by omega)

/-- `INTERLEAVE3` (R188). -/
def interleave3 (p : Planar) : Vector Byte 96 :=
  Vector.ofFn fun i : Fin 96 =>
    if i.val % 3 = 0 then p.r[i.val / 3]'(by omega)
    else if i.val % 3 = 1 then p.g[i.val / 3]'(by omega)
    else p.b[i.val / 3]'(by omega)

/-- A coefficient in every lane. -/
def broadcast (n : Nat) (c : Byte) : Vector Half n := Vector.replicate n (c.zeroExtend 16)

/-! ## Rows of 32 pixels as vectors -/

/-- The first of the two vectors of a 32-byte row. -/
def rowLo (v : Vector Byte 32) : Vector Byte 16 := Vector.ofFn fun i : Fin 16 => v[i.val]'(by omega)

/-- The second of the two vectors of a 32-byte row. -/
def rowHi (v : Vector Byte 32) : Vector Byte 16 := Vector.ofFn fun i : Fin 16 => v[16 + i.val]'(by omega)

/-- Two vectors as one row of 32 bytes. -/
def joinVectors (x y : Vector Byte 16) : Vector Byte 32 :=
  Vector.ofFn fun i : Fin 32 => if h : i.val < 16 then x[i.val]'h else y[i.val - 16]'(by omega)

/-- Two groups of eight lanes as one row of sixteen. -/
def joinHalves (x y : Vector Half 8) : Vector Half 16 :=
  Vector.ofFn fun i : Fin 16 => if h : i.val < 8 then x[i.val]'h else y[i.val - 8]'(by omega)

/-- The group of eight pixels `g` of a 32-byte row, widened to 16-bit lanes (R195). -/
def widenGroup (v : Vector Byte 32) (g : Fin 4) : Vector Half 8 :=
  match g with
  | 0 => widenLo (rowLo v)
  | 1 => widenHi (rowLo v)
  | 2 => widenLo (rowHi v)
  | 3 => widenHi (rowHi v)

/-- Four groups of eight lanes as one row of 32. -/
def joinGroups (f : Fin 4 → Vector Half 8) : Vector Half 32 :=
  Vector.ofFn fun i : Fin 32 => (f ⟨i.val / 8, by omega⟩)[i.val % 8]'(by omega)

/-- The eight lanes from lane `8*g` of a row of lanes. -/
def laneGroup {n : Nat} (a : Vector Half (8 * n)) (g : Fin n) : Vector Half 8 :=
  Vector.ofFn fun i : Fin 8 => a[8 * g.val + i.val]'(by omega)

/-- Sixteen lanes packed into one vector (R186). -/
def pack16 (a : Vector Half 16) : Vector Byte 16 :=
  packus (laneGroup (n := 2) a 0) (laneGroup (n := 2) a 1)

/-- Thirty-two lanes packed into the two vectors of a row (R186). -/
def pack32 (a : Vector Half 32) : Vector Byte 32 :=
  joinVectors (packus (laneGroup (n := 4) a 0) (laneGroup (n := 4) a 1))
    (packus (laneGroup (n := 4) a 2) (laneGroup (n := 4) a 3))

/-! ## Forward vector block (R195) -/

/-- What one group of eight pixels gives. -/
structure FwdGroup where
  y  : Vector Half 8
  tU : Vector Half 8
  tV : Vector Half 8

/-- The provisional luma of a group: the sum needs the unsigned reading, hence the logical shift (R185, R195). -/
def lumaGroup (c : FwdRow) (r g b : Vector Half 8) : Vector Half 8 :=
  srl16 (add16 (add16 (mullo16 r (broadcast 8 c.rw)) (mullo16 g (broadcast 8 c.gw)))
    (mullo16 b (broadcast 8 c.bw))) 8

/-- One group of eight pixels of a row (R195). -/
def fwdGroup (c : FwdRow) (r g b : Vector Half 8) : FwdGroup where
  y  := add16 (srl16 (mullo16 (lumaGroup c r g b) (broadcast 8 c.yScale)) 7) (broadcast 8 c.yOffset)
  tU := add16 (sra16 (mullo16 (sub16 b (lumaGroup c r g b)) (broadcast 8 c.cbScale)) 8) (broadcast 8 128)
  tV := add16 (sra16 (mullo16 (sub16 r (lumaGroup c r g b)) (broadcast 8 c.crScale)) 8) (broadcast 8 128)

/-- What one pixel row of a vector block gives: 32 Y bytes, and the chroma terms kept in lanes. -/
structure FwdRowLanes where
  y  : Vector Byte 32
  tU : Vector Half 32
  tV : Vector Half 32

/-- One pixel row of a vector block (R195). -/
def fwdRowLanes (c : FwdRow) (row : Vector Byte 96) : FwdRowLanes :=
  let p := deinterleave3 row
  let f := fun g : Fin 4 => fwdGroup c (widenGroup p.r g) (widenGroup p.g g) (widenGroup p.b g)
  { y  := pack32 (joinGroups fun g => (f g).y)
    tU := joinGroups fun g => (f g).tU
    tV := joinGroups fun g => (f g).tV }

/-- The sixteen decimated samples of a vector block from the terms of its two rows (R195). -/
def decimateLanes (t0 t1 : Vector Half 32) : Vector Byte 16 :=
  pack16 (srl16 (add16 (pairsum16 (m := 16) t0) (pairsum16 (m := 16) t1)) 2)

/-! ## Inverse vector block (R196) -/

/-- The sixteen offsets `(coefficient * x') >> shift` of a vector block (R196). -/
def offsetLanes (c : Byte) (x : Vector Byte 16) (shift : Nat) : Vector Half 16 :=
  let half := fun w : Vector Half 8 => sra16 (mullo16 (sub16 w (broadcast 8 128)) (broadcast 8 c)) shift
  joinHalves (half (widenLo x)) (half (widenHi x))

/-- The sixteen green offsets of a vector block (R196). -/
def greenLanes (c : InvRow) (u v : Vector Byte 16) : Vector Half 16 :=
  let half := fun wu wv : Vector Half 8 =>
    sra16 (add16 (mullo16 (sub16 wu (broadcast 8 128)) (broadcast 8 c.gCb))
      (mullo16 (sub16 wv (broadcast 8 128)) (broadcast 8 c.gCr))) 7
  joinHalves (half (widenLo u) (widenLo v)) (half (widenHi u) (widenHi v))

/-- Each of sixteen offsets on the two pixel columns of its block (R196). -/
def duplicate (o : Vector Half 16) : Vector Half 32 :=
  Vector.ofFn fun i : Fin 32 => o[i.val / 2]'(by omega)

/-- The re-ranged luma of one lane, formed in a lane of 18 signed bits (R196), the result being a 16-bit one again. -/
def lumaLane (c : InvRow) (y : Byte) : Half :=
  ((c.yScale.zeroExtend 18 * (y.zeroExtend 18 - c.yOffset.zeroExtend 18)).sshiftRight 7).truncate 16

/-- The chroma offsets of a vector block, one for each of its sixteen blocks. -/
structure OffsetLanes where
  b : Vector Half 16
  r : Vector Half 16
  g : Vector Half 16

/-- The offsets of a vector block (R196). -/
def invOffsetLanes (c : InvRow) (u v : Vector Byte 16) : OffsetLanes where
  b := offsetLanes c.cbDescale u 6
  r := offsetLanes c.crDescale v 6
  g := greenLanes c u v

/-- One pixel row of a vector block (R196): 96 bytes of RGB. -/
def invRowLanes (c : InvRow) (o : OffsetLanes) (y : Vector Byte 32) : Vector Byte 96 :=
  let yp := y.map (lumaLane c)
  interleave3
    { r := pack32 (add16 yp (duplicate o.r))
      g := pack32 (sub16 yp (duplicate o.g))
      b := pack32 (add16 yp (duplicate o.b)) }

/-! ## The 16-byte accesses of a vector block (R61, R198) -/

/-- `MemRead(a, 16)` (R11). -/
def loadVector (m : Memory) (a : Nat) : Vector Byte 16 := Vector.ofFn fun i : Fin 16 => m.read (a + i.val)

/-- `MemWrite(a, 16, v)` (R11). -/
def storeVector (a : Nat) (v : Vector Byte 16) : List Host.Cell :=
  (List.finRange 16).map fun i => (a + i.val, v[i.val]'(by omega))

/-- Two 16-byte loads: 32 consecutive bytes. -/
def loadRow32 (m : Memory) (a : Nat) : Vector Byte 32 := joinVectors (loadVector m a) (loadVector m (a + 16))

/-- Two 16-byte stores. -/
def storeRow32 (a : Nat) (v : Vector Byte 32) : List Host.Cell :=
  storeVector a (rowLo v) ++ storeVector (a + 16) (rowHi v)

/-- Six 16-byte loads: the 96 bytes of 32 RGB pixels. -/
def loadRow96 (m : Memory) (a : Nat) : Vector Byte 96 :=
  Vector.ofFn fun i : Fin 96 => (loadVector m (a + 16 * (i.val / 16)))[i.val % 16]'(by omega)

/-- Six 16-byte stores. -/
def storeRow96 (a : Nat) (v : Vector Byte 96) : List Host.Cell :=
  (List.finRange 6).flatMap fun j =>
    storeVector (a + 16 * j.val) (Vector.ofFn fun i : Fin 16 => v[16 * j.val + i.val]'(by omega))

/-- The stores of a forward vector block by the lane datapath (R195). -/
def fwdVectorBlock (c : FwdRow) (d : Desc) (m : Memory) (band k : Nat) : List Host.Cell :=
  let top := fwdRowLanes c (loadRow96 m (rgbAddr d (2 * band) (32 * k)))
  let low := fwdRowLanes c (loadRow96 m (rgbAddr d (2 * band + 1) (32 * k)))
  storeRow32 (yAddr d (2 * band) (32 * k)) top.y
    ++ storeRow32 (yAddr d (2 * band + 1) (32 * k)) low.y
    ++ storeVector (uAddr d band (16 * k)) (decimateLanes top.tU low.tU)
    ++ storeVector (vAddr d band (16 * k)) (decimateLanes top.tV low.tV)

/-- The stores of an inverse vector block by the lane datapath (R196). -/
def invVectorBlock (c : InvRow) (d : Desc) (m : Memory) (band k : Nat) : List Host.Cell :=
  let o := invOffsetLanes c (loadVector m (uAddr d band (16 * k))) (loadVector m (vAddr d band (16 * k)))
  storeRow96 (rgbAddr d (2 * band) (32 * k))
      (invRowLanes c o (loadRow32 m (yAddr d (2 * band) (32 * k))))
    ++ storeRow96 (rgbAddr d (2 * band + 1) (32 * k))
      (invRowLanes c o (loadRow32 m (yAddr d (2 * band + 1) (32 * k))))

end Sys2Proof.Machine
end

