-- ==== Sys2Proof/Machine/Configured.lean ====
section
/-! DEFINITION. The commands in any configuration of R8. `exec` (Machine/Dispatch.lean) is `execIn Config.hardware`. -/

namespace Sys2Proof.Machine

open Sys2Proof

/-- A command of a block built with the given parameters. -/
def execIn (cfg : Config) (i : Instr) (s : State) : Host.Outcome State Fault Refusal :=
  match i with
  | .rgb2yuvS std d => rgb2yuvSIn cfg std d s
  | .yuv2rgbS std d => yuv2rgbSIn cfg std d s
  | .rgb2yuvVu std d => rgb2yuvVuIn cfg std d s
  | .yuv2rgbVu std d => yuv2rgbVuIn cfg std d s
  | .rgb2yuvVa std d => rgb2yuvVaIn cfg std d s
  | .yuv2rgbVa std d => yuv2rgbVaIn cfg std d s

/-- The blocks a command processes (R150, R189). -/
def commandBlocks (i : Instr) : List (Nat × Nat) :=
  if i.impl.isVector then vectorBlocks i.desc else scalarBlocks i.desc

/-- The decimation a forward command uses in a configuration (R197). -/
def commandChroma (cfg : Config) (i : Instr) : ChromaMode :=
  if i.impl.isVector then cfg.vecChroma else .truncSum

/-- The stores of a command that starts with the given memory. -/
def commandStores (cfg : Config) (i : Instr) (m : Memory) : List Host.Cell :=
  match i.dir with
  | .forward => fwdStores (commandChroma cfg i) i.std i.desc m (commandBlocks i)
  | .inverse => invStores i.std i.desc m (commandBlocks i)

end Sys2Proof.Machine
end

