-- ==== Sys2Proof/Safety.lean ====
section
/-! DEFINITION. The terms the statements use: the address sets of R57 as sets, when a command has a meaning (R226), and the
invariant of the machine. -/

namespace Sys2Proof.Machine

open Sys2Proof

/-! ## The sets of R57, word for word -/

/-- The RGB set of a command. -/
def InRgbSet (i : Instr) (a : Nat) : Prop :=
  ∃ py px c, py < procRows i ∧ px < procCols i ∧ c < 3 ∧ a = rgbAddr i.desc py px + c

/-- The Y set of a command. -/
def InYSet (i : Instr) (a : Nat) : Prop :=
  ∃ py px, py < procRows i ∧ px < procCols i ∧ a = yAddr i.desc py px

/-- The U set of a command. -/
def InUSet (i : Instr) (a : Nat) : Prop :=
  ∃ band bx, band < bands i ∧ bx < bandBlocks i ∧ a = uAddr i.desc band bx

/-- The V set of a command. -/
def InVSet (i : Instr) (a : Nat) : Prop :=
  ∃ band bx, band < bands i ∧ bx < bandBlocks i ∧ a = vAddr i.desc band bx

/-- `ReadFP`. -/
def InReadSet (i : Instr) (a : Nat) : Prop :=
  match i.dir with
  | .forward => InRgbSet i a
  | .inverse => InYSet i a ∨ InUSet i a ∨ InVSet i a

/-- `WriteFP`. -/
def InWriteSet (i : Instr) (a : Nat) : Prop :=
  match i.dir with
  | .forward => InYSet i a ∨ InUSet i a ∨ InVSet i a
  | .inverse => InRgbSet i a

/-- A byte of one of the four sets. -/
def InFootprint (i : Instr) (a : Nat) : Prop := InReadSet i a ∨ InWriteSet i a

/-- The address lies in one of the regions (R73). -/
def Backed (regions : List Region) (a : Nat) : Prop :=
  ∃ r ∈ regions, r.base ≤ a ∧ a < r.base + r.size

/-- Every byte of the four sets lies in the memory that the host has allocated for the buffer concerned (R73). -/
structure SetsBacked (b : Backing) (i : Instr) : Prop where
  rgb : ∀ a, InRgbSet i a → Backed b.rgb a
  y   : ∀ a, InYSet i a → Backed b.y a
  u   : ∀ a, InUSet i a → Backed b.u a
  v   : ∀ a, InVSet i a → Backed b.v a

/-! ## When a command has a meaning (R226) -/

/-- None of U1 to U6, U9 and U14 holds of the command, each said as its rule says it, and its dimensions are those of the
configuration. -/
structure CommandLegal (cfg : Config) (b : Backing) (i : Instr) : Prop where
  /-- U14: the configuration has the command (R199) -/
  present  : i.impl.isVector = true → cfg.hasVector = true
  /-- U2 (R56) -/
  rgbTight : 3 * cmdWidth i ≤ i.desc.rgbStride.toNat
  /-- U2 (R56) -/
  yTight   : cmdWidth i ≤ i.desc.yStride.toNat
  /-- U2 (R56): `ceil(W/2)` -/
  uvTight  : (cmdWidth i + 1) / 2 ≤ i.desc.uvStride.toNat
  /-- U3 (R60) -/
  aligned  : i.impl = .vecAligned → ∀ a ∈ vectorAccesses i.desc, a % Config.vecBytes = 0
  /-- U4 (R189) -/
  tail     : cfg.vecTail = .refuse → i.impl.isVector = true → cmdWidth i % Config.vecPixels = 0
  /-- U5 (R59) -/
  rgbY     : ∀ a, InRgbSet i a → ¬ InYSet i a
  /-- U5 (R59) -/
  rgbU     : ∀ a, InRgbSet i a → ¬ InUSet i a
  /-- U5 (R59) -/
  rgbV     : ∀ a, InRgbSet i a → ¬ InVSet i a
  /-- U5 (R59) -/
  yU       : ∀ a, InYSet i a → ¬ InUSet i a
  /-- U5 (R59) -/
  yV       : ∀ a, InYSet i a → ¬ InVSet i a
  /-- U5 (R59) -/
  uV       : ∀ a, InUSet i a → ¬ InVSet i a
  /-- U9 (R63) -/
  inRange  : ∀ a, InFootprint i a → a < cfg.addressSpace
  /-- U1 (R73) -/
  backed   : SetsBacked b i
  /-- `DIM_BITS` (R74) -/
  dims     : ∀ w ∈ i.desc.dims, w.toNat < 2 ^ cfg.dimBits

/-- The command has a meaning on this hardware, with the memory of the state. -/
abbrev Legal (i : Instr) (s : State) : Prop := CommandLegal Config.hardware s.backing i

/-! ## What a command leaves (R170, R171) -/

/-- The provisional luma of the pixel `(py, px)` of the RGB buffer (R131). -/
def lumaAt (c : FwdRow) (d : Desc) (m : Memory) (py px : Nat) : Int :=
  fwdLuma c (m.read (rgbAddr d py px)) (m.read (rgbAddr d py px + 1)) (m.read (rgbAddr d py px + 2))

/-- The term `tU` of the pixel `(py, px)` (R132). -/
def termUAt (c : FwdRow) (d : Desc) (m : Memory) (py px : Nat) : Int :=
  fwdTermU c (m.read (rgbAddr d py px + 2)) (lumaAt c d m py px)

/-- The term `tV` of the pixel `(py, px)` (R132). -/
def termVAt (c : FwdRow) (d : Desc) (m : Memory) (py px : Nat) : Int :=
  fwdTermV c (m.read (rgbAddr d py px)) (lumaAt c d m py px)

/-- The value of a per-pixel term on the four pixels of a block, decimated (R152). -/
def decimated (mode : ChromaMode) (t : Nat → Nat → Int) (band bx : Nat) : Int :=
  decimate mode (t (2 * band) (2 * bx)) (t (2 * band) (2 * bx + 1)) (t (2 * band + 1) (2 * bx))
    (t (2 * band + 1) (2 * bx + 1))

/-- The offsets that the pixel `(py, px)` shares with its block (R135, R154). -/
def offsetsAt (c : InvRow) (d : Desc) (m : Memory) (py px : Nat) : Offsets :=
  invOffsets c (m.read (uAddr d (py / 2) (px / 2))) (m.read (vAddr d (py / 2) (px / 2)))

/-- The memory a forward command leaves, byte for byte: the stored bytes, as the unsigned integers they are, have the
values of R133 and R152 computed from the memory before, and every other byte of memory is unchanged (R58). -/
structure ForwardEffect (mode : ChromaMode) (i : Instr) (m m' : Memory) : Prop where
  y    : ∀ py px, py < procRows i → px < procCols i →
           ofByte (m'.read (yAddr i.desc py px)) = fwdRerange (lutFwd i.std) (lumaAt (lutFwd i.std) i.desc m py px)
  u    : ∀ band bx, band < bands i → bx < bandBlocks i →
           ofByte (m'.read (uAddr i.desc band bx)) = decimated mode (termUAt (lutFwd i.std) i.desc m) band bx
  v    : ∀ band bx, band < bands i → bx < bandBlocks i →
           ofByte (m'.read (vAddr i.desc band bx)) = decimated mode (termVAt (lutFwd i.std) i.desc m) band bx
  rest : ∀ a, ¬ InWriteSet i a → m'.read a = m.read a

/-- The memory an inverse command leaves, byte for byte: R, G and B of every processed pixel are the clamped sums of R137,
and every other byte of memory is unchanged (R58). -/
structure InverseEffect (i : Instr) (m m' : Memory) : Prop where
  r    : ∀ py px, py < procRows i → px < procCols i →
           ofByte (m'.read (rgbAddr i.desc py px))
             = clamp8 (invLuma (lutInv i.std) (m.read (yAddr i.desc py px))
                 + (offsetsAt (lutInv i.std) i.desc m py px).r)
  g    : ∀ py px, py < procRows i → px < procCols i →
           ofByte (m'.read (rgbAddr i.desc py px + 1))
             = clamp8 (invLuma (lutInv i.std) (m.read (yAddr i.desc py px))
                 - (offsetsAt (lutInv i.std) i.desc m py px).g)
  b    : ∀ py px, py < procRows i → px < procCols i →
           ofByte (m'.read (rgbAddr i.desc py px + 2))
             = clamp8 (invLuma (lutInv i.std) (m.read (yAddr i.desc py px))
                 + (offsetsAt (lutInv i.std) i.desc m py px).b)
  rest : ∀ a, ¬ InWriteSet i a → m'.read a = m.read a

/-! ## The invariant -/

/-- The invariant of the machine: memory has its canonical form and lies in the memory space; BUSY and DONE are never
both 1 (R23); a latched command exists exactly while BUSY (R28); and what is latched is what the ten registers, all
written, hold (R34), a legal command whose preconditions hold (R212) and whose footprints are the block's (R64). -/
structure State.Inv (s : State) : Prop where
  memWf      : Memory.wf s.mem = true
  memInSpace : Memory.inSpace s.mem = true
  notBoth    : ¬ (s.busy = true ∧ s.done = true)
  latched    : s.busy = true ↔ s.latch.isSome = true
  held       : ∀ w, s.latch = some w → s.regs.allWritten = true ∧ s.regs.words = w
  startable  : ∀ w, s.latch = some w → ∃ i, decode Config.hardware w = .ok i
                 ∧ violation Config.hardware i s.backing = none ∧ i ∈ s.owned

/-- What no command changes (R21, R28): the descriptor registers, what the host does, has received and may touch, the
memory of the buffers, and the model's count of free values. -/
structure SameFrame (s t : State) : Prop where
  regs     : t.regs = s.regs
  backing  : t.backing = s.backing
  inputs   : t.inputs = s.inputs
  owned    : t.owned = s.owned
  received : t.received = s.received
  draws    : t.draws = s.draws

/-- The engine has completed and is idle (R213). -/
structure Completed (t : State) : Prop where
  busy  : t.busy = false
  done  : t.done = true
  latch : t.latch = none

end Sys2Proof.Machine
end

