-- ==== Sys2Proof/Certificates/Slice0/Obligations.lean ====
section
/-! DEFINITION. The statements for the provers. Each docstring names the rules of spec/ it rests on. -/

open Sys2Proof Sys2Proof.Machine

/-! ## Encoding and decoding -/

/-- R80 to R83, R85: in every configuration that has the command, its ten words decode to it, for every standard and every
value of the nine operand words. -/
def Obligations.DecodeOfEncodeIsTheCommand : Prop :=
  ∀ (cfg : Config) (i : Instr), i.wellFormed cfg = true → decode cfg (encode i) = .ok i

/-- R81, R82, R85: ten words that decode to a command are that command's encoding, so no other words decode to it. -/
def Obligations.EncodeOfDecodeIsTheWords : Prop :=
  ∀ (cfg : Config) (w : CommandWords) (i : Instr), decode cfg w = .ok i → encode i = w

/-- R82, R85: on this hardware exactly the eighteen words of R82 are legal CMD words. -/
def Obligations.ExactlyEighteenLegalWords : Prop :=
  ∀ w : CommandWords, (∃ i, decode Config.hardware w = .ok i) ↔
    w.cmd ∈ ([0x00, 0x08, 0x10, 0x01, 0x09, 0x11, 0x02, 0x0A, 0x12, 0x03, 0x0B, 0x13,
              0x04, 0x0C, 0x14, 0x05, 0x0D, 0x15] : List Word)

/-- R82: words written out from the bit diagram of R81 decode to the commands they stand for, one of each command, with
every standard among them. -/
def Obligations.SpecWordsDecodeToTheirCommands : Prop :=
  ∀ d : Desc,
    decode Config.hardware ⟨0b00000000000000000000000000001000#32, d⟩ = .ok (.rgb2yuvS .bt601 d) ∧
    decode Config.hardware ⟨0b00000000000000000000000000010001#32, d⟩ = .ok (.yuv2rgbS .bt709 d) ∧
    decode Config.hardware ⟨0b00000000000000000000000000000010#32, d⟩ = .ok (.rgb2yuvVu .fullRange d) ∧
    decode Config.hardware ⟨0b00000000000000000000000000001011#32, d⟩ = .ok (.yuv2rgbVu .bt601 d) ∧
    decode Config.hardware ⟨0b00000000000000000000000000010100#32, d⟩ = .ok (.rgb2yuvVa .bt709 d) ∧
    decode Config.hardware ⟨0b00000000000000000000000000000101#32, d⟩ = .ok (.yuv2rgbVa .fullRange d)

/-- R85, R199: a CMD word with a bit of 31:5 set, with `IMPL` = 3 or with `STD` = 3 is reserved in every configuration, and in
one without `HAS_VECTOR` so is a word with `IMPL` = 1 or 2. -/
def Obligations.ReservedEncodingsAreRefused : Prop :=
  ∀ (cfg : Config) (w : CommandWords),
    (reservedField w.cmd ≠ 0 ∨ implField w.cmd = 3 ∨ stdField w.cmd = 3
        ∨ (cfg.hasVector = false ∧ (implField w.cmd = 1 ∨ implField w.cmd = 2))) →
      ∃ e, decode cfg w = .error e

/-- R21 to R25, R32: CTRL, STATUS, CMD and the nine descriptor registers are at the numbers the tables give, the words of the LUT
window at those of R25's formulas, and nothing is at any other offset. -/
def Obligations.RegisterMapRoundTrip : Prop :=
  (targetOf 0x00 = some .ctrl ∧ targetOf 0x04 = some .status ∧ targetOf 0x08 = some (.reg .cmd) ∧
    targetOf 0x0C = some (.reg .width) ∧ targetOf 0x10 = some (.reg .height) ∧
    targetOf 0x14 = some (.reg .rgbBase) ∧ targetOf 0x18 = some (.reg .rgbStride) ∧
    targetOf 0x1C = some (.reg .yBase) ∧ targetOf 0x20 = some (.reg .uBase) ∧ targetOf 0x24 = some (.reg .vBase) ∧
    targetOf 0x28 = some (.reg .yStride) ∧ targetOf 0x2C = some (.reg .uvStride)) ∧
  (∀ std k, targetOf (0x40 + 0x20 * Std.code std + 4 * FwdField.index k) = some (.lutFwd std k)) ∧
  (∀ std k, targetOf (0xA0 + 0x20 * Std.code std + 4 * InvField.index k) = some (.lutInv std k)) ∧
  (∀ t : RegTarget, targetOf t.offset = some t) ∧
  (∀ (offset : Nat) (t : RegTarget), targetOf offset = some t → t.offset = offset)

/-! ## coefficient_lut -/

/-- R110 to R115: the two tables hold the integers of the spec's tables, and the formulas of the derivation, evaluated in exact
rationals with round-half-up, give exactly these integers for every standard. -/
def Obligations.TablesAreTheDerivedIntegers : Prop :=
  (lutFwd .fullRange = ⟨77, 150, 29, 144, 183, 128, 0⟩ ∧
    lutFwd .bt601 = ⟨77, 150, 29, 127, 160, 110, 16⟩ ∧
    lutFwd .bt709 = ⟨54, 184, 18, 121, 143, 110, 16⟩ ∧
    lutInv .fullRange = ⟨113, 90, 44, 91, 128, 0⟩ ∧
    lutInv .bt601 = ⟨129, 102, 50, 104, 149, 16⟩ ∧
    lutInv .bt709 = ⟨135, 115, 27, 68, 149, 16⟩) ∧
  ∀ std : Std,
    deriveForward (analog std)
      = { rw := ofByte (lutFwd std).rw, gw := ofByte (lutFwd std).gw, bw := ofByte (lutFwd std).bw,
          cbScale := ofByte (lutFwd std).cbScale, crScale := ofByte (lutFwd std).crScale,
          yScale := ofByte (lutFwd std).yScale, yOffset := ofByte (lutFwd std).yOffset } ∧
    deriveInverse (analog std)
      = { cbDescale := ofByte (lutInv std).cbDescale, crDescale := ofByte (lutInv std).crDescale,
          gCb := ofByte (lutInv std).gCb, gCr := ofByte (lutInv std).gCr,
          yScale := ofByte (lutInv std).yScale, yOffset := ofByte (lutInv std).yOffset }

/-- R117: the three luma weights of every standard sum to exactly 256, so that the provisional luma of `R = G = B = v` is `v`. -/
def Obligations.LumaWeightsSumTo256 : Prop :=
  ∀ std : Std, ofByte (lutFwd std).rw + ofByte (lutFwd std).gw + ofByte (lutFwd std).bw = 256 ∧
    ∀ v : Byte, fwdLuma (lutFwd std) v v v = ofByte v

/-- R25, R118, R211: in every state an aligned word read of the LUT window returns the field of the table, zero-extended to 32 bits,
and changes nothing but what the host has received. -/
def Obligations.LutWindowReadsTheTables : Prop :=
  ∀ (s : State) (rest : List HostOp) (std : Std),
    (∀ k : FwdField, s.inputs = .rd (0x40 + 0x20 * std.code + 4 * k.index) 4 :: rest →
      ∃ w : Word, step s = .next { s with inputs := rest, received := .word w :: s.received } ∧
        w.toNat = ((lutFwd std).field k).toNat) ∧
    (∀ k : InvField, s.inputs = .rd (0xA0 + 0x20 * std.code + 4 * k.index) 4 :: rest →
      ∃ w : Word, step s = .next { s with inputs := rest, received := .word w :: s.received } ∧
        w.toNat = ((lutInv std).field k).toNat)

/-! ## fixed_point_color_matrix and the decimation -/

/-- R131 to R134, R139, R141: for every RGB triple the forward values lie in the ranges of R139, per standard: the provisional
luma, the two products (which fit 16 signed bits), the two chroma terms and the stored luma. None is outside [0, 255] where a
byte is stored, so no clamp is needed. -/
def Obligations.ForwardValuesLieInTheirRanges : Prop :=
  ∀ (std : Std) (r g b : Byte),
    let c := lutFwd std
    let yp := fwdLuma c r g b
    let pU := (ofByte b - yp) * ofByte c.cbScale
    let pV := (ofByte r - yp) * ofByte c.crScale
    let tU := fwdTermU c b yp
    let tV := fwdTermV c r yp
    let y := fwdRerange c yp
    0 ≤ yp ∧ yp ≤ 255 ∧
    match std with
    | .fullRange =>
      -32544 ≤ pU ∧ pU ≤ 32688 ∧ -32574 ≤ pV ∧ pV ≤ 32757 ∧
      0 ≤ tU ∧ tU ≤ 255 ∧ 0 ≤ tV ∧ tV ≤ 255 ∧ 0 ≤ y ∧ y ≤ 255
    | .bt601 =>
      -28702 ≤ pU ∧ pU ≤ 28829 ∧ -28480 ≤ pV ∧ pV ≤ 28640 ∧
      15 ≤ tU ∧ tU ≤ 240 ∧ 16 ≤ tV ∧ tV ≤ 239 ∧ 16 ≤ y ∧ y ≤ 235
    | .bt709 =>
      -28677 ≤ pU ∧ pU ≤ 28798 ∧ -28743 ≤ pV ∧ pV ≤ 28886 ∧
      15 ≤ tU ∧ tU ≤ 240 ∧ 15 ≤ tV ∧ tV ≤ 240 ∧ 16 ≤ y ∧ y ≤ 235

/-- R135, R136, R139: for every Y, U and V byte the inverse values lie in the ranges of R139, per standard: the re-ranged luma and
the three offsets. -/
def Obligations.InverseValuesLieInTheirRanges : Prop :=
  ∀ (std : Std) (y u v : Byte),
    let yp := invLuma (lutInv std) y
    let o := invOffsets (lutInv std) u v
    match std with
    | .fullRange =>
      0 ≤ yp ∧ yp ≤ 255 ∧ -226 ≤ o.b ∧ o.b ≤ 224 ∧ -180 ≤ o.r ∧ o.r ≤ 178 ∧ -135 ≤ o.g ∧ o.g ≤ 133
    | .bt601 =>
      -19 ≤ yp ∧ yp ≤ 278 ∧ -258 ≤ o.b ∧ o.b ≤ 255 ∧ -204 ≤ o.r ∧ o.r ≤ 202 ∧ -154 ≤ o.g ∧ o.g ≤ 152
    | .bt709 =>
      -19 ≤ yp ∧ yp ≤ 278 ∧ -270 ≤ o.b ∧ o.b ≤ 267 ∧ -230 ≤ o.r ∧ o.r ≤ 228 ∧ -95 ≤ o.g ∧ o.g ≤ 94

/-- R138: `clamp8` by its three cases, and its argument fits 16 signed bits: over all inputs and standards it lies in
[-289, 545]. -/
def Obligations.ClampSaturatesAndItsArgumentFits : Prop :=
  (∀ a : Int, (a < 0 → clamp8 a = 0) ∧ (255 < a → clamp8 a = 255) ∧ (0 ≤ a → a ≤ 255 → clamp8 a = a)) ∧
  (∀ (std : Std) (y u v : Byte) (x : Int),
    (x = invLuma (lutInv std) y + (invOffsets (lutInv std) u v).r ∨
      x = invLuma (lutInv std) y - (invOffsets (lutInv std) u v).g ∨
      x = invLuma (lutInv std) y + (invOffsets (lutInv std) u v).b) → -289 ≤ x ∧ x ≤ 545)

/-- R140: a grey pixel has its own value as provisional luma and no chroma, for every standard, so that a block of equal grey
pixels gives U = V = 128; and U = V = 128 gives R = G = B = `clamp8(Yp)`. -/
def Obligations.GreyHasNoChroma : Prop :=
  (∀ (std : Std) (g : Byte),
    fwdLuma (lutFwd std) g g g = ofByte g ∧
    fwdTermU (lutFwd std) g (ofByte g) = 128 ∧
    fwdTermV (lutFwd std) g (ofByte g) = 128) ∧
  (∀ (std : Std) (g : Byte),
    let p := fwdPixel (lutFwd std) g g g
    chromaDecimate p.tU p.tU p.tU p.tU = 128 ∧ chromaDecimate p.tV p.tV p.tV p.tV = 128) ∧
  (∀ (std : Std) (y : Byte),
    let yp := invLuma (lutInv std) y
    let o := invOffsets (lutInv std) 128 128
    ofByte (invRed yp o) = clamp8 yp ∧ ofByte (invGreen yp o) = clamp8 yp ∧ ofByte (invBlue yp o) = clamp8 yp)

/-- R152: the decimation is the floor of the mean of the four terms; adding 128 before or after it gives the same; of terms in
[0, 255] the sum lies in [0, 1020] and the result in [0, 255]; four equal terms give that term; and R152's corner cases and
examples. -/
def Obligations.DecimationIsTheTruncatedMean : Prop :=
  (∀ t0 t1 t2 t3 : Int,
    chromaDecimate t0 t1 t2 t3 = (t0 + t1 + t2 + t3) / 4 ∧
    chromaDecimate t0 t1 t2 t3 = 128 + ((t0 - 128) + (t1 - 128) + (t2 - 128) + (t3 - 128)) / 4 ∧
    (0 ≤ t0 → t0 ≤ 255 → 0 ≤ t1 → t1 ≤ 255 → 0 ≤ t2 → t2 ≤ 255 → 0 ≤ t3 → t3 ≤ 255 →
      0 ≤ t0 + t1 + t2 + t3 ∧ t0 + t1 + t2 + t3 ≤ 1020 ∧
      0 ≤ chromaDecimate t0 t1 t2 t3 ∧ chromaDecimate t0 t1 t2 t3 ≤ 255)) ∧
  (∀ t : Int, chromaDecimate t t t t = t) ∧
  chromaDecimate 1 0 0 0 = 0 ∧ chromaDecimate 255 255 255 254 = 254 ∧
  chromaDecimate 239 34 110 128 = 127 ∧ chromaDecimate 90 54 240 128 = 128

/-- R158: the two pairwise alternatives, by their averages; both are never below the truncating sum, and they differ from it and
from each other on R158's own examples. -/
def Obligations.PairwiseAveragesNeverFallBelow : Prop :=
  (∀ a b : Int, avg a b = (a + b + 1) / 2) ∧
  (∀ tl tr bl br : Int,
    decimate .pairwiseHFirst tl tr bl br = avg (avg tl tr) (avg bl br) ∧
    decimate .pairwiseVFirst tl tr bl br = avg (avg tl bl) (avg tr br) ∧
    decimate .truncSum tl tr bl br ≤ decimate .pairwiseHFirst tl tr bl br ∧
    decimate .truncSum tl tr bl br ≤ decimate .pairwiseVFirst tl tr bl br) ∧
  (decimate .truncSum 1 0 3 0 = 1 ∧ decimate .pairwiseHFirst 1 0 3 0 = 2 ∧ decimate .pairwiseVFirst 1 0 3 0 = 1) ∧
  (decimate .truncSum 1 0 0 0 = 0 ∧ decimate .pairwiseHFirst 1 0 0 0 = 1 ∧ decimate .pairwiseVFirst 1 0 0 0 = 1) ∧
  (decimate .truncSum 239 34 110 128 = 127 ∧ decimate .pairwiseHFirst 239 34 110 128 = 128 ∧
    decimate .pairwiseVFirst 239 34 110 128 = 128)

/-! ## What a command needs and what it does -/

/-- R56, R59, R60, R63, R73, R74, R189, R199, R226: the check of a command's preconditions passes exactly when none of U1 to U5, U9
and U14 holds of it, each said of the address sets of R57 as its rule says it (U1: each set in the memory of its own buffer), and its
dimensions are below 2^`DIM_BITS`, which refuses nothing at this hardware's 32 and is the model's reading of R74 elsewhere
(notes/assumptions/11.md). -/
def Obligations.PreconditionCheckIsTheRules : Prop :=
  ∀ (cfg : Config) (i : Instr) (b : Backing), violation cfg i b = none ↔ CommandLegal cfg b i

/-- R226, R229: a command whose preconditions hold completes, with the descriptor registers and everything else that is no
memory as they were; one whose preconditions do not hold has no step, and none faults. -/
def Obligations.CommandsCompleteExactlyWhenLegal : Prop :=
  ∀ (i : Instr) (s : State),
    (Legal i s → ∃ t, exec i s = .next t ∧ Completed t ∧ SameFrame s t) ∧
    (¬ Legal i s → ∃ r, exec i s = .refused r)

/-- R170: `RGB2YUV.S` (`rgb2yuvS`), for every standard and descriptor: its CMD word; and when its preconditions hold it completes,
every processed Y, U and V byte having the value of R133 and R152, every other byte of memory and every register unchanged, with
DONE = 1. -/
def Obligations.ScalarForwardWritesItsResult : Prop :=
  ∀ (std : Std) (d : Desc) (s : State),
    (encode (.rgb2yuvS std d)).cmd = BitVec.ofNat 32 (0x00 + 8 * std.code) ∧
    (Memory.wf s.mem = true → Legal (.rgb2yuvS std d) s →
      ∃ t, exec (.rgb2yuvS std d) s = .next t ∧ ForwardEffect .truncSum (.rgb2yuvS std d) s.mem t.mem ∧
        Completed t ∧ SameFrame s t)

/-- R171: `YUV2RGB.S` (`yuv2rgbS`), for every standard and descriptor: its CMD word; and when its preconditions hold it completes,
R, G and B of every processed pixel having the value of R137, every other byte of memory and every register unchanged, with
DONE = 1. -/
def Obligations.ScalarInverseWritesItsResult : Prop :=
  ∀ (std : Std) (d : Desc) (s : State),
    (encode (.yuv2rgbS std d)).cmd = BitVec.ofNat 32 (0x01 + 8 * std.code) ∧
    (Memory.wf s.mem = true → Legal (.yuv2rgbS std d) s →
      ∃ t, exec (.yuv2rgbS std d) s = .next t ∧ InverseEffect (.yuv2rgbS std d) s.mem t.mem ∧
        Completed t ∧ SameFrame s t)

/-- R191, R192: `RGB2YUV.VU` (`rgb2yuvVu`) and `RGB2YUV.VA` (`rgb2yuvVa`), for every standard and descriptor: the CMD words; and
when the preconditions hold the command completes, the bytes of its 32-column groups having the values of R133 and R152, every
other byte of memory (the tail columns among them) and every register unchanged, with DONE = 1. -/
def Obligations.VectorForwardWritesItsResult : Prop :=
  ∀ (std : Std) (d : Desc) (s : State),
    (encode (.rgb2yuvVu std d)).cmd = BitVec.ofNat 32 (0x02 + 8 * std.code) ∧
    (encode (.rgb2yuvVa std d)).cmd = BitVec.ofNat 32 (0x04 + 8 * std.code) ∧
    (Memory.wf s.mem = true → Legal (.rgb2yuvVu std d) s →
      ∃ t, exec (.rgb2yuvVu std d) s = .next t ∧ ForwardEffect .truncSum (.rgb2yuvVu std d) s.mem t.mem ∧
        Completed t ∧ SameFrame s t) ∧
    (Memory.wf s.mem = true → Legal (.rgb2yuvVa std d) s →
      ∃ t, exec (.rgb2yuvVa std d) s = .next t ∧ ForwardEffect .truncSum (.rgb2yuvVa std d) s.mem t.mem ∧
        Completed t ∧ SameFrame s t)

/-- R193, R194: `YUV2RGB.VU` (`yuv2rgbVu`) and `YUV2RGB.VA` (`yuv2rgbVa`), for every standard and descriptor: the CMD words; and
when the preconditions hold the command completes, R, G and B of the pixels of its 32-column groups having the values of R137,
every other byte of memory (the tail columns among them) and every register unchanged, with DONE = 1. -/
def Obligations.VectorInverseWritesItsResult : Prop :=
  ∀ (std : Std) (d : Desc) (s : State),
    (encode (.yuv2rgbVu std d)).cmd = BitVec.ofNat 32 (0x03 + 8 * std.code) ∧
    (encode (.yuv2rgbVa std d)).cmd = BitVec.ofNat 32 (0x05 + 8 * std.code) ∧
    (Memory.wf s.mem = true → Legal (.yuv2rgbVu std d) s →
      ∃ t, exec (.yuv2rgbVu std d) s = .next t ∧ InverseEffect (.yuv2rgbVu std d) s.mem t.mem ∧
        Completed t ∧ SameFrame s t) ∧
    (Memory.wf s.mem = true → Legal (.yuv2rgbVa std d) s →
      ∃ t, exec (.yuv2rgbVa std d) s = .next t ∧ InverseEffect (.yuv2rgbVa std d) s.mem t.mem ∧
        Completed t ∧ SameFrame s t)

/-- R57, R58: whatever command completes, every byte of memory outside its write footprint reads as before, every byte of its read
footprint among them. -/
def Obligations.OnlyTheWriteFootprintChanges : Prop :=
  ∀ (i : Instr) (s t : State), Memory.wf s.mem = true → exec i s = .next t →
    (∀ a, ¬ InWriteSet i a → t.mem.read a = s.mem.read a) ∧
    (∀ a, InReadSet i a → t.mem.read a = s.mem.read a)

/-- R4, R58, R65 (a): the bytes a command writes depend only on its words and on the bytes of its read footprint, whatever else the
two states hold. -/
def Obligations.CommandDependsOnlyOnItsInputBytes : Prop :=
  ∀ (i : Instr) (s1 s2 t1 t2 : State), Memory.wf s1.mem = true → Memory.wf s2.mem = true →
    exec i s1 = .next t1 → exec i s2 = .next t2 →
    (∀ a, InReadSet i a → s1.mem.read a = s2.mem.read a) →
    ∀ a, InWriteSet i a → t1.mem.read a = t2.mem.read a

/-- R62: run again with the same descriptor and unchanged input buffers, a command writes the same bytes. -/
def Obligations.CommandIsIdempotent : Prop :=
  ∀ (i : Instr) (s t : State), Memory.wf s.mem = true → exec i s = .next t →
    ∃ u, exec i t = .next u ∧ u.mem = t.mem

/-- R65 (d, e), R234, R257: two commands whose write footprints meet no footprint of the other leave the same memory in either
order. -/
def Obligations.DisjointCommandsCommute : Prop :=
  ∀ (i j : Instr) (s : State), Memory.wf s.mem = true → Legal i s → Legal j s →
    (∀ a, InWriteSet i a → ¬ InFootprint j a) → (∀ a, InWriteSet j a → ¬ InFootprint i a) →
    ∃ t u, execSeq [i, j] s = .next t ∧ execSeq [j, i] s = .next u ∧ t.mem = u.mem

/-- R85, R150, R213: a command on an image that is too small for a block touches no memory and completes. -/
def Obligations.CommandWithoutBlocksTouchesNothing : Prop :=
  ∀ (i : Instr) (s : State), Legal i s →
    (cmdHeight i < 2 ∨ cmdWidth i < 2 ∨ (i.impl.isVector = true ∧ cmdWidth i < 32)) →
    exec i s = .next { s with busy := false, done := true, latch := none }

/-- R60: an aligned command's 16-byte accesses are all at multiples of 16 exactly when the four bases and the RGB and Y strides are
multiples of 16 and, from two bands on, the UV stride is, where it touches memory; where it touches none there is nothing to align.
A misaligned aligned command whose strides are sufficient is refused, under the name of that precondition even where a later one
fails too, which is the model's order (notes/assumptions/9.md), and the others have no alignment precondition. -/
def Obligations.AlignmentIsThatOfBasesAndStrides : Prop :=
  (∀ d : Desc, 2 ≤ d.height.toNat → 32 ≤ d.width.toNat →
    ((∀ a ∈ vectorAccesses d, a % 16 = 0) ↔
      d.rgbBase.toNat % 16 = 0 ∧ d.yBase.toNat % 16 = 0 ∧ d.uBase.toNat % 16 = 0 ∧ d.vBase.toNat % 16 = 0 ∧
      d.rgbStride.toNat % 16 = 0 ∧ d.yStride.toNat % 16 = 0 ∧
      (2 ≤ d.height.toNat / 2 → d.uvStride.toNat % 16 = 0))) ∧
  (∀ d : Desc, (d.height.toNat < 2 ∨ d.width.toNat < 32) → vectorAccesses d = []) ∧
  (∀ (i : Instr) (s : State), i.impl = .vecAligned → stridesOk i = true →
    (∃ a ∈ vectorAccesses i.desc, a % 16 ≠ 0) → exec i s = .refused .misaligned) ∧
  (∀ i : Instr, i.impl ≠ .vecAligned → alignedOk i = true)

/-- R61: the 16-byte accesses of a vector command cover exactly its footprint, no byte more. -/
def Obligations.VectorAccessesCoverTheFootprint : Prop :=
  ∀ i : Instr, i.impl.isVector = true →
    ∀ a, InFootprint i a ↔ ∃ b ∈ vectorAccesses i.desc, b ≤ a ∧ a < b + 16

/-- R190: the equivalence contract. A legal vector command is the scalar command of its direction on a width of
`32*floor(W/32)`; where the scalar command on the full width is legal too, both write the same value at every byte of the vector
command's write footprint, and the vector command no other byte; a legal aligned command is the unaligned one; and for a multiple of 32 the three are one. -/
def Obligations.VectorCommandsEqualTheScalarOnes : Prop :=
  ∀ (dir : Dir) (std : Std) (d : Desc) (s : State),
    (∀ impl, Impl.isVector impl = true → Legal (Instr.ofParts dir impl std d) s →
      exec (Instr.ofParts dir impl std d) s
        = exec (Instr.ofParts dir .scalar std { d with width := BitVec.ofNat 32 (fullGroups d) }) s) ∧
    (∀ impl, Impl.isVector impl = true → Memory.wf s.mem = true →
      Legal (Instr.ofParts dir impl std d) s → Legal (Instr.ofParts dir .scalar std d) s →
      ∃ t u, exec (Instr.ofParts dir impl std d) s = .next t ∧
        exec (Instr.ofParts dir .scalar std d) s = .next u ∧
        (∀ a, InWriteSet (Instr.ofParts dir impl std d) a → t.mem.read a = u.mem.read a) ∧
        (∀ a, ¬ InWriteSet (Instr.ofParts dir impl std d) a → t.mem.read a = s.mem.read a)) ∧
    (Legal (Instr.ofParts dir .vecAligned std d) s →
      exec (Instr.ofParts dir .vecAligned std d) s = exec (Instr.ofParts dir .vecUnaligned std d) s) ∧
    (d.width.toNat % 32 = 0 → Legal (Instr.ofParts dir .vecAligned std d) s →
      exec (Instr.ofParts dir .vecAligned std d) s = exec (Instr.ofParts dir .scalar std d) s ∧
      exec (Instr.ofParts dir .vecUnaligned std d) s = exec (Instr.ofParts dir .scalar std d) s)

/-- R156, R235, the bases in 32-bit registers (notes/assumptions/18.md): split at an even row, in either order, a legal command leaves the memory that the whole leaves. -/
def Obligations.RowSplitLeavesTheSameMemory : Prop :=
  ∀ (i : Instr) (s : State) (h1 : Nat), Memory.wf s.mem = true → Legal i s → h1 % 2 = 0 → h1 ≤ cmdHeight i →
    let top := Instr.withDesc i (Desc.rowShard i.desc 0 h1)
    let low := Instr.withDesc i (Desc.rowShard i.desc h1 (cmdHeight i - h1))
    ∃ t u v, exec i s = .next t ∧ execSeq [top, low] s = .next u ∧ execSeq [low, top] s = .next v ∧
      u.mem = t.mem ∧ v.mem = t.mem

/-- R156, R235, the bases in 32-bit registers (notes/assumptions/18.md): split at an even column (a multiple of 32 for a vector command), in either order, a legal command leaves the memory
that the whole leaves. -/
def Obligations.ColumnSplitLeavesTheSameMemory : Prop :=
  ∀ (i : Instr) (s : State) (w1 : Nat), Memory.wf s.mem = true → Legal i s → w1 % 2 = 0 → w1 ≤ cmdWidth i →
    (i.impl.isVector = true → w1 % 32 = 0) →
    let left := Instr.withDesc i (Desc.colShard i.desc 0 w1)
    let right := Instr.withDesc i (Desc.colShard i.desc w1 (cmdWidth i - w1))
    ∃ t u v, exec i s = .next t ∧ execSeq [left, right] s = .next u ∧ execSeq [right, left] s = .next v ∧
      u.mem = t.mem ∧ v.mem = t.mem

/-- R88, the bases of the second command in 32-bit registers (notes/assumptions/18.md): `.VX`, the vector command and the scalar command on the remainder, leaves the memory that the single scalar command on the
full width leaves. -/
def Obligations.VxIsTheScalarCommand : Prop :=
  ∀ (dir : Dir) (impl : Impl) (std : Std) (d : Desc) (s : State), Impl.isVector impl = true →
    Memory.wf s.mem = true → Legal (Instr.ofParts dir impl std d) s → Legal (Instr.ofParts dir .scalar std d) s →
    ∃ t u, execSeq (expandVx dir impl std d) s = .next t ∧ exec (Instr.ofParts dir .scalar std d) s = .next u ∧
      t.mem = u.mem

/-! ## The parameters of R8 -/

/-- R197: this hardware decimates by the truncating sum; `VEC_CHROMA_MODE` changes only the U and V bytes of the
forward vector commands: under any two configurations that both run a command, the states they leave differ in memory alone, every
byte outside the U and V sets of a forward vector command is the same, and a scalar or inverse command gives the same state; and the U and V bytes of a forward vector command are those of the configuration's decimation. -/
def Obligations.ChromaModeTouchesOnlyForwardVectorChroma : Prop :=
  Config.hardware.vecChroma = .truncSum ∧
  (∀ (cfg cfg' : Config) (i : Instr) (s t u : State), Memory.wf s.mem = true →
    execIn cfg i s = .next t → execIn cfg' i s = .next u →
    t = { u with mem := t.mem } ∧
    (i.dir = .inverse ∨ i.impl = .scalar → t = u) ∧
    (∀ a, (i.dir = .forward ∧ (InUSet i a ∨ InVSet i a)) ∨ t.mem.read a = u.mem.read a)) ∧
  (∀ (cfg : Config) (i : Instr) (s t : State), Memory.wf s.mem = true → i.dir = .forward →
    i.impl.isVector = true → execIn cfg i s = .next t → ForwardEffect cfg.vecChroma i s.mem t.mem)

/-- R189: under `VEC_TAIL_POLICY = REFUSE` a vector command whose width is not a multiple of 32 is refused, and nothing else
changes: any other command does what it does under `DROP`. -/
def Obligations.RefusingTheTailChangesNothingElse : Prop :=
  ∀ (cfg : Config) (i : Instr) (s : State), i.wellFormed cfg = true →
    let dropping := { cfg with vecTail := TailPolicy.drop }
    let refusing := { cfg with vecTail := TailPolicy.refuse }
    (i.impl.isVector = true → cmdWidth i % 32 ≠ 0 → ∃ r, execIn refusing i s = .refused r) ∧
    ((i.impl.isVector = false ∨ cmdWidth i % 32 = 0) → execIn refusing i s = execIn dropping i s)

/-- R232: this hardware has no debug assertions. `DEBUG_ASSERT` = on may stop a START, but never changes what a START does that it lets
through, and it lets through (notes/assumptions/12.md) every START of a legal command with even dimensions (and, for a vector command, a width that is a
multiple of 32). -/
def Obligations.DebugAssertionsChangeNoResult : Prop :=
  Config.hardware.debugAssert = false ∧
  ∀ (s : State),
    let on := { Config.hardware with debugAssert := true }
    (startOp on s = .fault .debugAssertion ∨ startOp on s = startOp Config.hardware s) ∧
    (∀ i, decode Config.hardware s.regs.words = .ok i → Legal i s → cmdWidth i % 2 = 0 → cmdHeight i % 2 = 0 →
      (i.impl.isVector = true → cmdWidth i % 32 = 0) → startOp on s = startOp Config.hardware s)

/-! ## Lane operations -/

/-- R181 to R187, R200: the lane operations, lane by lane: zero-extending widening, the low 16 bits of the product, wrapping sum and
difference, the floor shift of the signed reading and the shift of the unsigned reading, the saturating pack, the unsigned average
that rounds halves up, and the sum of adjacent lanes. The low half of the product and the rounding of the average are the spec's from
general knowledge (notes/assumptions/15.md). -/
def Obligations.LaneOperationsAreLanewise : Prop :=
  (∀ (n : Nat) (a b : Vector Half n) (k i : Nat) (h : i < n),
    (mullo16 a b)[i].toNat = a[i].toNat * b[i].toNat % 2 ^ 16 ∧
    (add16 a b)[i].toNat = (a[i].toNat + b[i].toNat) % 2 ^ 16 ∧
    (((sub16 a b)[i].toNat : Int) = ((a[i].toNat : Int) - b[i].toNat) % 2 ^ 16) ∧
    (sra16 a k)[i].toInt = asr a[i].toInt k ∧
    (srl16 a k)[i].toNat = a[i].toNat / 2 ^ k) ∧
  (∀ (v : Vector Byte 16) (i : Nat) (h : i < 8),
    (widenLo v)[i].toNat = v[i].toNat ∧ (widenHi v)[i].toNat = v[8 + i].toNat) ∧
  (∀ (a b : Vector Half 8) (i : Nat) (h : i < 8),
    ofByte (packus a b)[i] = clamp8 a[i].toInt ∧ ofByte (packus a b)[8 + i] = clamp8 b[i].toInt) ∧
  (∀ (a b : Vector Byte 16) (i : Nat) (h : i < 16),
    (avgu8 a b)[i].toNat = (a[i].toNat + b[i].toNat + 1) / 2) ∧
  (∀ (m : Nat) (a : Vector Half (2 * m)) (j : Nat) (h : j < m),
    (pairsum16 a)[j].toNat = (a[2 * j].toNat + a[2 * j + 1].toNat) % 2 ^ 16)

/-- R188: the shuffles move the channels as R188 says, each is the inverse of the other, so they change no value. -/
def Obligations.ShufflesAreInverse : Prop :=
  (∀ (v : Vector Byte 96) (i : Nat) (h : i < 32),
    (deinterleave3 v).r[i] = v[3 * i] ∧ (deinterleave3 v).g[i] = v[3 * i + 1] ∧
    (deinterleave3 v).b[i] = v[3 * i + 2]) ∧
  (∀ (p : Planar) (i : Nat) (h : i < 32),
    (interleave3 p)[3 * i] = p.r[i] ∧ (interleave3 p)[3 * i + 1] = p.g[i] ∧ (interleave3 p)[3 * i + 2] = p.b[i]) ∧
  (∀ v : Vector Byte 96, interleave3 (deinterleave3 v) = v) ∧
  (∀ p : Planar, deinterleave3 (interleave3 p) = p)

/-- R195: the lane-level decomposition of a forward vector block stores exactly the cells of its sixteen blocks. That `MULLO16` keeps
the low half of the product is the spec's from general knowledge (R182, notes/assumptions/15.md). -/
def Obligations.ForwardLanesStoreTheBlocks : Prop :=
  ∀ (std : Std) (d : Desc) (m : Memory) (band k : Nat) (c : Host.Cell),
    c ∈ fwdVectorBlock (lutFwd std) d m band k ↔
      ∃ j, j < 16 ∧ c ∈ fwdBlock .truncSum (lutFwd std) d m band (16 * k + j)

/-- R196: the lane-level decomposition of an inverse vector block, with its luma in an 18-bit lane, stores exactly the cells of its
sixteen blocks. The low half of `MULLO16` is the spec's from general knowledge (R182, notes/assumptions/15.md), and the width 18 is
the model's, deduced from R196's "at least 18" (notes/assumptions/16.md). -/
def Obligations.InverseLanesStoreTheBlocks : Prop :=
  ∀ (std : Std) (d : Desc) (m : Memory) (band k : Nat) (c : Host.Cell),
    c ∈ invVectorBlock (lutInv std) d m band k ↔
      ∃ j, j < 16 ∧ c ∈ invBlock (lutInv std) d m band (16 * k + j)

/-! ## The registers and the host -/

/-- R210, R23, R34: `WR`. While the block is idle a write to CMD or a descriptor register stores all 32 bits in it and starts nothing,
every other register, the status, the latch and memory being unchanged; while BUSY such a write, and START, are refused. BUSY or not,
a write to STATUS or to the LUT window and a write of 0 to CTRL have no effect, and a write to CTRL with a bit of 31:1 set is
refused. -/
def Obligations.WriteDoesWhatItsRegisterSays : Prop :=
  ∀ (s : State) (rest : List HostOp) (v : Word),
    (∀ r : RegName, s.inputs = .wr r.offset 4 v :: rest →
      (s.busy = false → ∃ f, step s = .next { s with inputs := rest, regs := f } ∧
        f.get r = { value := v, written := true } ∧ ∀ q, q ≠ r → f.get q = s.regs.get q) ∧
      (s.busy = true → step s = .refused .busy)) ∧
    (s.busy = true → s.inputs = HostOp.start :: rest → step s = .refused .busy) ∧
    (s.inputs = .wr 0x04 4 v :: rest → step s = .next { s with inputs := rest }) ∧
    (∀ std k, s.inputs = .wr (RegTarget.lutFwd std k).offset 4 v :: rest → step s = .next { s with inputs := rest }) ∧
    (∀ std k, s.inputs = .wr (RegTarget.lutInv std k).offset 4 v :: rest → step s = .next { s with inputs := rest }) ∧
    (s.inputs = .wr 0x00 4 0 :: rest → step s = .next { s with inputs := rest }) ∧
    (s.inputs = .wr 0x00 4 v :: rest → 2 ≤ v.toNat → step s = .refused .reservedCtrlBits)

/-- R211, R35, R23: `RD`, while BUSY or not, returns 0 for CTRL, `BUSY | (DONE << 1)` for STATUS, the last value written for a written
register, some value for one not written since reset, and changes nothing but what the host has received (and the model's count of
free values). A STATUS that reads DONE = 1 ends the block's ownership of the footprints (R64, R252; the list `owned` and
when it is emptied are the model's, notes/assumptions/10.md). -/
def Obligations.ReadReturnsTheRegister : Prop :=
  ∀ (s : State) (rest : List HostOp),
    (s.inputs = .rd 0x00 4 :: rest →
      step s = .next { s with inputs := rest, received := .word 0 :: s.received }) ∧
    (s.inputs = .rd 0x04 4 :: rest →
      ∃ w : Word, step s = .next { s with inputs := rest, received := .word w :: s.received,
                                          owned := if s.done then [] else s.owned } ∧
        w.toNat = (if s.busy then 1 else 0) + 2 * (if s.done then 1 else 0)) ∧
    (∀ r : RegName, s.inputs = .rd r.offset 4 :: rest → (s.regs.get r).written = true →
      step s = .next { s with inputs := rest, received := .word (s.regs.get r).value :: s.received }) ∧
    (∀ r : RegName, s.inputs = .rd r.offset 4 :: rest → (s.regs.get r).written = false →
      ∃ (w : Word) (n : Nat),
        step s = .next { s with inputs := rest, received := .word w :: s.received, draws := n })

/-- R32: an access that is not an aligned 32-bit word, and an access to a reserved offset, is refused; the reserved aligned offsets
below 0x100 are exactly 0x30 to 0x3C and the unused words of the LUT rows, and those from 0x100 on are taken as reserved
(notes/assumptions/19.md). -/
def Obligations.ReservedAccessesAreRefused : Prop :=
  (∀ (s : State) (rest : List HostOp) (offset bytes : Nat) (v : Word), (bytes ≠ 4 ∨ offset % 4 ≠ 0) →
    (s.inputs = .wr offset bytes v :: rest → step s = .refused .notAnAlignedWord) ∧
    (s.inputs = .rd offset bytes :: rest → step s = .refused .notAnAlignedWord)) ∧
  (∀ (s : State) (rest : List HostOp) (offset : Nat) (v : Word), offset % 4 = 0 → targetOf offset = none →
    (s.inputs = .wr offset 4 v :: rest → step s = .refused .reservedOffset) ∧
    (s.inputs = .rd offset 4 :: rest → step s = .refused .reservedOffset)) ∧
  (∀ offset : Nat, offset < 0x100 → offset % 4 = 0 →
    (targetOf offset = none ↔
      offset ∈ [0x30, 0x34, 0x38, 0x3C, 0x5C, 0x7C, 0x9C, 0xB8, 0xBC, 0xD8, 0xDC, 0xF8, 0xFC])) ∧
  (∀ offset : Nat, 0x100 ≤ offset → targetOf offset = none)

/-- R212: a START of an idle block whose ten registers are written and hold a command whose preconditions hold latches the ten words,
clears DONE, sets BUSY and makes the command's footprints the block's (R64; the list `owned` is the model's,
notes/assumptions/10.md); registers, memory and everything else are unchanged. -/
def Obligations.StartLatchesTheCommand : Prop :=
  ∀ (s : State) (rest : List HostOp) (i : Instr), s.inputs = HostOp.start :: rest → s.busy = false →
    s.regs.allWritten = true → s.regs.words = encode i → Legal i s →
    step s = .next { s with inputs := rest, done := false, busy := true, latch := some (encode i),
                            owned := i :: s.owned }

/-- R31, R85, R212, R226: a START of an idle block has no meaning when a register has not been written since reset (U8), when the CMD
written is reserved (U6), or when a precondition of the command fails. -/
def Obligations.StartWithoutMeaningIsRefused : Prop :=
  ∀ (s : State) (rest : List HostOp), s.inputs = HostOp.start :: rest → s.busy = false →
    (∀ r, (s.regs.get r).written = false → step s = .refused .descriptorNotWritten) ∧
    (s.regs.allWritten = true → ∀ e, decode Config.hardware s.regs.words = .error e →
      step s = .refused (.reservedCommand e)) ∧
    (s.regs.allWritten = true → ∀ i, decode Config.hardware s.regs.words = .ok i → ¬ Legal i s →
      ∃ r, step s = .refused r)

/-- R29, R64, R252: other agents and memory. From START until DONE has been observed a store into either footprint of the command and a
load of its write footprint are refused; any other store or load of a byte of the memory space takes effect, a load of the read
footprint among them. That the interval is the list `owned`, and that every address of the space is memory for other agents, is the
model's (notes/assumptions/10.md, 20.md). -/
def Obligations.OthersKeepOffTheFootprints : Prop :=
  ∀ (s : State) (rest : List HostOp) (a : Nat) (v : Byte), a < 2 ^ 32 →
    (s.inputs = .memWrite a v :: rest →
      ((∀ i ∈ s.owned, ¬ InFootprint i a) → step s = .next { s with inputs := rest, mem := s.mem.write a v }) ∧
      (∀ i ∈ s.owned, InFootprint i a → step s = .refused .footprintContended)) ∧
    (s.inputs = .memRead a :: rest →
      ((∀ i ∈ s.owned, ¬ InWriteSet i a) →
        step s = .next { s with inputs := rest, received := .byte (s.mem.read a) :: s.received }) ∧
      (∀ i ∈ s.owned, InWriteSet i a → step s = .refused .footprintContended))

/-- R214, R252: `WAIT` polls for DONE: on a block that has completed it ends, and the host has observed DONE; on an idle block that has
completed nothing since reset it never ends; and on a BUSY block it is still there after the step in which the command completes. The two steps and
the observation are the model's (notes/assumptions/7.md, 10.md). -/
def Obligations.WaitPollsForDone : Prop :=
  ∀ (s : State) (rest : List HostOp), s.inputs = .wait :: rest →
    (s.busy = false → s.done = true → step s = .next { s with inputs := rest, owned := [] }) ∧
    (s.busy = false → s.done = false → ∀ n, Host.Core.run core n s = .next s) ∧
    (s.busy = true → ∀ t, step s = .next t → t.inputs = .wait :: rest ∧ Completed t)

/-! ## Steps -/

/-- R26, R69, R213, and the model's own interleaving (notes/assumptions/5.md, 7.md): when a block that is BUSY has latched ten words
that decode to a command, the engine's turn is that command. -/
def Obligations.StepRunsTheLatchedCommand : Prop :=
  ∀ (s : State) (w : CommandWords) (i : Instr), s.busy = true → s.latch = some w →
    decode Config.hardware w = .ok i →
    (s.inputs = [] → step s = exec i s) ∧
    (∀ rest, s.inputs = .finish :: rest → step s = exec i { s with inputs := rest }) ∧
    (∀ rest, s.inputs = .wait :: rest → step s = exec i s)

/-- The model's own placement (notes/assumptions/8.md): after `withFetchWord` the next step runs the command that the decoder reads from
the placed bits. -/
def Obligations.PlacedWordRunsNext : Prop :=
  ∀ (s : State) (nbits w : Nat) (i : Instr), decodeTableWord nbits w = some i →
    step (s.withFetchWord nbits w)
      = exec i { s with regs := RegFile.ofWords (tableWords nbits w), busy := true, done := false,
                        latch := some (tableWords nbits w), owned := i :: s.owned }

/-- R245: reset of an idle block: idle, nothing completed, no register written, nothing latched; memory is unchanged (R31). That the host's list,
what it has received and the backing stay, and that `owned` is emptied, is the model's (notes/assumptions/14.md). -/
def Obligations.ResetOfAnIdleBlock : Prop :=
  ∀ (s : State) (rest : List HostOp), s.inputs = .reset :: rest → s.busy = false →
    ∃ f : RegFile, step s = .next { s with inputs := rest, regs := f, busy := false, done := false, latch := none,
                                           owned := [] } ∧
      ∀ r, (f.get r).written = false

/-- R246: reset while a command is running: the command is abandoned, registers and status take their reset values, every byte of memory
outside its write footprint is unchanged, and nothing is said of the bytes inside it. The host's list and what it has
received stay, and `owned` is emptied, by the model's choice (notes/assumptions/14.md). -/
def Obligations.ResetOfARunningBlock : Prop :=
  ∀ (s : State) (rest : List HostOp) (i : Instr), Memory.wf s.mem = true → s.inputs = .reset :: rest →
    s.running = some i →
    ∃ t, step s = .next t ∧ t.busy = false ∧ t.done = false ∧ t.latch = none ∧ t.owned = [] ∧
      t.inputs = rest ∧ t.received = s.received ∧ t.backing = s.backing ∧ (∀ r, (t.regs.get r).written = false) ∧
      ∀ a, ¬ InWriteSet i a → t.mem.read a = s.mem.read a

/-- The invariant holds at reset: R31, and the model's empty memory (notes/assumptions/3.md). -/
def Obligations.InvariantHoldsAtReset : Prop := State.reset.Inv

/-- R23, R28, R34, R50, R64, R212: every step keeps the invariant, from every state that meets it: memory in its canonical form inside
the memory space, BUSY and DONE never both 1, a latch exactly while BUSY, holding what the ten written registers hold, a legal command
whose preconditions hold and whose footprints are the block's. -/
def Obligations.EveryStepKeepsTheInvariant : Prop :=
  ∀ s t : State, s.Inv → step s = .next t → t.Inv

/-- R225: no step faults. -/
def Obligations.NoStepFaults : Prop :=
  ∀ (s : State) (f : Fault), step s ≠ .fault f

/-- R213, R214, R216: in every state that meets the invariant a running command completes: when it is the engine's
turn, with no operation pending or with `finish` next, the step answers a state with BUSY = 0 and DONE = 1, and a WAIT ends in two steps (the model's number,
notes/assumptions/7.md). -/
def Obligations.StartedCommandCompletes : Prop :=
  ∀ s : State, s.Inv → s.busy = true →
    (s.inputs = [] → ∃ t, step s = .next t ∧ Completed t ∧ SameFrame s t) ∧
    (∀ rest, s.inputs = .finish :: rest →
      ∃ t, step s = .next t ∧ Completed t ∧ SameFrame { s with inputs := rest } t) ∧
    (∀ rest, s.inputs = .wait :: rest →
      ∃ t, Host.Core.run core 2 s = .next t ∧ Completed t ∧ t.owned = [] ∧ t.inputs = rest ∧ t.regs = s.regs)

/-- R87, R218: a complete call. On an idle block, the ten `WR`, START and WAIT of a command whose preconditions hold run in thirteen
steps (WAIT takes two, notes/assumptions/7.md), after which the registers hold the ten words, DONE is 1, memory is what the command leaves, and the host goes
on with what follows. -/
def Obligations.CompleteCallRunsTheCommand : Prop :=
  ∀ (s : State) (rest : List HostOp) (i : Instr), s.busy = false → s.inputs = callOps i ++ rest → Legal i s →
    ∃ t, exec i s = .next t ∧
      Host.Core.run core 13 s
        = .next { s with regs := RegFile.ofWords (encode i), busy := false, done := true, latch := none,
                         mem := t.mem, owned := [], inputs := rest }

/-- R34, R64, R65, R69, R250, R252: until the host has observed DONE, no step but the completion changes a byte of either footprint of a
command that was started (a reset while BUSY apart, R246); and as long as it is running, no step changes the registers or the
latched words, nor sets DONE. -/
def Obligations.StartedCommandIsUndisturbed : Prop :=
  ∀ (s t : State) (i : Instr), s.Inv → step s = .next t →
    (i ∈ s.owned → s.busy = t.busy ∨ s.busy = false → ∀ a, InFootprint i a → t.mem.read a = s.mem.read a) ∧
    (s.running = some i → t.busy = true → i ∈ s.owned ∧ i ∈ t.owned ∧ t.regs = s.regs ∧ t.latch = s.latch ∧ t.done = false)

/-- R21, R22, R35: the registers change in a step only by a `WR` to that register or by reset. -/
def Obligations.RegistersChangeOnlyByWriteOrReset : Prop :=
  ∀ (s t : State) (r : RegName), step s = .next t → t.regs.get r ≠ s.regs.get r →
    (∃ v rest, s.inputs = .wr r.offset 4 v :: rest ∧ t.regs.get r = { value := v, written := true }) ∨
    (∃ rest, s.inputs = .reset :: rest)

/-- R23, R35, R212, R213: DONE is set only by the completion of a running command, and cleared only by START and by reset. -/
def Obligations.DoneChangesOnlyByCompletionStartOrReset : Prop :=
  ∀ s t : State, step s = .next t →
    (s.done = false → t.done = true → s.busy = true ∧ t.busy = false) ∧
    (s.done = true → t.done = false →
      ∃ rest, s.inputs = HostOp.start :: rest ∨ s.inputs = .reset :: rest)

/-- R29: while no command is running the block does not touch memory: a step that changes memory is another agent's store. -/
def Obligations.IdleBlockLeavesMemoryAlone : Prop :=
  ∀ s t : State, step s = .next t → s.busy = false → t.mem ≠ s.mem →
    ∃ a v rest, s.inputs = .memWrite a v :: rest ∧ t.mem = s.mem.write a v

/-- R64, R73, R226 (U1): the memory of the buffers. The host may hand over other memory whenever the sets of every command whose DONE
has not been observed stay in the memory of their buffers, and not otherwise, so that every step keeps them there; and a command with
a byte of a set outside the memory of that set's own buffer is refused, whatever memory the other buffers have. The operation and
the list `owned` are the model's (notes/assumptions/4.md, 10.md). -/
def Obligations.BuffersStayLentWhileOwned : Prop :=
  (∀ (s : State) (rest : List HostOp) (b : Backing), s.inputs = .lend b :: rest →
    ((∀ i ∈ s.owned, SetsBacked b i) → step s = .next { s with inputs := rest, backing := b }) ∧
    ((∃ i ∈ s.owned, ¬ SetsBacked b i) → step s = .refused .notBacked)) ∧
  (∀ s t : State, step s = .next t → (∀ i ∈ s.owned, SetsBacked s.backing i) →
    ∀ i ∈ t.owned, SetsBacked t.backing i) ∧
  (∀ (s : State) (i : Instr) (a : Nat),
    (InRgbSet i a ∧ ¬ Backed s.backing.rgb a) ∨ (InYSet i a ∧ ¬ Backed s.backing.y a) ∨
      (InUSet i a ∧ ¬ Backed s.backing.u a) ∨ (InVSet i a ∧ ¬ Backed s.backing.v a) →
    ∃ r, exec i s = .refused r)
end

