-- ==== Sys2Proof/Laws/Arith.lean ====
section
/-! SUPPORT. The floor shift as a division, bytes as integers, and the saturation. -/

namespace Sys2Proof.Machine

open Sys2Proof

/-- R10: `a >> n` is `floor(a / 2^n)`. -/
theorem asr_eq (a : Int) (n : Nat) : asr a n = a / 2 ^ n := by
  simp [asr, Int.shiftRight_eq_div_pow]

theorem ofByte_nonneg (b : Byte) : 0 ≤ ofByte b := by simp [ofByte]

theorem ofByte_le (b : Byte) : ofByte b ≤ 255 := by
  have := b.isLt
  simp only [ofByte]; omega

theorem ofByte_injective {a b : Byte} (h : ofByte a = ofByte b) : a = b := by
  simp only [ofByte, Nat.cast_inj] at h
  exact BitVec.eq_of_toNat_eq h

/-- An integer of [0, 255] is stored as itself (R134). -/
theorem ofByte_toByte {a : Int} (h0 : 0 ≤ a) (h1 : a ≤ 255) : ofByte (toByte a) = a := by
  simp only [ofByte, toByte, BitVec.toNat_ofInt]
  omega

theorem toByte_ofByte (b : Byte) : toByte (ofByte b) = b :=
  ofByte_injective (ofByte_toByte (ofByte_nonneg b) (ofByte_le b))

theorem clamp8_nonneg (a : Int) : 0 ≤ clamp8 a := by unfold clamp8; split <;> [omega; split <;> omega]

theorem clamp8_le (a : Int) : clamp8 a ≤ 255 := by unfold clamp8; split <;> [omega; split <;> omega]

theorem ofByte_toByte_clamp8 (a : Int) : ofByte (toByte (clamp8 a)) = clamp8 a :=
  ofByte_toByte (clamp8_nonneg a) (clamp8_le a)

end Sys2Proof.Machine
end

