-- ==== Sys2Proof/Laws/Memory.lean ====
section
/-! SUPPORT. What the memory operations do: the canonical form is kept, a read after a write, memories that read alike are
equal, and what a list of stores leaves at an address. -/

namespace Sys2Proof.Machine

open Sys2Proof

/-! ## The canonical form -/

@[simp] theorem Memory.wf_nil : Memory.wf [] = true := rfl

theorem Memory.wf_cons_iff (k : Nat) (v : Byte) (m : Memory) :
    Memory.wf ((k, v) :: m) = true ↔
      v ≠ Memory.unlisted ∧ (∀ c ∈ m, k < c.1) ∧ Memory.wf m = true := by
  induction m generalizing k v with
  | nil => simp [Memory.wf]
  | cons c m ih =>
    obtain ⟨k', v'⟩ := c
    simp only [Memory.wf, Bool.and_eq_true, bne_iff_ne, decide_eq_true_eq, List.mem_cons, ih]
    constructor
    · rintro ⟨⟨hv, hk⟩, hv', hlt, hwf⟩
      exact ⟨hv, fun c hc => hc.elim (fun e => e ▸ hk) (fun h => hk.trans (hlt c h)), hv', hlt, hwf⟩
    · rintro ⟨hv, hlt, hv', hlt', hwf⟩
      exact ⟨⟨hv, hlt (k', v') (.inl rfl)⟩, hv', hlt', hwf⟩

theorem Memory.wf_tail {c : Host.Cell} {m : Memory} (h : Memory.wf (c :: m) = true) :
    Memory.wf m = true :=
  ((Memory.wf_cons_iff c.1 c.2 m).1 h).2.2

/-- An address below every listed one reads as unlisted. -/
theorem Memory.read_of_lt {m : Memory} {a : Nat} (h : ∀ c ∈ m, a < c.1) :
    Memory.read m a = Memory.unlisted := by
  induction m with
  | nil => rfl
  | cons c m ih =>
    obtain ⟨k, v⟩ := c
    have hk : a < k := h (k, v) (by simp)
    simp only [Memory.read, if_neg (show ¬ k = a by omega)]
    exact ih fun c hc => h c (by simp [hc])

theorem Memory.read_push {m : Memory} {a : Nat} (h : ∀ c ∈ m, a < c.1) (v : Byte) (b : Nat) :
    Memory.read (Memory.push a v m) b = if b = a then v else Memory.read m b := by
  unfold Memory.push
  by_cases hb : b = a
  · subst hb
    split
    · rw [Memory.read_of_lt h]; simp_all
    · simp [Memory.read]
  · rw [if_neg hb]
    split
    · rfl
    · simp [Memory.read, Ne.symm hb]

theorem Memory.wf_push {m : Memory} {a : Nat} (h : ∀ c ∈ m, a < c.1) (hm : Memory.wf m = true) (v : Byte) :
    Memory.wf (Memory.push a v m) = true := by
  unfold Memory.push
  split
  · exact hm
  · exact (Memory.wf_cons_iff a v m).2 ⟨by assumption, h, hm⟩

theorem Memory.mem_push {m : Memory} {a : Nat} {v : Byte} {c : Host.Cell} (h : c ∈ Memory.push a v m) :
    c = (a, v) ∨ c ∈ m := by
  unfold Memory.push at h
  split at h
  · exact .inr h
  · simpa using h

/-- A cell of a written memory is the written one or an old one. -/
theorem Memory.mem_write {m : Memory} {a : Nat} {v : Byte} {c : Host.Cell}
    (h : c ∈ Memory.write m a v) : c = (a, v) ∨ c ∈ m := by
  induction m with
  | nil => simpa using Memory.mem_push h
  | cons k m ih =>
    obtain ⟨k, w⟩ := k
    simp only [Memory.write] at h
    split at h
    · exact Memory.mem_push h
    · split at h
      · exact (Memory.mem_push h).imp id fun h => by simp [h]
      · rcases List.mem_cons.1 h with h | h
        · simp [h]
        · exact (ih h).imp id fun h => by simp [h]

/-! ## One write -/

/-- A read after a write (R11, R50). -/
theorem Memory.read_write {m : Memory} (hm : Memory.wf m = true) (a : Nat) (v : Byte) (b : Nat) :
    Memory.read (Memory.write m a v) b = if b = a then v else Memory.read m b := by
  induction m with
  | nil => exact Memory.read_push (by simp) v b
  | cons c m ih =>
    obtain ⟨k, w⟩ := c
    obtain ⟨-, hlt, hwf⟩ := (Memory.wf_cons_iff k w m).1 hm
    simp only [Memory.write]
    split
    · refine Memory.read_push (fun c hc => ?_) v b
      rcases List.mem_cons.1 hc with rfl | hc
      · assumption
      · have := hlt c hc; omega
    · split
      · rename_i _ hak
        subst hak
        rw [Memory.read_push hlt]
        by_cases hb : b = a
        · simp [hb]
        · simp [Memory.read, hb, Ne.symm hb]
      · rename_i _ hak
        simp only [Memory.read, ih hwf]
        by_cases hk : k = b
        · subst hk; simp [Ne.symm hak]
        · simp [hk]

theorem Memory.read_write_self {m : Memory} (hm : Memory.wf m = true) (a : Nat) (v : Byte) :
    Memory.read (Memory.write m a v) a = v := by simp [Memory.read_write hm]

theorem Memory.read_write_ne {m : Memory} (hm : Memory.wf m = true) {a b : Nat} (v : Byte) (h : b ≠ a) :
    Memory.read (Memory.write m a v) b = Memory.read m b := by simp [Memory.read_write hm, h]

/-- A write keeps the canonical form. -/
theorem Memory.wf_write {m : Memory} (hm : Memory.wf m = true) (a : Nat) (v : Byte) :
    Memory.wf (Memory.write m a v) = true := by
  induction m with
  | nil => exact Memory.wf_push (by simp) rfl v
  | cons c m ih =>
    obtain ⟨k, w⟩ := c
    obtain ⟨hw, hlt, hwf⟩ := (Memory.wf_cons_iff k w m).1 hm
    simp only [Memory.write]
    split
    · refine Memory.wf_push (fun c hc => ?_) hm v
      rcases List.mem_cons.1 hc with rfl | hc
      · assumption
      · have := hlt c hc; omega
    · split
      · rename_i _ hak
        exact Memory.wf_push (hak ▸ hlt) hwf v
      · refine (Memory.wf_cons_iff k w _).2 ⟨hw, fun c hc => ?_, ih hwf⟩
        rcases Memory.mem_write hc with rfl | hc
        · dsimp only; omega
        · exact hlt c hc

theorem Memory.inSpace_iff (m : Memory) :
    Memory.inSpace m = true ↔ ∀ c ∈ m, c.1 < Config.spaceSize := by
  simp [Memory.inSpace]

/-- A write inside the memory space keeps memory inside it. -/
theorem Memory.inSpace_write {m : Memory} (hm : Memory.inSpace m = true) {a : Nat}
    (ha : a < Config.spaceSize) (v : Byte) : Memory.inSpace (Memory.write m a v) = true := by
  rw [Memory.inSpace_iff] at hm ⊢
  intro c hc
  rcases Memory.mem_write hc with rfl | hc
  · exact ha
  · exact hm c hc

/-! ## Memories that read alike -/

/-- In the canonical form, memories that read alike are the same list. -/
theorem Memory.eq_of_read_eq {m m' : Memory} (hm : Memory.wf m = true) (hm' : Memory.wf m' = true)
    (h : ∀ a, Memory.read m a = Memory.read m' a) : m = m' := by
  induction m generalizing m' with
  | nil =>
    cases m' with
    | nil => rfl
    | cons c m' =>
      obtain ⟨k, v⟩ := c
      have hv := ((Memory.wf_cons_iff k v m').1 hm').1
      have := h k
      simp only [Memory.read, if_true] at this
      exact absurd this.symm hv
  | cons c m ih =>
    obtain ⟨k, v⟩ := c
    obtain ⟨hv, hlt, hwf⟩ := (Memory.wf_cons_iff k v m).1 hm
    cases m' with
    | nil =>
      have := h k
      simp only [Memory.read, if_true] at this
      exact absurd this hv
    | cons c' m' =>
      obtain ⟨k', v'⟩ := c'
      obtain ⟨hv', hlt', hwf'⟩ := (Memory.wf_cons_iff k' v' m').1 hm'
      have hk : k = k' := by
        rcases Nat.lt_trichotomy k k' with hlt1 | heq | hgt
        · have h1 := h k
          rw [Memory.read_of_lt (m := (k', v') :: m') (a := k)] at h1
          · simp only [Memory.read, if_true] at h1; exact absurd h1 hv
          · intro c hc
            rcases List.mem_cons.1 hc with rfl | hc
            · exact hlt1
            · have := hlt' c hc; omega
        · exact heq
        · have h1 := h k'
          rw [Memory.read_of_lt (m := (k, v) :: m) (a := k')] at h1
          · simp only [Memory.read, if_true] at h1; exact absurd h1.symm hv'
          · intro c hc
            rcases List.mem_cons.1 hc with rfl | hc
            · exact hgt
            · have := hlt c hc; omega
      subst hk
      have hvv : v = v' := by simpa [Memory.read] using h k
      subst hvv
      congr 1
      refine ih hwf hwf' fun a => ?_
      by_cases ha : k = a
      · subst ha; rw [Memory.read_of_lt hlt, Memory.read_of_lt hlt']
      · simpa [Memory.read, ha] using h a

/-! ## A list of stores -/

@[simp] theorem Memory.writeAll_nil (m : Memory) : Memory.writeAll m [] = m := rfl

@[simp] theorem Memory.writeAll_cons (m : Memory) (c : Host.Cell) (cs : List Host.Cell) :
    Memory.writeAll m (c :: cs) = Memory.writeAll (Memory.write m c.1 c.2) cs := rfl

theorem Memory.writeAll_append (m : Memory) (cs ds : List Host.Cell) :
    Memory.writeAll m (cs ++ ds) = Memory.writeAll (Memory.writeAll m cs) ds := by
  simp [Memory.writeAll, List.foldl_append]

theorem Memory.wf_writeAll {m : Memory} (hm : Memory.wf m = true) (cs : List Host.Cell) :
    Memory.wf (Memory.writeAll m cs) = true := by
  induction cs generalizing m with
  | nil => exact hm
  | cons c cs ih => exact ih (Memory.wf_write hm c.1 c.2)

theorem Memory.inSpace_writeAll {m : Memory} (hm : Memory.inSpace m = true) {cs : List Host.Cell}
    (h : ∀ c ∈ cs, c.1 < Config.spaceSize) : Memory.inSpace (Memory.writeAll m cs) = true := by
  induction cs generalizing m with
  | nil => exact hm
  | cons c cs ih =>
    exact ih (Memory.inSpace_write hm (h c (by simp)) c.2) fun d hd => h d (by simp [hd])

/-- An address that no store names reads as before. -/
theorem Memory.read_writeAll_of_not_mem {m : Memory} (hm : Memory.wf m = true) {cs : List Host.Cell} {a : Nat}
    (h : ∀ c ∈ cs, c.1 ≠ a) : Memory.read (Memory.writeAll m cs) a = Memory.read m a := by
  induction cs generalizing m with
  | nil => rfl
  | cons c cs ih =>
    rw [Memory.writeAll_cons, ih (Memory.wf_write hm c.1 c.2) fun d hd => h d (by simp [hd]),
      Memory.read_write_ne hm c.2 (Ne.symm (h c (by simp)))]

/-- An address at which every store stores `v`, and that some store names, reads as `v`. -/
theorem Memory.read_writeAll_of_mem {m : Memory} (hm : Memory.wf m = true) {cs : List Host.Cell} {a : Nat}
    {v : Byte} (hall : ∀ c ∈ cs, c.1 = a → c.2 = v) (hmem : ∃ c ∈ cs, c.1 = a) :
    Memory.read (Memory.writeAll m cs) a = v := by
  induction cs generalizing m with
  | nil => simp at hmem
  | cons c cs ih =>
    rw [Memory.writeAll_cons]
    by_cases hin : ∃ d ∈ cs, d.1 = a
    · exact ih (Memory.wf_write hm c.1 c.2) (fun d hd => hall d (by simp [hd])) hin
    · have hno : ∀ d ∈ cs, d.1 ≠ a := fun d hd e => hin ⟨d, hd, e⟩
      rw [Memory.read_writeAll_of_not_mem (Memory.wf_write hm c.1 c.2) hno]
      obtain ⟨d, hd, hda⟩ := hmem
      rcases List.mem_cons.1 hd with rfl | hd
      · rw [← hda, Memory.read_write_self hm]; exact hall d (by simp) hda
      · exact absurd hda (hno d hd)

end Sys2Proof.Machine
end

