-- ==== Sys2Proof/Laws/Operands.lean ====
section
/-! SUPPORT. The planes as sets, the sets of R57 as planes, the blocks of a command, and what the precondition check says. -/

namespace Sys2Proof.Machine

open Sys2Proof

/-! ## Planes -/

theorem Plane.has_iff (p : Plane) (a : Nat) :
    p.has a = true ↔ ∃ r c, r < p.rows ∧ c < p.cols ∧ a = p.rowStart r + c := by
  simp only [Plane.has, List.any_eq_true, List.mem_range, Bool.and_eq_true, decide_eq_true_eq]
  constructor
  · rintro ⟨r, hr, h1, h2⟩
    exact ⟨r, a - p.rowStart r, hr, by omega, by omega⟩
  · rintro ⟨r, c, hr, hc, rfl⟩
    exact ⟨r, hr, by omega, by omega⟩

theorem Plane.mem_addresses (p : Plane) (a : Nat) : a ∈ p.addresses ↔ p.has a = true := by
  rw [Plane.has_iff]
  simp only [Plane.addresses, List.mem_flatMap, List.mem_map, List.mem_range]
  constructor
  · rintro ⟨r, hr, c, hc, rfl⟩; exact ⟨r, c, hr, hc, rfl⟩
  · rintro ⟨r, c, hr, hc, rfl⟩; exact ⟨r, hr, c, hc, rfl⟩

theorem Plane.disjoint_iff (p q : Plane) :
    p.disjoint q = true ↔ ∀ a, p.has a = true → ¬ q.has a = true := by
  simp only [Plane.disjoint, List.all_eq_true, List.mem_range, Bool.or_eq_true, beq_iff_eq, decide_eq_true_eq,
    Plane.has_iff]
  constructor
  · rintro h a ⟨r, c, hr, hc, rfl⟩ ⟨t, e, ht, he, heq⟩
    have := h r hr t ht
    omega
  · intro h r hr t ht
    by_contra hn
    have h1 : p.cols ≠ 0 ∧ q.cols ≠ 0 ∧ q.rowStart t < p.rowStart r + p.cols
        ∧ p.rowStart r < q.rowStart t + q.cols := by omega
    rcases Nat.le_total (p.rowStart r) (q.rowStart t) with hle | hle
    · exact h (q.rowStart t) ⟨r, q.rowStart t - p.rowStart r, hr, by omega, by omega⟩
        ⟨t, 0, ht, by omega, by omega⟩
    · exact h (p.rowStart r) ⟨r, 0, hr, by omega, by omega⟩
        ⟨t, p.rowStart r - q.rowStart t, ht, by omega, by omega⟩

theorem Plane.below_iff (bound : Nat) (p : Plane) :
    p.below bound = true ↔ ∀ a, p.has a = true → a < bound := by
  simp only [Plane.below, List.all_eq_true, List.mem_range, Bool.or_eq_true, beq_iff_eq, decide_eq_true_eq,
    Plane.has_iff]
  constructor
  · rintro h a ⟨r, c, hr, hc, rfl⟩
    have := h r hr
    omega
  · intro h r hr
    by_cases hc : p.cols = 0
    · exact .inl hc
    · have := h (p.rowStart r + (p.cols - 1)) ⟨r, p.cols - 1, hr, by omega, rfl⟩
      exact .inr (by omega)

theorem Plane.backed_iff (regions : List Region) (p : Plane) :
    p.backed regions = true ↔ ∀ a, p.has a = true → backedAt regions a = true := by
  simp only [Plane.backed, List.all_eq_true, List.mem_range, Plane.has_iff]
  constructor
  · rintro h a ⟨r, c, hr, hc, rfl⟩; exact h r hr c hc
  · intro h r hr c hc; exact h _ ⟨r, c, hr, hc, rfl⟩

theorem backedAt_iff (regions : List Region) (a : Nat) :
    backedAt regions a = true ↔ Backed regions a := by
  simp [backedAt, Backed]

/-! ## The sets of R57 -/

theorem inRgbSet_iff (i : Instr) (a : Nat) : InRgbSet i a ↔ (rgbPlane i).has a = true := by
  rw [Plane.has_iff]
  simp only [InRgbSet, rgbPlane, Plane.rowStart, rgbAddr]
  constructor
  · rintro ⟨py, px, c, hy, hx, hc, rfl⟩
    exact ⟨py, 3 * px + c, hy, by omega, by omega⟩
  · rintro ⟨r, c, hr, hc, rfl⟩
    exact ⟨r, c / 3, c % 3, hr, by omega, Nat.mod_lt _ (by decide), by omega⟩

theorem inYSet_iff (i : Instr) (a : Nat) : InYSet i a ↔ (yPlane i).has a = true := by
  rw [Plane.has_iff]; rfl

theorem inUSet_iff (i : Instr) (a : Nat) : InUSet i a ↔ (uPlane i).has a = true := by
  rw [Plane.has_iff]; rfl

theorem inVSet_iff (i : Instr) (a : Nat) : InVSet i a ↔ (vPlane i).has a = true := by
  rw [Plane.has_iff]; rfl

theorem inReadSet_iff (i : Instr) (a : Nat) : InReadSet i a ↔ inReadFP i a = true := by
  cases i <;>
    simp [InReadSet, inReadFP, readPlanes, Instr.dir, inRgbSet_iff, inYSet_iff, inUSet_iff, inVSet_iff]

theorem inWriteSet_iff (i : Instr) (a : Nat) : InWriteSet i a ↔ inWriteFP i a = true := by
  cases i <;>
    simp [InWriteSet, inWriteFP, writePlanes, Instr.dir, inRgbSet_iff, inYSet_iff, inUSet_iff, inVSet_iff]

theorem mem_writeAddresses (i : Instr) (a : Nat) : a ∈ writeAddresses i ↔ InWriteSet i a := by
  simp [writeAddresses, inWriteSet_iff, inWriteFP, Plane.mem_addresses]

/-- A footprint byte is a byte of one of the four sets. -/
theorem inFootprint_iff (i : Instr) (a : Nat) :
    InFootprint i a ↔ InRgbSet i a ∨ InYSet i a ∨ InUSet i a ∨ InVSet i a := by
  cases i <;> simp only [InFootprint, InReadSet, InWriteSet, Instr.dir] <;> tauto

/-! ## Blocks (R151, R189) -/

theorem mem_scalarBlocks (d : Desc) (band bx : Nat) :
    (band, bx) ∈ scalarBlocks d ↔ band < d.height.toNat / 2 ∧ bx < d.width.toNat / 2 := by
  simp [scalarBlocks]

theorem mem_vectorBlocks (d : Desc) (band bx : Nat) :
    (band, bx) ∈ vectorBlocks d ↔ band < d.height.toNat / 2 ∧ bx < 16 * (d.width.toNat / 32) := by
  simp only [vectorBlocks, List.mem_flatMap, List.mem_map, List.mem_range, Prod.mk.injEq]
  constructor
  · rintro ⟨b, hb, k, hk, j, hj, rfl, rfl⟩
    exact ⟨hb, by have : d.width.toNat / Config.vecPixels = d.width.toNat / 32 := rfl; omega⟩
  · rintro ⟨hb, hx⟩
    exact ⟨band, hb, bx / 16, by have : d.width.toNat / Config.vecPixels = d.width.toNat / 32 := rfl; omega,
      bx % 16, Nat.mod_lt _ (by decide), rfl, by omega⟩

theorem procCols_scalar {i : Instr} (h : i.impl = .scalar) : procCols i = 2 * (cmdWidth i / 2) := by
  simp [procCols, Impl.columns, h, Impl.isVector]

theorem procCols_vector {i : Instr} (h : i.impl.isVector = true) : procCols i = 32 * (cmdWidth i / 32) := by
  simp [procCols, Impl.columns, h]

theorem two_mul_bandBlocks (i : Instr) : 2 * bandBlocks i = procCols i := by
  simp only [bandBlocks, procCols, Impl.columns, Config.vecPixels]
  split <;> omega

/-! ## The precondition check -/

theorem backedOk_iff (b : Backing) (i : Instr) : backedOk b i = true ↔ SetsBacked b i := by
  simp only [backedOk, Bool.and_eq_true, Plane.backed_iff, backedAt_iff, ← inRgbSet_iff, ← inYSet_iff, ← inUSet_iff,
    ← inVSet_iff]
  exact ⟨fun ⟨⟨⟨h1, h2⟩, h3⟩, h4⟩ => ⟨h1, h2, h3, h4⟩, fun h => ⟨⟨⟨h.rgb, h.y⟩, h.u⟩, h.v⟩⟩

/-- `DIM_BITS` = 32 bounds no 32-bit word (R74). -/
@[simp] theorem dimsOk_hardware (i : Instr) : dimsOk Config.hardware i = true := by
  simp only [dimsOk, List.all_eq_true, decide_eq_true_eq]
  exact fun w _ => w.isLt

theorem violation_eq_none_iff (cfg : Config) (i : Instr) (b : Backing) :
    violation cfg i b = none ↔
      i.wellFormed cfg = true ∧ stridesOk i = true ∧ alignedOk i = true ∧ tailOk cfg i = true
        ∧ disjointOk i = true ∧ rangeOk cfg i = true ∧ dimsOk cfg i = true ∧ backedOk b i = true := by
  unfold violation
  cases i.wellFormed cfg <;> cases stridesOk i <;> cases alignedOk i <;> cases tailOk cfg i <;>
    cases disjointOk i <;> cases rangeOk cfg i <;> cases dimsOk cfg i <;> cases backedOk b i <;> simp

/-- The reason the check gives is one of the preconditions' names, never the engine's or the host interface's. -/
theorem violation_eq_some {cfg : Config} {i : Instr} {b : Backing} {r : Refusal}
    (h : violation cfg i b = some r) :
    r = .reservedCommand .vectorAbsent ∨ r = .strideTooShort ∨ r = .misaligned ∨ r = .tailRefused
      ∨ r = .buffersOverlap ∨ r = .addressOutOfRange ∨ r = .dimensionTooLarge ∨ r = .notBacked := by
  unfold violation at h
  repeat' split at h
  all_goals simp_all

end Sys2Proof.Machine
end

