-- ==== Sys2Proof/Laws/Blocks.lean ====
section
/-! SUPPORT. The stores of a command, cell by cell: which addresses they name, and that a legal command stores one byte at
an address. -/

namespace Sys2Proof.Machine

open Sys2Proof

/-! ## The values stored -/

/-- The Y byte of a pixel. -/
def storedY (std : Std) (d : Desc) (m : Memory) (py px : Nat) : Byte :=
  toByte (fwdRerange (lutFwd std) (lumaAt (lutFwd std) d m py px))

/-- The U byte of a block. -/
def storedU (mode : ChromaMode) (std : Std) (d : Desc) (m : Memory) (band bx : Nat) : Byte :=
  toByte (decimated mode (termUAt (lutFwd std) d m) band bx)

/-- The V byte of a block. -/
def storedV (mode : ChromaMode) (std : Std) (d : Desc) (m : Memory) (band bx : Nat) : Byte :=
  toByte (decimated mode (termVAt (lutFwd std) d m) band bx)

/-- The byte of channel `k` (R, G, B) of a pixel. -/
def storedRgb (std : Std) (d : Desc) (m : Memory) (py px k : Nat) : Byte :=
  let yp := invLuma (lutInv std) (m.read (yAddr d py px))
  let o := offsetsAt (lutInv std) d m py px
  if k = 0 then invRed yp o else if k = 1 then invGreen yp o else invBlue yp o

/-! ## The cells of a block -/

theorem mem_fwdBlock {mode : ChromaMode} {std : Std} {d : Desc} {m : Memory} {band bx : Nat} {c : Host.Cell} :
    c ∈ fwdBlock mode (lutFwd std) d m band bx ↔
      (∃ dy dx, dy < 2 ∧ dx < 2
        ∧ c = (yAddr d (2 * band + dy) (2 * bx + dx), storedY std d m (2 * band + dy) (2 * bx + dx)))
      ∨ c = (uAddr d band bx, storedU mode std d m band bx)
      ∨ c = (vAddr d band bx, storedV mode std d m band bx) := by
  simp only [fwdBlock, List.mem_cons, List.not_mem_nil, or_false]
  constructor
  · rintro (h | h | h | h | h | h)
    · exact .inl ⟨0, 0, by omega, by omega, h⟩
    · exact .inl ⟨0, 1, by omega, by omega, h⟩
    · exact .inl ⟨1, 0, by omega, by omega, h⟩
    · exact .inl ⟨1, 1, by omega, by omega, h⟩
    · exact .inr (.inl h)
    · exact .inr (.inr h)
  · rintro (⟨dy, dx, hy, hx, h⟩ | h | h)
    · obtain rfl | rfl : dy = 0 ∨ dy = 1 := by omega
      · obtain rfl | rfl : dx = 0 ∨ dx = 1 := by omega
        · exact .inl h
        · exact .inr (.inl h)
      · obtain rfl | rfl : dx = 0 ∨ dx = 1 := by omega
        · exact .inr (.inr (.inl h))
        · exact .inr (.inr (.inr (.inl h)))
    · exact .inr (.inr (.inr (.inr (.inl h))))
    · exact .inr (.inr (.inr (.inr (.inr h))))

theorem mem_invPixel {std : Std} {d : Desc} {m : Memory} {py px : Nat} {c : Host.Cell} :
    c ∈ invPixel (lutInv std) d m (offsetsAt (lutInv std) d m py px) py px ↔
      ∃ k, k < 3 ∧ c = (rgbAddr d py px + k, storedRgb std d m py px k) := by
  simp only [invPixel, List.mem_cons, List.not_mem_nil, or_false]
  constructor
  · rintro (h | h | h)
    · exact ⟨0, by omega, h⟩
    · exact ⟨1, by omega, h⟩
    · exact ⟨2, by omega, h⟩
  · rintro ⟨k, hk, h⟩
    obtain rfl | rfl | rfl : k = 0 ∨ k = 1 ∨ k = 2 := by omega
    · exact .inl h
    · exact .inr (.inl h)
    · exact .inr (.inr h)

theorem mem_invBlock {std : Std} {d : Desc} {m : Memory} {band bx : Nat} {c : Host.Cell} :
    c ∈ invBlock (lutInv std) d m band bx ↔
      ∃ dy dx k, dy < 2 ∧ dx < 2 ∧ k < 3
        ∧ c = (rgbAddr d (2 * band + dy) (2 * bx + dx) + k,
               storedRgb std d m (2 * band + dy) (2 * bx + dx) k) := by
  have off : ∀ dy dx, dy < 2 → dx < 2 →
      invOffsets (lutInv std) (m.read (uAddr d band bx)) (m.read (vAddr d band bx))
        = offsetsAt (lutInv std) d m (2 * band + dy) (2 * bx + dx) := by
    intro dy dx hy hx
    simp only [offsetsAt]
    rw [show (2 * band + dy) / 2 = band by omega, show (2 * bx + dx) / 2 = bx by omega]
  simp only [invBlock, List.mem_append]
  constructor
  · rintro (((h | h) | h) | h)
    · rw [off 0 0 (by omega) (by omega)] at h
      obtain ⟨k, hk, h⟩ := mem_invPixel.1 h
      exact ⟨0, 0, k, by omega, by omega, hk, h⟩
    · rw [off 0 1 (by omega) (by omega)] at h
      obtain ⟨k, hk, h⟩ := mem_invPixel.1 h
      exact ⟨0, 1, k, by omega, by omega, hk, h⟩
    · rw [off 1 0 (by omega) (by omega)] at h
      obtain ⟨k, hk, h⟩ := mem_invPixel.1 h
      exact ⟨1, 0, k, by omega, by omega, hk, h⟩
    · rw [off 1 1 (by omega) (by omega)] at h
      obtain ⟨k, hk, h⟩ := mem_invPixel.1 h
      exact ⟨1, 1, k, by omega, by omega, hk, h⟩
  · rintro ⟨dy, dx, k, hy, hx, hk, h⟩
    have hm := mem_invPixel.2 ⟨k, hk, h⟩
    rw [← off dy dx hy hx] at hm
    obtain rfl | rfl : dy = 0 ∨ dy = 1 := by omega
    · obtain rfl | rfl : dx = 0 ∨ dx = 1 := by omega
      · exact .inl (.inl (.inl hm))
      · exact .inl (.inl (.inr hm))
    · obtain rfl | rfl : dx = 0 ∨ dx = 1 := by omega
      · exact .inl (.inr hm)
      · exact .inr hm

/-! ## The cells of a command -/

theorem mem_commandBlocks (i : Instr) (band bx : Nat) :
    (band, bx) ∈ commandBlocks i ↔ band < bands i ∧ bx < bandBlocks i := by
  have h2 := two_mul_bandBlocks i
  unfold commandBlocks
  cases hv : i.impl.isVector
  · have hs : i.impl = .scalar := by revert hv; cases i.impl <;> simp [Impl.isVector]
    rw [procCols_scalar hs] at h2
    simp only [Bool.false_eq_true, if_false, mem_scalarBlocks, bands, cmdHeight]
    simp only [cmdWidth] at h2
    omega
  · rw [procCols_vector hv] at h2
    simp only [if_true, mem_vectorBlocks, bands, cmdHeight]
    simp only [cmdWidth] at h2
    omega

/-- The cells of a forward command. -/
theorem mem_forwardStores {cfg : Config} {i : Instr} (hd : i.dir = .forward) {m : Memory} {c : Host.Cell} :
    c ∈ commandStores cfg i m ↔
      (∃ py px, py < procRows i ∧ px < procCols i ∧ c = (yAddr i.desc py px, storedY i.std i.desc m py px))
      ∨ (∃ band bx, band < bands i ∧ bx < bandBlocks i
          ∧ c = (uAddr i.desc band bx, storedU (commandChroma cfg i) i.std i.desc m band bx))
      ∨ (∃ band bx, band < bands i ∧ bx < bandBlocks i
          ∧ c = (vAddr i.desc band bx, storedV (commandChroma cfg i) i.std i.desc m band bx)) := by
  have h2 := two_mul_bandBlocks i
  simp only [commandStores, hd, fwdStores, List.mem_flatMap, Prod.exists, mem_commandBlocks, mem_fwdBlock,
    procRows]
  constructor
  · rintro ⟨band, bx, ⟨hb, hx⟩, ⟨dy, dx, hy, hx', h⟩ | h | h⟩
    · exact .inl ⟨_, _, by omega, by omega, h⟩
    · exact .inr (.inl ⟨band, bx, hb, hx, h⟩)
    · exact .inr (.inr ⟨band, bx, hb, hx, h⟩)
  · rintro (⟨py, px, hy, hx, h⟩ | ⟨band, bx, hb, hx, h⟩ | ⟨band, bx, hb, hx, h⟩)
    · refine ⟨py / 2, px / 2, ⟨by omega, by omega⟩, .inl ⟨py % 2, px % 2, by omega, by omega, ?_⟩⟩
      rw [Nat.div_add_mod, Nat.div_add_mod]
      exact h
    · exact ⟨band, bx, ⟨hb, hx⟩, .inr (.inl h)⟩
    · exact ⟨band, bx, ⟨hb, hx⟩, .inr (.inr h)⟩

/-- The cells of an inverse command. -/
theorem mem_inverseStores {cfg : Config} {i : Instr} (hd : i.dir = .inverse) {m : Memory} {c : Host.Cell} :
    c ∈ commandStores cfg i m ↔
      ∃ py px k, py < procRows i ∧ px < procCols i ∧ k < 3
        ∧ c = (rgbAddr i.desc py px + k, storedRgb i.std i.desc m py px k) := by
  have h2 := two_mul_bandBlocks i
  simp only [commandStores, hd, invStores, List.mem_flatMap, Prod.exists, mem_commandBlocks, mem_invBlock,
    procRows]
  constructor
  · rintro ⟨band, bx, ⟨hb, hx⟩, dy, dx, k, hy, hx', hk, h⟩
    exact ⟨_, _, k, by omega, by omega, hk, h⟩
  · rintro ⟨py, px, k, hy, hx, hk, h⟩
    refine ⟨py / 2, px / 2, ⟨by omega, by omega⟩, py % 2, px % 2, k, by omega, by omega, hk, ?_⟩
    rw [Nat.div_add_mod, Nat.div_add_mod]
    exact h

/-- A command stores exactly at the addresses of its write footprint (R57, R58, R61). -/
theorem storedAt_iff (cfg : Config) (i : Instr) (m : Memory) (a : Nat) :
    (∃ c ∈ commandStores cfg i m, c.1 = a) ↔ InWriteSet i a := by
  cases hd : i.dir
  · simp only [mem_forwardStores hd, InWriteSet, hd, InYSet, InUSet, InVSet]
    constructor
    · rintro ⟨c, ⟨py, px, hy, hx, rfl⟩ | ⟨b, x, hb, hx, rfl⟩ | ⟨b, x, hb, hx, rfl⟩, rfl⟩
      · exact .inl ⟨py, px, hy, hx, rfl⟩
      · exact .inr (.inl ⟨b, x, hb, hx, rfl⟩)
      · exact .inr (.inr ⟨b, x, hb, hx, rfl⟩)
    · rintro (⟨py, px, hy, hx, rfl⟩ | ⟨b, x, hb, hx, rfl⟩ | ⟨b, x, hb, hx, rfl⟩)
      · exact ⟨_, .inl ⟨py, px, hy, hx, rfl⟩, rfl⟩
      · exact ⟨_, .inr (.inl ⟨b, x, hb, hx, rfl⟩), rfl⟩
      · exact ⟨_, .inr (.inr ⟨b, x, hb, hx, rfl⟩), rfl⟩
  · simp only [mem_inverseStores hd, InWriteSet, hd, InRgbSet]
    constructor
    · rintro ⟨c, ⟨py, px, k, hy, hx, hk, rfl⟩, rfl⟩
      exact ⟨py, px, k, hy, hx, hk, rfl⟩
    · rintro ⟨py, px, k, hy, hx, hk, rfl⟩
      exact ⟨_, ⟨py, px, k, hy, hx, hk, rfl⟩, rfl⟩

/-! ## One byte at an address -/

/-- Two samples of a buffer whose rows are tight have the same address only if they are the same sample. -/
theorem row_injective {s r c r' c' : Nat} (hc : c < s) (hc' : c' < s) (h : r * s + c = r' * s + c') :
    r = r' ∧ c = c' := by
  have hs : 0 < s := by omega
  have h1 : r = r' := by
    have := congrArg (· / s) h
    simpa [Nat.add_comm _ c, Nat.add_comm _ c', Nat.add_mul_div_right _ _ hs, Nat.div_eq_of_lt hc,
      Nat.div_eq_of_lt hc'] using this
  subst h1
  exact ⟨rfl, by omega⟩

theorem procCols_le (i : Instr) : procCols i ≤ cmdWidth i := by
  simp only [procCols, Impl.columns, Config.vecPixels]
  split <;> omega

theorem bandBlocks_le (i : Instr) : bandBlocks i ≤ (cmdWidth i + 1) / 2 := by
  have h1 := procCols_le i
  have h2 := two_mul_bandBlocks i
  omega

theorem stridesOk_iff (i : Instr) : stridesOk i = true ↔
    3 * cmdWidth i ≤ i.desc.rgbStride.toNat ∧ cmdWidth i ≤ i.desc.yStride.toNat
      ∧ (cmdWidth i + 1) / 2 ≤ i.desc.uvStride.toNat := by
  simp [stridesOk, and_assoc]

theorem disjointOk_iff (i : Instr) : disjointOk i = true ↔
    (∀ a, InRgbSet i a → ¬ InYSet i a) ∧ (∀ a, InRgbSet i a → ¬ InUSet i a) ∧ (∀ a, InRgbSet i a → ¬ InVSet i a)
      ∧ (∀ a, InYSet i a → ¬ InUSet i a) ∧ (∀ a, InYSet i a → ¬ InVSet i a)
      ∧ (∀ a, InUSet i a → ¬ InVSet i a) := by
  simp only [disjointOk, Bool.and_eq_true, Plane.disjoint_iff, inRgbSet_iff, inYSet_iff, inUSet_iff, inVSet_iff,
    and_assoc]

/-- A command whose strides are tight and whose sets are disjoint stores one byte at an address (R59, R61). -/
theorem stores_functional {cfg : Config} {i : Instr} (hs : stridesOk i = true) (hd : disjointOk i = true)
    {m : Memory} {c c' : Host.Cell} (hc : c ∈ commandStores cfg i m) (hc' : c' ∈ commandStores cfg i m)
    (h : c.1 = c'.1) : c.2 = c'.2 := by
  obtain ⟨s1, s2, s3⟩ := (stridesOk_iff i).1 hs
  obtain ⟨-, -, -, d1, d2, d3⟩ := (disjointOk_iff i).1 hd
  have w1 := procCols_le i
  have w2 := bandBlocks_le i
  cases hdir : i.dir
  · rw [mem_forwardStores hdir] at hc hc'
    rcases hc with ⟨py, px, hy, hx, rfl⟩ | ⟨b, x, hb, hx, rfl⟩ | ⟨b, x, hb, hx, rfl⟩ <;>
      rcases hc' with ⟨py', px', hy', hx', rfl⟩ | ⟨b', x', hb', hx', rfl⟩ | ⟨b', x', hb', hx', rfl⟩
    · obtain ⟨rfl, rfl⟩ := row_injective (s := i.desc.yStride.toNat) (r := py) (r' := py') (c := px) (c' := px')
        (by omega) (by omega) (by simpa [yAddr, Nat.add_assoc] using h)
      rfl
    · exact absurd ⟨b', x', hb', hx', h⟩ (d1 _ ⟨py, px, hy, hx, rfl⟩)
    · exact absurd ⟨b', x', hb', hx', h⟩ (d2 _ ⟨py, px, hy, hx, rfl⟩)
    · exact absurd ⟨b, x, hb, hx, h.symm⟩ (d1 _ ⟨py', px', hy', hx', rfl⟩)
    · obtain ⟨rfl, rfl⟩ := row_injective (s := i.desc.uvStride.toNat) (r := b) (r' := b') (c := x) (c' := x')
        (by omega) (by omega) (by simpa [uAddr, Nat.add_assoc] using h)
      rfl
    · exact absurd ⟨b', x', hb', hx', h⟩ (d3 _ ⟨b, x, hb, hx, rfl⟩)
    · exact absurd ⟨b, x, hb, hx, h.symm⟩ (d2 _ ⟨py', px', hy', hx', rfl⟩)
    · exact absurd ⟨b, x, hb, hx, h.symm⟩ (d3 _ ⟨b', x', hb', hx', rfl⟩)
    · obtain ⟨rfl, rfl⟩ := row_injective (s := i.desc.uvStride.toNat) (r := b) (r' := b') (c := x) (c' := x')
        (by omega) (by omega) (by simpa [vAddr, Nat.add_assoc] using h)
      rfl
  · rw [mem_inverseStores hdir] at hc hc'
    obtain ⟨py, px, k, hy, hx, hk, rfl⟩ := hc
    obtain ⟨py', px', k', hy', hx', hk', rfl⟩ := hc'
    obtain ⟨rfl, h2⟩ := row_injective (s := i.desc.rgbStride.toNat) (r := py) (r' := py') (c := 3 * px + k)
      (c' := 3 * px' + k') (by omega) (by omega) (by simpa [rgbAddr, Nat.add_assoc] using h)
    obtain rfl : px = px' := by omega
    obtain rfl : k = k' := by omega
    rfl

/-- What a legal command's stores leave at an address they name. -/
theorem read_stores_of_mem {cfg : Config} {i : Instr} (hs : stridesOk i = true) (hd : disjointOk i = true)
    {m m0 : Memory} (hm : Memory.wf m = true) {a : Nat} {v : Byte} (hc : (a, v) ∈ commandStores cfg i m0) :
    Memory.read (m.writeAll (commandStores cfg i m0)) a = v :=
  Memory.read_writeAll_of_mem hm (fun _ hd' he => stores_functional hs hd hd' hc he) ⟨_, hc, rfl⟩

/-- What a command's stores leave outside its write footprint. -/
theorem read_stores_of_not_mem {cfg : Config} {i : Instr} {m m0 : Memory} (hm : Memory.wf m = true) {a : Nat}
    (ha : ¬ InWriteSet i a) : Memory.read (m.writeAll (commandStores cfg i m0)) a = Memory.read m a :=
  Memory.read_writeAll_of_not_mem hm fun c hc he => ha ((storedAt_iff cfg i m0 a).1 ⟨c, hc, he⟩)

end Sys2Proof.Machine
end

