-- ==== Sys2Proof/Laws/State.lean ====
section
/-! SUPPORT. What each named update of the state says of each field, and the registers by name. -/

namespace Sys2Proof.Machine

open Sys2Proof

/-! ## `State.begin` -/

@[simp] theorem State.begin_regs (s : State) (w : CommandWords) (i : Instr) : (s.begin w i).regs = s.regs := rfl
@[simp] theorem State.begin_busy (s : State) (w : CommandWords) (i : Instr) : (s.begin w i).busy = true := rfl
@[simp] theorem State.begin_done (s : State) (w : CommandWords) (i : Instr) : (s.begin w i).done = false := rfl
@[simp] theorem State.begin_latch (s : State) (w : CommandWords) (i : Instr) : (s.begin w i).latch = some w := rfl
@[simp] theorem State.begin_mem (s : State) (w : CommandWords) (i : Instr) : (s.begin w i).mem = s.mem := rfl
@[simp] theorem State.begin_backing (s : State) (w : CommandWords) (i : Instr)  :
    (s.begin w i).backing = s.backing := rfl
@[simp] theorem State.begin_inputs (s : State) (w : CommandWords) (i : Instr) :
    (s.begin w i).inputs = s.inputs := rfl
@[simp] theorem State.begin_received (s : State) (w : CommandWords) (i : Instr) :
    (s.begin w i).received = s.received := rfl
@[simp] theorem State.begin_draws (s : State) (w : CommandWords) (i : Instr) : (s.begin w i).draws = s.draws := rfl

@[simp] theorem State.begin_owned (s : State) (w : CommandWords) (i : Instr) :
    (s.begin w i).owned = i :: s.owned := rfl

/-! ## `State.complete` -/

@[simp] theorem State.complete_regs (s : State) (cs : List Host.Cell) : (s.complete cs).regs = s.regs := rfl
@[simp] theorem State.complete_busy (s : State) (cs : List Host.Cell) : (s.complete cs).busy = false := rfl
@[simp] theorem State.complete_done (s : State) (cs : List Host.Cell) : (s.complete cs).done = true := rfl
@[simp] theorem State.complete_latch (s : State) (cs : List Host.Cell) : (s.complete cs).latch = none := rfl
@[simp] theorem State.complete_mem (s : State) (cs : List Host.Cell) :
    (s.complete cs).mem = s.mem.writeAll cs := rfl
@[simp] theorem State.complete_backing (s : State) (cs : List Host.Cell) :
    (s.complete cs).backing = s.backing := rfl
@[simp] theorem State.complete_inputs (s : State) (cs : List Host.Cell) :
    (s.complete cs).inputs = s.inputs := rfl
@[simp] theorem State.complete_received (s : State) (cs : List Host.Cell) :
    (s.complete cs).received = s.received := rfl
@[simp] theorem State.complete_draws (s : State) (cs : List Host.Cell) :
    (s.complete cs).draws = s.draws := rfl

@[simp] theorem State.complete_owned (s : State) (cs : List Host.Cell) :
    (s.complete cs).owned = s.owned := rfl

/-! ## `State.observeDone` -/

@[simp] theorem State.observeDone_regs (s : State) : s.observeDone.regs = s.regs := rfl
@[simp] theorem State.observeDone_busy (s : State) : s.observeDone.busy = s.busy := rfl
@[simp] theorem State.observeDone_done (s : State) : s.observeDone.done = s.done := rfl
@[simp] theorem State.observeDone_latch (s : State) : s.observeDone.latch = s.latch := rfl
@[simp] theorem State.observeDone_mem (s : State) : s.observeDone.mem = s.mem := rfl
@[simp] theorem State.observeDone_backing (s : State) : s.observeDone.backing = s.backing := rfl
@[simp] theorem State.observeDone_inputs (s : State) : s.observeDone.inputs = s.inputs := rfl
@[simp] theorem State.observeDone_received (s : State) : s.observeDone.received = s.received := rfl
@[simp] theorem State.observeDone_draws (s : State) : s.observeDone.draws = s.draws := rfl
@[simp] theorem State.observeDone_owned (s : State) :
    s.observeDone.owned = if s.done then [] else s.owned := rfl

/-! ## `State.receive` -/

@[simp] theorem State.receive_regs (s : State) (x : Datum) : (s.receive x).regs = s.regs := rfl
@[simp] theorem State.receive_busy (s : State) (x : Datum) : (s.receive x).busy = s.busy := rfl
@[simp] theorem State.receive_done (s : State) (x : Datum) : (s.receive x).done = s.done := rfl
@[simp] theorem State.receive_latch (s : State) (x : Datum) : (s.receive x).latch = s.latch := rfl
@[simp] theorem State.receive_mem (s : State) (x : Datum) : (s.receive x).mem = s.mem := rfl
@[simp] theorem State.receive_backing (s : State) (x : Datum) : (s.receive x).backing = s.backing := rfl
@[simp] theorem State.receive_inputs (s : State) (x : Datum) : (s.receive x).inputs = s.inputs := rfl
@[simp] theorem State.receive_received (s : State) (x : Datum) :
    (s.receive x).received = x :: s.received := rfl
@[simp] theorem State.receive_draws (s : State) (x : Datum) : (s.receive x).draws = s.draws := rfl

@[simp] theorem State.receive_owned (s : State) (x : Datum) : (s.receive x).owned = s.owned := rfl

/-! ## The registers by name -/

@[simp] theorem RegFile.get_set_self (f : RegFile) (r : RegName) (v : Word) :
    (f.set r v).get r = { value := v, written := true } := by cases r <;> rfl

theorem RegFile.get_set_ne (f : RegFile) {r q : RegName} (v : Word) (h : q ≠ r) :
    (f.set r v).get q = f.get q := by cases r <;> cases q <;> first | rfl | exact absurd rfl h

@[simp] theorem RegFile.allWritten_ofWords (w : CommandWords) :
    (RegFile.ofWords w).allWritten = true := rfl

@[simp] theorem RegFile.words_ofWords (w : CommandWords) : (RegFile.ofWords w).words = w := rfl

@[simp] theorem RegFile.get_reset (r : RegName) : RegFile.reset.get r = Reg.reset := by cases r <;> rfl

theorem RegFile.allWritten_iff (f : RegFile) :
    f.allWritten = true ↔ ∀ r, (f.get r).written = true := by
  constructor
  · intro h r
    simp only [RegFile.allWritten, Bool.and_eq_true] at h
    obtain ⟨⟨⟨⟨⟨⟨⟨⟨⟨h0, h1⟩, h2⟩, h3⟩, h4⟩, h5⟩, h6⟩, h7⟩, h8⟩, h9⟩ := h
    cases r <;> assumption
  · intro h
    have h0 := h .cmd; have h1 := h .width; have h2 := h .height; have h3 := h .rgbBase
    have h4 := h .rgbStride; have h5 := h .yBase; have h6 := h .uBase; have h7 := h .vBase
    have h8 := h .yStride; have h9 := h .uvStride
    simp only [RegFile.get] at h0 h1 h2 h3 h4 h5 h6 h7 h8 h9
    simp [RegFile.allWritten, h0, h1, h2, h3, h4, h5, h6, h7, h8, h9]

/-- Register files with the same registers are the same. -/
theorem RegFile.ext_get {f g : RegFile} (h : ∀ r, f.get r = g.get r) : f = g := by
  have h0 := h .cmd; have h1 := h .width; have h2 := h .height; have h3 := h .rgbBase
  have h4 := h .rgbStride; have h5 := h .yBase; have h6 := h .uBase; have h7 := h .vBase
  have h8 := h .yStride; have h9 := h .uvStride
  cases f; cases g
  simp_all [RegFile.get]

end Sys2Proof.Machine
end

