-- ==== Sys2Proof/Laws/Commands.lean ====
section
/-! SUPPORT. Once for all six commands: what a command answers. -/

namespace Sys2Proof.Machine

open Sys2Proof

/-- Every command in every configuration is its precondition check and its stores. -/
theorem execIn_eq (cfg : Config) (i : Instr) (s : State) :
    execIn cfg i s = runCommand cfg i (commandStores cfg i s.mem) s := by cases i <;> rfl

/-- This hardware is the configuration `Config.hardware`. -/
theorem exec_eq_execIn (i : Instr) (s : State) : exec i s = execIn Config.hardware i s := by cases i <;> rfl

theorem exec_eq (i : Instr) (s : State) :
    exec i s = runCommand Config.hardware i (commandStores Config.hardware i s.mem) s := by
  rw [exec_eq_execIn, execIn_eq]

/-- What `runCommand` can answer. -/
theorem runCommand_next_iff {cfg : Config} {i : Instr} {cs : List Host.Cell} {s t : State} :
    runCommand cfg i cs s = .next t ↔ violation cfg i s.backing = none ∧ t = s.complete cs := by
  unfold runCommand
  cases h : violation cfg i s.backing <;> simp [eq_comm]

theorem runCommand_refused_iff {cfg : Config} {i : Instr} {cs : List Host.Cell} {s : State} {r : Refusal} :
    runCommand cfg i cs s = .refused r ↔ violation cfg i s.backing = some r := by
  unfold runCommand
  cases h : violation cfg i s.backing <;> simp

theorem runCommand_ne_fault {cfg : Config} {i : Instr} {cs : List Host.Cell} {s : State} {f : Fault} :
    runCommand cfg i cs s ≠ .fault f := by
  unfold runCommand
  cases h : violation cfg i s.backing <;> simp

/-- Everything a command can do when it answers a next state. -/
theorem exec_next_iff {i : Instr} {s t : State} :
    exec i s = .next t ↔
      violation Config.hardware i s.backing = none
        ∧ t = s.complete (commandStores Config.hardware i s.mem) := by
  rw [exec_eq, runCommand_next_iff]

theorem exec_refused_iff {i : Instr} {s : State} {r : Refusal} :
    exec i s = .refused r ↔ violation Config.hardware i s.backing = some r := by
  rw [exec_eq, runCommand_refused_iff]

/-- On this hardware the forward commands decimate by the truncating sum (R157, R197). -/
@[simp] theorem commandChroma_hardware (i : Instr) : commandChroma Config.hardware i = .truncSum := by
  unfold commandChroma
  cases i.impl.isVector <;> rfl

/-- What a completed command leaves apart from memory and the engine's status. -/
theorem exec_next_frame {i : Instr} {s t : State} (h : exec i s = .next t) : Completed t ∧ SameFrame s t := by
  obtain ⟨-, rfl⟩ := exec_next_iff.1 h
  exact ⟨⟨rfl, rfl, rfl⟩, ⟨rfl, rfl, rfl, rfl, rfl, rfl⟩⟩

/-- With disjoint sets, no byte is in both footprints (R59). -/
theorem not_read_and_written {i : Instr} (h : disjointOk i = true) {a : Nat} (hr : InReadSet i a)
    (hw : InWriteSet i a) : False := by
  obtain ⟨d1, d2, d3, -, -, -⟩ := (disjointOk_iff i).1 h
  cases hd : i.dir <;> simp only [InReadSet, InWriteSet, hd] at hr hw
  · rcases hw with h | h | h
    exacts [d1 a hr h, d2 a hr h, d3 a hr h]
  · rcases hr with h | h | h
    exacts [d1 a hw h, d2 a hw h, d3 a hw h]

/-- Two lists with the same cells, which name one byte for an address, leave the same memory. -/
theorem Memory.writeAll_congr {m : Memory} (hm : Memory.wf m = true) {cs ds : List Host.Cell}
    (h : ∀ c, c ∈ cs ↔ c ∈ ds) (f : ∀ c ∈ cs, ∀ c' ∈ cs, c.1 = c'.1 → c.2 = c'.2) :
    Memory.writeAll m cs = Memory.writeAll m ds := by
  refine Memory.eq_of_read_eq (Memory.wf_writeAll hm _) (Memory.wf_writeAll hm _) fun a => ?_
  by_cases ha : ∃ c ∈ cs, c.1 = a
  · obtain ⟨c, hc, rfl⟩ := ha
    rw [Memory.read_writeAll_of_mem hm (fun d hd he => f d hd c hc he) ⟨c, hc, rfl⟩,
      Memory.read_writeAll_of_mem hm (fun d hd he => f d ((h d).2 hd) c hc he) ⟨c, (h c).1 hc, rfl⟩]
  · rw [Memory.read_writeAll_of_not_mem hm (fun c hc he => ha ⟨c, hc, he⟩),
      Memory.read_writeAll_of_not_mem hm (fun c hc he => ha ⟨c, (h c).2 hc, he⟩)]

/-- The stores of a command whose preconditions hold lie in the memory space. -/
theorem stores_inSpace {cfg : Config} {i : Instr} {b : Backing}
    (h : violation Config.hardware i b = none) {m : Memory} {c : Host.Cell}
    (hc : c ∈ commandStores cfg i m) :
    c.1 < Config.spaceSize := by
  obtain ⟨-, -, -, -, -, hr, -⟩ := (violation_eq_none_iff Config.hardware i b).1 h
  simp only [rangeOk, Bool.and_eq_true, Plane.below_iff] at hr
  obtain ⟨⟨⟨h1, h2⟩, h3⟩, h4⟩ := hr
  have hw := (storedAt_iff cfg i m c.1).1 ⟨c, hc, rfl⟩
  have hf := (inFootprint_iff i c.1).1 (.inr hw)
  rw [inRgbSet_iff, inYSet_iff, inUSet_iff, inVSet_iff] at hf
  rcases hf with hf | hf | hf | hf
  · exact h1 _ hf
  · exact h2 _ hf
  · exact h3 _ hf
  · exact h4 _ hf

end Sys2Proof.Machine
end

