-- ==== Sys2Proof/Laws/Decode.lean ====
section
/-! SUPPORT. The fields of an encoded CMD word, the parts of a command, and what a decoded command is. -/

namespace Sys2Proof

theorem Instr.ofParts_parts (i : Instr) : Instr.ofParts i.dir i.impl i.std i.desc = i := by cases i <;> rfl

@[simp] theorem Instr.dir_ofParts (dir : Dir) (impl : Impl) (std : Std) (d : Desc) :
    (Instr.ofParts dir impl std d).dir = dir := by cases dir <;> cases impl <;> rfl

@[simp] theorem Instr.impl_ofParts (dir : Dir) (impl : Impl) (std : Std) (d : Desc) :
    (Instr.ofParts dir impl std d).impl = impl := by cases dir <;> cases impl <;> rfl

@[simp] theorem Instr.std_ofParts (dir : Dir) (impl : Impl) (std : Std) (d : Desc) :
    (Instr.ofParts dir impl std d).std = std := by cases dir <;> cases impl <;> rfl

@[simp] theorem Instr.desc_ofParts (dir : Dir) (impl : Impl) (std : Std) (d : Desc) :
    (Instr.ofParts dir impl std d).desc = d := by cases dir <;> cases impl <;> rfl

@[simp] theorem dirOf_code (dir : Dir) : dirOf dir.code = dir := by cases dir <;> rfl

@[simp] theorem implOf_code (impl : Impl) : implOf impl.code = some impl := by cases impl <;> rfl

@[simp] theorem stdOf_code (std : Std) : stdOf std.code = some std := by cases std <;> rfl

theorem Dir.code_lt (dir : Dir) : dir.code < 2 := by cases dir <;> decide

theorem Impl.code_lt (impl : Impl) : impl.code < 3 := by cases impl <;> decide

theorem Std.code_lt (std : Std) : std.code < 3 := by cases std <;> decide

theorem implOf_eq_some {n : Nat} {impl : Impl} (h : implOf n = some impl) : n = impl.code := by
  unfold implOf at h
  split at h <;> simp_all <;> subst h <;> rfl

theorem stdOf_eq_some {n : Nat} {std : Std} (h : stdOf n = some std) : n = std.code := by
  unfold stdOf at h
  split at h <;> simp_all <;> subst h <;> rfl

theorem code_dirOf {n : Nat} (h : n < 2) : (dirOf n).code = n := by
  unfold dirOf
  split
  · subst n; rfl
  · show 1 = n; omega

/-- CMD as a number (R82): `match | (STD << 3)`. -/
theorem encode_cmd_toNat (i : Instr) :
    (encode i).cmd.toNat = i.dir.code + 2 * i.impl.code + 8 * i.std.code := by
  have h0 := i.dir.code_lt; have h1 := i.impl.code_lt; have h2 := i.std.code_lt
  simp only [encode, Instr.matchWord, BitVec.toNat_ofNat]
  omega

theorem dirField_encode (i : Instr) : dirField (encode i).cmd = i.dir.code := by
  have h0 := i.dir.code_lt
  simp only [dirField, encode_cmd_toNat]; omega

theorem implField_encode (i : Instr) : implField (encode i).cmd = i.impl.code := by
  have h0 := i.dir.code_lt; have h1 := i.impl.code_lt
  simp only [implField, encode_cmd_toNat]; omega

theorem stdField_encode (i : Instr) : stdField (encode i).cmd = i.std.code := by
  have h0 := i.dir.code_lt; have h1 := i.impl.code_lt; have h2 := i.std.code_lt
  simp only [stdField, encode_cmd_toNat]; omega

theorem reservedField_encode (i : Instr) : reservedField (encode i).cmd = 0 := by
  have h0 := i.dir.code_lt; have h1 := i.impl.code_lt; have h2 := i.std.code_lt
  simp only [reservedField, encode_cmd_toNat]; omega

/-- What a successful decode says: no reserved bit, the three fields and the descriptor are those of the command, and the
configuration has it. -/
theorem decode_ok {cfg : Config} {w : CommandWords} {i : Instr} (h : decode cfg w = .ok i) :
    reservedField w.cmd = 0 ∧ dirField w.cmd = i.dir.code ∧ implField w.cmd = i.impl.code
      ∧ stdField w.cmd = i.std.code ∧ w.desc = i.desc ∧ i.wellFormed cfg = true := by
  obtain ⟨cmd, d⟩ := w
  simp only [decode] at h
  split at h
  · rename_i hr
    split at h
    · cases h
    · rename_i impl hi
      split at h
      · cases h
      · rename_i std hs
        split at h
        · rename_i hw
          obtain rfl := Except.ok.inj h
          refine ⟨hr, ?_, ?_, ?_, by simp, hw⟩
          · rw [Instr.dir_ofParts, code_dirOf (n := dirField cmd) (Nat.mod_lt _ (by decide))]
          · rw [Instr.impl_ofParts]; exact implOf_eq_some hi
          · rw [Instr.std_ofParts]; exact stdOf_eq_some hs
        · cases h
  · cases h

end Sys2Proof
end

