-- ==== Sys2Proof/Laws/Lanes.lean ====
section
/-! SUPPORT. The lane operations and the rows of the vector datapath, one lane at a time. -/

namespace Sys2Proof.Machine

open Sys2Proof

/-! ## Lane operations -/

theorem widenLo_getElem (v : Vector Byte 16) (i : Nat) (h : i < 8) :
    (widenLo v)[i] = (v[i]'(by omega)).zeroExtend 16 := by simp [widenLo]

theorem widenHi_getElem (v : Vector Byte 16) (i : Nat) (h : i < 8) :
    (widenHi v)[i] = (v[8 + i]'(by omega)).zeroExtend 16 := by simp [widenHi]

theorem mullo16_getElem {n : Nat} (a b : Vector Half n) (i : Nat) (h : i < n) :
    (mullo16 a b)[i] = a[i] * b[i] := by simp [mullo16]

theorem add16_getElem {n : Nat} (a b : Vector Half n) (i : Nat) (h : i < n) :
    (add16 a b)[i] = a[i] + b[i] := by simp [add16]

theorem sub16_getElem {n : Nat} (a b : Vector Half n) (i : Nat) (h : i < n) :
    (sub16 a b)[i] = a[i] - b[i] := by simp [sub16]

theorem sra16_getElem {n : Nat} (a : Vector Half n) (k i : Nat) (h : i < n) :
    (sra16 a k)[i] = a[i].sshiftRight k := by simp [sra16]

theorem srl16_getElem {n : Nat} (a : Vector Half n) (k i : Nat) (h : i < n) :
    (srl16 a k)[i] = a[i] >>> k := by simp [srl16]

theorem avgu8_getElem (a b : Vector Byte 16) (i : Nat) (h : i < 16) :
    (avgu8 a b)[i] = avgLane a[i] b[i] := by simp [avgu8]

theorem pairsum16_getElem {m : Nat} (a : Vector Half (2 * m)) (j : Nat) (h : j < m) :
    (pairsum16 a)[j] = a[2 * j]'(by omega) + a[2 * j + 1]'(by omega) := by simp [pairsum16]

theorem broadcast_getElem {n : Nat} (c : Byte) (i : Nat) (h : i < n) :
    (broadcast n c)[i] = c.zeroExtend 16 := by simp [broadcast]

theorem packus_getElem_lo (a b : Vector Half 8) (i : Nat) (h : i < 8) :
    (packus a b)[i]'(by omega) = packLane a[i] := by simp [packus, h]

theorem packus_getElem_hi (a b : Vector Half 8) (i : Nat) (h : i < 8) :
    (packus a b)[8 + i]'(by omega) = packLane b[i] := by simp [packus]

/-! ## Rows -/

theorem joinVectors_getElem_lo (x y : Vector Byte 16) (i : Nat) (h : i < 16) :
    (joinVectors x y)[i]'(by omega) = x[i] := by simp [joinVectors, h]

theorem joinVectors_getElem_hi (x y : Vector Byte 16) (i : Nat) (h : i < 16) :
    (joinVectors x y)[16 + i]'(by omega) = y[i] := by simp [joinVectors]

theorem joinHalves_getElem_lo (x y : Vector Half 8) (i : Nat) (h : i < 8) :
    (joinHalves x y)[i]'(by omega) = x[i] := by simp [joinHalves, h]

theorem joinHalves_getElem_hi (x y : Vector Half 8) (i : Nat) (h : i < 8) :
    (joinHalves x y)[8 + i]'(by omega) = y[i] := by simp [joinHalves]

theorem widenGroup_getElem (v : Vector Byte 32) (g : Fin 4) (i : Nat) (h : i < 8) :
    (widenGroup v g)[i] = (v[8 * g.val + i]'(by omega)).zeroExtend 16 := by
  obtain ⟨g, hg⟩ := g
  obtain rfl | rfl | rfl | rfl : g = 0 ∨ g = 1 ∨ g = 2 ∨ g = 3 := by omega
  · simp [widenGroup, widenLo, rowLo]
  · simp [widenGroup, widenHi, rowLo]
  · simp [widenGroup, widenLo, rowHi]
  · simp only [widenGroup, widenHi, rowHi, Vector.getElem_ofFn]
    congr 2
    omega

theorem joinGroups_getElem (f : Fin 4 → Vector Half 8) (i : Nat) (h : i < 32) :
    (joinGroups f)[i] = (f ⟨i / 8, by omega⟩)[i % 8]'(by omega) := by simp [joinGroups]

theorem laneGroup_getElem {n : Nat} (a : Vector Half (8 * n)) (g : Fin n) (i : Nat) (h : i < 8) :
    (laneGroup a g)[i] = a[8 * g.val + i]'(by omega) := by simp [laneGroup]

theorem pack16_getElem (a : Vector Half 16) (i : Nat) (h : i < 16) : (pack16 a)[i] = packLane a[i] := by
  unfold pack16
  by_cases hi : i < 8
  · rw [packus_getElem_lo _ _ i hi, laneGroup_getElem (n := 2) _ _ i hi]
    simp
  · obtain ⟨j, rfl⟩ : ∃ j, i = 8 + j := ⟨i - 8, by omega⟩
    rw [packus_getElem_hi _ _ j (by omega), laneGroup_getElem (n := 2) _ _ j (by omega)]
    simp

theorem pack32_getElem (a : Vector Half 32) (i : Nat) (h : i < 32) : (pack32 a)[i] = packLane a[i] := by
  unfold pack32
  by_cases h1 : i < 16
  · rw [joinVectors_getElem_lo _ _ i h1]
    by_cases h2 : i < 8
    · rw [packus_getElem_lo _ _ i h2, laneGroup_getElem (n := 4) _ _ i h2]; simp
    · obtain ⟨j, rfl⟩ : ∃ j, i = 8 + j := ⟨i - 8, by omega⟩
      rw [packus_getElem_hi _ _ j (by omega), laneGroup_getElem (n := 4) _ _ j (by omega)]; simp
  · obtain ⟨k, rfl⟩ : ∃ k, i = 16 + k := ⟨i - 16, by omega⟩
    rw [joinVectors_getElem_hi _ _ k (by omega)]
    by_cases h2 : k < 8
    · rw [packus_getElem_lo _ _ k h2, laneGroup_getElem (n := 4) _ _ k h2]; simp
    · obtain ⟨j, rfl⟩ : ∃ j, k = 8 + j := ⟨k - 8, by omega⟩
      rw [packus_getElem_hi _ _ j (by omega), laneGroup_getElem (n := 4) _ _ j (by omega)]
      congr 2
      simp
      omega

theorem duplicate_getElem (o : Vector Half 16) (i : Nat) (h : i < 32) :
    (duplicate o)[i] = o[i / 2]'(by omega) := by simp [duplicate]

/-! ## Loads and stores -/

theorem loadVector_getElem (m : Memory) (a i : Nat) (h : i < 16) : (loadVector m a)[i] = m.read (a + i) := by
  simp [loadVector]

theorem loadRow32_getElem (m : Memory) (a i : Nat) (h : i < 32) : (loadRow32 m a)[i] = m.read (a + i) := by
  unfold loadRow32
  by_cases h1 : i < 16
  · rw [joinVectors_getElem_lo _ _ i h1, loadVector_getElem _ _ _ h1]
  · obtain ⟨j, rfl⟩ : ∃ j, i = 16 + j := ⟨i - 16, by omega⟩
    rw [joinVectors_getElem_hi _ _ j (by omega), loadVector_getElem _ _ _ (by omega), Nat.add_assoc]

theorem loadRow96_getElem (m : Memory) (a i : Nat) (h : i < 96) : (loadRow96 m a)[i] = m.read (a + i) := by
  simp only [loadRow96, loadVector, Vector.getElem_ofFn]
  congr 1
  omega

/-- The cells of a 16-byte store. -/
theorem mem_storeVector {a : Nat} {v : Vector Byte 16} {c : Host.Cell} :
    c ∈ storeVector a v ↔ ∃ (i : Nat) (h : i < 16), c = (a + i, v[i]) := by
  simp only [storeVector, List.mem_map, List.mem_finRange, true_and]
  constructor
  · rintro ⟨i, rfl⟩; exact ⟨i.val, i.isLt, rfl⟩
  · rintro ⟨i, h, rfl⟩; exact ⟨⟨i, h⟩, rfl⟩

/-- The cells of a 32-byte row. -/
theorem mem_storeRow32 {a : Nat} {v : Vector Byte 32} {c : Host.Cell} :
    c ∈ storeRow32 a v ↔ ∃ (i : Nat) (h : i < 32), c = (a + i, v[i]) := by
  simp only [storeRow32, List.mem_append, mem_storeVector, rowLo, rowHi, Vector.getElem_ofFn]
  constructor
  · rintro (⟨i, h, rfl⟩ | ⟨i, h, rfl⟩)
    · exact ⟨i, by omega, rfl⟩
    · exact ⟨16 + i, by omega, by rw [Nat.add_assoc]⟩
  · rintro ⟨i, h, rfl⟩
    by_cases h1 : i < 16
    · exact .inl ⟨i, h1, rfl⟩
    · obtain ⟨j, rfl⟩ : ∃ j, i = 16 + j := ⟨i - 16, by omega⟩
      exact .inr ⟨j, by omega, by rw [Nat.add_assoc]⟩

/-- The cells of a 96-byte row. -/
theorem mem_storeRow96 {a : Nat} {v : Vector Byte 96} {c : Host.Cell} :
    c ∈ storeRow96 a v ↔ ∃ (i : Nat) (h : i < 96), c = (a + i, v[i]) := by
  simp only [storeRow96, List.mem_flatMap, List.mem_finRange, true_and, mem_storeVector, Vector.getElem_ofFn]
  constructor
  · rintro ⟨j, i, h, rfl⟩
    exact ⟨16 * j.val + i, by omega, by rw [Nat.add_assoc]⟩
  · rintro ⟨i, h, rfl⟩
    refine ⟨⟨i / 16, by omega⟩, i % 16, by omega, ?_⟩
    simp only [Prod.mk.injEq]
    refine ⟨by omega, ?_⟩
    congr 1
    omega

end Sys2Proof.Machine
end

