-- ==== Sys2Proof/Laws/PerInstr.lean ====
section
/-! SUPPORT. Statements for all commands, one lemma for each. -/

/-- R82: the CMD word of the command under the mask of the opcode table is the `match` word of the command's row, whatever its
standard and its operands. -/
def Sys2Proof.Laws.TableMatch.Statement : Sys2Proof.Instr → Prop
  | .rgb2yuvS std d => (Sys2Proof.encode (.rgb2yuvS std d)).cmd &&& Sys2Proof.Instr.maskWord = 0x00000000
  | .yuv2rgbS std d => (Sys2Proof.encode (.yuv2rgbS std d)).cmd &&& Sys2Proof.Instr.maskWord = 0x00000001
  | .rgb2yuvVu std d => (Sys2Proof.encode (.rgb2yuvVu std d)).cmd &&& Sys2Proof.Instr.maskWord = 0x00000002
  | .yuv2rgbVu std d => (Sys2Proof.encode (.yuv2rgbVu std d)).cmd &&& Sys2Proof.Instr.maskWord = 0x00000003
  | .rgb2yuvVa std d => (Sys2Proof.encode (.rgb2yuvVa std d)).cmd &&& Sys2Proof.Instr.maskWord = 0x00000004
  | .yuv2rgbVa std d => (Sys2Proof.encode (.yuv2rgbVa std d)).cmd &&& Sys2Proof.Instr.maskWord = 0x00000005

theorem Sys2Proof.Laws.TableMatch.rgb2yuvS (std : Sys2Proof.Std) (d : Sys2Proof.Desc) :
    Sys2Proof.Laws.TableMatch.Statement (.rgb2yuvS std d) := by
  show BitVec.ofNat 32 (0 + 8 * std.code) &&& Sys2Proof.Instr.maskWord = 0#32
  cases std <;> decide

theorem Sys2Proof.Laws.TableMatch.yuv2rgbS (std : Sys2Proof.Std) (d : Sys2Proof.Desc) :
    Sys2Proof.Laws.TableMatch.Statement (.yuv2rgbS std d) := by
  show BitVec.ofNat 32 (1 + 8 * std.code) &&& Sys2Proof.Instr.maskWord = 1#32
  cases std <;> decide

theorem Sys2Proof.Laws.TableMatch.rgb2yuvVu (std : Sys2Proof.Std) (d : Sys2Proof.Desc) :
    Sys2Proof.Laws.TableMatch.Statement (.rgb2yuvVu std d) := by
  show BitVec.ofNat 32 (2 + 8 * std.code) &&& Sys2Proof.Instr.maskWord = 2#32
  cases std <;> decide

theorem Sys2Proof.Laws.TableMatch.yuv2rgbVu (std : Sys2Proof.Std) (d : Sys2Proof.Desc) :
    Sys2Proof.Laws.TableMatch.Statement (.yuv2rgbVu std d) := by
  show BitVec.ofNat 32 (3 + 8 * std.code) &&& Sys2Proof.Instr.maskWord = 3#32
  cases std <;> decide

theorem Sys2Proof.Laws.TableMatch.rgb2yuvVa (std : Sys2Proof.Std) (d : Sys2Proof.Desc) :
    Sys2Proof.Laws.TableMatch.Statement (.rgb2yuvVa std d) := by
  show BitVec.ofNat 32 (4 + 8 * std.code) &&& Sys2Proof.Instr.maskWord = 4#32
  cases std <;> decide

theorem Sys2Proof.Laws.TableMatch.yuv2rgbVa (std : Sys2Proof.Std) (d : Sys2Proof.Desc) :
    Sys2Proof.Laws.TableMatch.Statement (.yuv2rgbVa std d) := by
  show BitVec.ofNat 32 (5 + 8 * std.code) &&& Sys2Proof.Instr.maskWord = 5#32
  cases std <;> decide
end

