-- ==== Sys2Proof/Laws/Registers.lean ====
section
/-! SUPPORT. What each host operation and reset can do (R210 to R214, R245), one lemma for each. -/

namespace Sys2Proof.Machine

open Sys2Proof

/-! ## Where the registers are (R21 to R25) -/

@[simp] theorem targetOf_ctrl : targetOf RegTarget.ctrl.offset = some .ctrl := rfl

@[simp] theorem targetOf_reg (r : RegName) : targetOf r.offset = some (.reg r) := by cases r <;> rfl

theorem offset_reg_aligned (r : RegName) : r.offset % 4 = 0 := by cases r <;> rfl

/-! ## The operations -/

/-- `START` (R212): if it begins a command, the engine was idle, every register was written, and the ten words are a
command whose preconditions hold. -/
theorem startOp_next {cfg : Config} {s t : State} (h : startOp cfg s = .next t) :
    s.busy = false ∧ s.regs.allWritten = true
      ∧ ∃ i, decode cfg s.regs.words = .ok i ∧ violation cfg i s.backing = none
          ∧ t = s.begin s.regs.words i := by
  unfold startOp at h
  split at h
  · cases h
  · split at h
    · cases h
    · split at h
      · cases h
      · split at h
        · cases h
        · rename_i i hi
          split at h
          · cases h
          · rename_i hv
            cases h
            exact ⟨by simp_all, by simp_all, i, hi, hv, rfl⟩

/-- `START` of a command whose preconditions hold, on an idle block without debug assertions. -/
theorem startOp_of_legal {cfg : Config} {s : State} {i : Instr} (hc : cfg.debugAssert = false)
    (hb : s.busy = false) (hw : s.regs.allWritten = true) (hi : decode cfg s.regs.words = .ok i)
    (hv : violation cfg i s.backing = none) : startOp cfg s = .next (s.begin s.regs.words i) := by
  simp [startOp, hc, hb, hw, hi, hv]

/-- `WR` (R210): if it answers a next state, it was an aligned word of an offset that names something, and it stored a
register of an idle block, or started a command, or had no effect. -/
theorem writeOp_next {cfg : Config} {offset bytes : Nat} {value : Word} {s t : State}
    (h : writeOp cfg offset bytes value s = .next t) :
    bytes = 4 ∧ offset % 4 = 0 ∧
      ((∃ r, targetOf offset = some (.reg r) ∧ s.busy = false ∧ t = { s with regs := s.regs.set r value })
        ∨ (targetOf offset = some .ctrl ∧ value = 1 ∧ startOp cfg s = .next t)
        ∨ (targetOf offset = some .ctrl ∧ value = 0 ∧ t = s)
        ∨ (targetOf offset = some .status ∧ t = s)
        ∨ (∃ std k, targetOf offset = some (.lutFwd std k) ∧ t = s)
        ∨ (∃ std k, targetOf offset = some (.lutInv std k) ∧ t = s)) := by
  unfold writeOp at h
  split at h
  · cases h
  · rename_i hal
    refine ⟨by omega, by omega, ?_⟩
    split at h
    · cases h
    · rename_i tgt htgt
      unfold writeTarget at h
      split at h
      · unfold writeCtrl at h
        split at h
        · cases h
        · rename_i h2
          split at h
          · rename_i h1
            exact .inr (.inl ⟨htgt, BitVec.eq_of_toNat_eq (by simp; omega), h⟩)
          · rename_i h1
            cases h
            exact .inr (.inr (.inl ⟨htgt, BitVec.eq_of_toNat_eq (by simp; omega), rfl⟩))
      · cases h; exact .inr (.inr (.inr (.inl ⟨htgt, rfl⟩)))
      · rename_i r
        split at h
        · cases h
        · cases h; exact .inl ⟨r, htgt, by simp_all, rfl⟩
      · rename_i std k
        cases h; exact .inr (.inr (.inr (.inr (.inl ⟨std, k, htgt, rfl⟩))))
      · rename_i std k
        cases h; exact .inr (.inr (.inr (.inr (.inr ⟨std, k, htgt, rfl⟩))))

/-- `RD` (R35, R211) changes only what the host has received and may touch, and the count of free values. -/
theorem readTarget_frame (tgt : RegTarget) (s : State) :
    (readTarget tgt s).regs = s.regs ∧ (readTarget tgt s).busy = s.busy ∧ (readTarget tgt s).done = s.done
      ∧ (readTarget tgt s).latch = s.latch ∧ (readTarget tgt s).mem = s.mem
      ∧ (readTarget tgt s).backing = s.backing ∧ (readTarget tgt s).inputs = s.inputs := by
  cases tgt <;> simp only [readTarget] <;> try exact ⟨rfl, rfl, rfl, rfl, rfl, rfl, rfl⟩
  split <;> exact ⟨rfl, rfl, rfl, rfl, rfl, rfl, rfl⟩

theorem readOp_next {offset bytes : Nat} {s t : State} (h : readOp offset bytes s = .next t) :
    bytes = 4 ∧ offset % 4 = 0 ∧ ∃ tgt, targetOf offset = some tgt ∧ t = readTarget tgt s := by
  unfold readOp at h
  split at h
  · cases h
  · refine ⟨by omega, by omega, ?_⟩
    split at h
    · cases h
    · rename_i tgt htgt
      cases h
      exact ⟨tgt, htgt, rfl⟩

/-- A read makes no command own its footprints: it can only give them back (R252). -/
theorem readTarget_owned_subset {tgt : RegTarget} {s : State} {i : Instr} (h : i ∈ (readTarget tgt s).owned) :
    i ∈ s.owned := by
  cases tgt with
  | status =>
    simp only [readTarget, State.observeDone_owned, State.receive_owned] at h
    split at h
    · cases h
    · exact h
  | reg r =>
    simp only [readTarget] at h
    split at h <;> exact h
  | ctrl | lutFwd _ _ | lutInv _ _ => exact h

theorem ownsAny_eq_false_iff (s : State) (a : Nat) :
    s.ownsAny a = false ↔ ∀ i ∈ s.owned, inReadFP i a = false ∧ inWriteFP i a = false := by
  simp [State.ownsAny]

theorem ownsWritten_eq_false_iff (s : State) (a : Nat) :
    s.ownsWritten a = false ↔ ∀ i ∈ s.owned, inWriteFP i a = false := by
  simp [State.ownsWritten]

/-- Another agent's store (R64): if it answers a next state, the address exists, it is in no footprint of a command whose
completion has not been observed, and only that byte is written. -/
theorem memWriteOp_next {a : Nat} {v : Byte} {s t : State} (h : memWriteOp a v s = .next t) :
    a < Config.spaceSize ∧ (∀ i ∈ s.owned, inReadFP i a = false ∧ inWriteFP i a = false)
      ∧ t = { s with mem := s.mem.write a v } := by
  unfold memWriteOp at h
  split at h
  · cases h
  · split at h
    · cases h
    · rename_i ho
      cases h
      exact ⟨by omega, (ownsAny_eq_false_iff s a).1 (by simpa using ho), rfl⟩

/-- Another agent's load (R64). -/
theorem memReadOp_next {a : Nat} {s t : State} (h : memReadOp a s = .next t) :
    a < Config.spaceSize ∧ (∀ i ∈ s.owned, inWriteFP i a = false) ∧ t = s.receive (.byte (s.mem.read a)) := by
  unfold memReadOp at h
  split at h
  · cases h
  · split at h
    · cases h
    · rename_i ho
      cases h
      exact ⟨by omega, (ownsWritten_eq_false_iff s a).1 (by simpa using ho), rfl⟩

/-- The host's handing over of memory (R73): what a command owns stays handed over. -/
theorem lendOp_next {b : Backing} {s t : State} (h : lendOp b s = .next t) :
    (∀ i ∈ s.owned, backedOk b i = true) ∧ t = { s with backing := b } := by
  unfold lendOp at h
  split at h
  · rename_i ho
    cases h
    exact ⟨List.all_eq_true.1 ho, rfl⟩
  · cases h

/-- Reset (R245): the registers and the engine's status, whatever was running. -/
theorem resetOp_frame (s : State) :
    (resetOp s).regs = RegFile.reset ∧ (resetOp s).busy = false ∧ (resetOp s).done = false
      ∧ (resetOp s).latch = none ∧ (resetOp s).backing = s.backing ∧ (resetOp s).inputs = s.inputs
      ∧ (resetOp s).received = s.received ∧ (resetOp s).owned = [] := by
  unfold resetOp
  split <;> exact ⟨rfl, rfl, rfl, rfl, rfl, rfl, rfl, rfl⟩

/-- The running command of a BUSY state is the one its latched words decode to (R28). -/
theorem running_eq_some_iff {s : State} {i : Instr} :
    s.running = some i ↔ s.busy = true ∧ ∃ w, s.latch = some w ∧ decode Config.hardware w = .ok i := by
  unfold State.running
  cases s.busy
  · simp
  · cases s.latch with
    | none => simp
    | some w =>
      cases h : decode Config.hardware w <;> simp [h]

end Sys2Proof.Machine
end

