-- ==== Sys2Proof/Laws/Step.lean ====
section
/-! SUPPORT. What one step can do: the engine's turn, or the host's next operation. -/

namespace Sys2Proof.Machine

open Sys2Proof

/-- The engine runs what it latched (R213). -/
theorem runLatched_next {s t : State} (h : runLatched s = .next t) :
    ∃ w i, s.latch = some w ∧ decode Config.hardware w = .ok i ∧ exec i s = .next t := by
  unfold runLatched State.fetched at h
  split at h
  · cases h
  · rename_i w hw
    split at h
    · cases h
    · rename_i i hi
      exact ⟨w, i, hw, hi, h⟩

theorem runLatched_of_latch {s : State} {w : CommandWords} {i : Instr} (hl : s.latch = some w)
    (hi : decode Config.hardware w = .ok i) : runLatched s = exec i s := by
  simp [runLatched, State.fetched, hl, hi]

theorem runLatched_of_running {s : State} {i : Instr} (h : s.running = some i) : runLatched s = exec i s := by
  obtain ⟨-, w, hl, hi⟩ := running_eq_some_iff.1 h
  exact runLatched_of_latch hl hi

/-- The host's operation of a step that answers a next state: `s0` is the state without it. -/
inductive HostEffect (op : HostOp) (rest : List HostOp) (s : State) (t : State) : Prop where
  /-- a command was completed (R213) -/
  | ran (s0 : State) (h0 : s0 = s ∨ s0 = { s with inputs := rest }) (hb : s.busy = true)
      (h : runLatched s0 = .next t)
  /-- a register was written (R210) -/
  | wrote (r : RegName) (offset : Nat) (v : Word) (hop : op = .wr offset 4 v)
      (ht : targetOf offset = some (.reg r)) (hb : s.busy = false)
      (h : t = { s with inputs := rest, regs := s.regs.set r v })
  /-- a command was started (R212) -/
  | started (offset : Nat) (hop : op = .wr offset 4 1) (ht : targetOf offset = some .ctrl)
      (h : startOp Config.hardware { s with inputs := rest } = .next t)
  /-- a read returned (R211) -/
  | read (tgt : RegTarget) (offset : Nat) (hop : op = .rd offset 4) (ht : targetOf offset = some tgt)
      (h : t = readTarget tgt { s with inputs := rest })
  /-- another agent stored a byte (R64) -/
  | stored (a : Nat) (v : Byte) (hop : op = .memWrite a v)
      (h : memWriteOp a v { s with inputs := rest } = .next t)
  /-- another agent loaded a byte (R64) -/
  | loaded (a : Nat) (hop : op = .memRead a) (h : memReadOp a { s with inputs := rest } = .next t)
  /-- the host handed over other memory (R73) -/
  | lent (b : Backing) (hop : op = .lend b) (ho : ∀ i ∈ s.owned, backedOk b i = true)
      (h : t = { s with inputs := rest, backing := b })
  /-- reset (R245) -/
  | reset (hop : op = .reset) (h : t = resetOp { s with inputs := rest })
  /-- a WAIT ended (R214) -/
  | waited (hop : op = .wait) (hb : s.busy = false) (hd : s.done = true)
      (h : t = { s.observeDone with inputs := rest })
  /-- nothing of the block or of memory changed -/
  | idle (h : t = { s with inputs := rest } ∨ t = s)

/-- Everything a host operation can do. -/
theorem hostTurn_next {op : HostOp} {rest : List HostOp} {s t : State} (h : hostTurn op rest s = .next t) :
    HostEffect op rest s t := by
  cases op with
  | wr offset bytes value =>
    obtain ⟨rfl, -, hw⟩ := writeOp_next h
    rcases hw with ⟨r, ht, hb, hw⟩ | ⟨ht, rfl, hw⟩ | ⟨-, -, hw⟩ | ⟨-, hw⟩ | ⟨-, -, -, hw⟩ | ⟨-, -, -, hw⟩
    · exact .wrote r offset value rfl ht hb hw
    · exact .started offset rfl ht hw
    all_goals exact .idle (.inl hw)
  | rd offset bytes =>
    obtain ⟨rfl, -, tgt, ht, h⟩ := readOp_next h
    exact .read tgt offset rfl ht h
  | wait =>
    simp only [hostTurn, waitOp] at h
    split at h
    · exact .ran s (.inl rfl) (by assumption) h
    · split at h
      · cases h; exact .waited rfl (by simp_all) (by assumption) rfl
      · cases h; exact .idle (.inr rfl)
  | memWrite a v => exact .stored a v rfl h
  | memRead a => exact .loaded a rfl h
  | lend b =>
    obtain ⟨ho, h⟩ := lendOp_next h
    exact .lent b rfl ho h
  | reset => cases h; exact .reset rfl rfl
  | finish =>
    simp only [hostTurn, engineTurn] at h
    split at h
    · exact .ran _ (.inr rfl) (by assumption) h
    · cases h; exact .idle (.inl rfl)

/-- Everything a step can do. -/
theorem step_next {s t : State} (h : step s = .next t) :
    (s.inputs = [] ∧ s.busy = true ∧ runLatched s = .next t)
      ∨ (s.inputs = [] ∧ s.busy = false ∧ t = s)
      ∨ ∃ op rest, s.inputs = op :: rest ∧ HostEffect op rest s t := by
  unfold step advance at h
  split at h
  · rename_i hin
    unfold engineTurn at h
    split at h
    · exact .inl ⟨hin, by assumption, h⟩
    · cases h; exact .inr (.inl ⟨hin, by simp_all, rfl⟩)
  · rename_i op rest hin
    exact .inr (.inr ⟨op, rest, hin, hostTurn_next h⟩)

theorem step_nil {s : State} (h : s.inputs = []) : step s = engineTurn s := by simp [step, advance, h]

theorem step_cons {s : State} {op : HostOp} {rest : List HostOp} (h : s.inputs = op :: rest) :
    step s = hostTurn op rest s := by simp [step, advance, h]

end Sys2Proof.Machine
end

