-- ==== Sys2Proof/Tests/Slice0.lean ====
section
/-! SUPPORT. Tests, every expected value from spec/95_test_vectors.md, and for every obligation with hypotheses a witness:
states and operands that meet them. -/

namespace Sys2Proof.Tests

-- One theorem after the other: each of the threads that would wait for the kernel's evaluations reserves a stack.
set_option Elab.async false

open Sys2Proof Sys2Proof.Machine

/-! ## Helpers -/

/-- Numbers as bytes. -/
def bytes (l : List Nat) : List Byte := l.map (BitVec.ofNat 8)

/-- Memory with each row of bytes stored from its address on. -/
def memOf (rows : List (Nat × List Byte)) : Memory :=
  rows.foldl (fun m p => m.writeAll (p.2.zipIdx.map fun x => (p.1 + x.2, x.1))) []

/-- The `n` bytes of memory from an address on. -/
def dump (m : Memory) (a n : Nat) : List Byte := (List.range n).map fun k => m.read (a + k)

/-- The outcome is a next state in which the named rows of memory hold the given bytes. -/
def leaves (o : Host.Outcome State Fault Refusal) (rows : List (Nat × List Byte)) : Bool :=
  match o with
  | .next t => rows.all fun p => dump t.mem p.1 p.2.length == p.2
  | .fault _ => false
  | .refused _ => false

/-- A check that passes makes the command legal. -/
theorem legal_of_check {i : Instr} {s : State} (h : violation Config.hardware i s.backing = none) : Legal i s := by
  obtain ⟨h1, h2, h3, h4, h5, h6, -, h7⟩ := (violation_eq_none_iff Config.hardware i s.backing).1 h
  obtain ⟨a1, a2, a3⟩ := (stridesOk_iff i).1 h2
  obtain ⟨d1, d2, d3, d4, d5, d6⟩ := (disjointOk_iff i).1 h5
  simp only [rangeOk, Bool.and_eq_true, Plane.below_iff] at h6
  obtain ⟨⟨⟨x1, x2⟩, x3⟩, x4⟩ := h6
  refine ⟨fun _ => rfl, a1, a2, a3, fun hi a ha => ?_, fun ht => ?_, d1, d2, d3, d4, d5, d6, fun a ha => ?_, (backedOk_iff _ i).1 h7,
    fun w _ => w.isLt⟩
  · simp only [alignedOk, hi, List.all_eq_true] at h3
    simpa using h3 a ha
  · exact absurd ht (by decide)
  · rw [inFootprint_iff, inRgbSet_iff, inYSet_iff, inUSet_iff, inVSet_iff] at ha
    rcases ha with h | h | h | h
    exacts [x1 a h, x2 a h, x3 a h, x4 a h]

/-- A command whose check passes answers a next state. -/
theorem next_of_check {i : Instr} {s : State} (h : violation Config.hardware i s.backing = none) :
    ∃ t, exec i s = .next t := ⟨_, exec_next_iff.2 ⟨h, rfl⟩⟩

/-! ## The programs of section 3 -/

/-- The descriptor of programs P1 and P2. -/
def descP1 : Desc := ⟨2, 2, 0x1000, 8, 0x2000, 0x3000, 0x3100, 4, 1⟩

/-- The descriptor of program P3: an odd width and height. -/
def descP3 : Desc := ⟨3, 3, 0x1000, 12, 0x2000, 0x3000, 0x3100, 4, 2⟩

/-- The descriptor of program P4. -/
def descP4 : Desc := ⟨40, 2, 0x1000, 128, 0x2000, 0x3000, 0x3100, 48, 32⟩

/-- The descriptor of program P6. -/
def descP6 : Desc := ⟨34, 2, 0x1007, 104, 0x2001, 0x3003, 0x3105, 40, 20⟩

/-- Program P4's buffers under a width of 32 and a height of 4, for the case (b) of section 2.8 and for shards. -/
def descSquare : Desc := ⟨32, 4, 0x1000, 96, 0x2000, 0x3000, 0x3100, 32, 16⟩

/-- A state after reset with the given memory and host operations. -/
def withMem (m : Memory) (ops : List HostOp) : State := { State.reset with mem := m, inputs := ops }

/-- Start memory of P1. -/
def memP1 : Memory := memOf
  [(0x1000, bytes [0xFF, 0x00, 0x00, 0x00, 0xFF, 0x00, 0xEE, 0xEE, 0x00, 0x00, 0xFF, 0xFF, 0xFF, 0xFF, 0xEE, 0xEE]),
   (0x2000, bytes [0xEE, 0xEE, 0xEE, 0xEE, 0xEE, 0xEE, 0xEE, 0xEE]), (0x3000, bytes [0xEE, 0xEE]),
   (0x3100, bytes [0xEE, 0xEE])]

/-- Start memory of P2. -/
def memP2 : Memory := memOf
  [(0x1000, List.replicate 16 0xEE), (0x2000, bytes [0xEB, 0x10, 0xEE, 0xEE, 0xFF, 0x00, 0xEE, 0xEE]),
   (0x3000, bytes [0xF0, 0xEE]), (0x3100, bytes [0x10, 0xEE])]

/-- Start memory of P3. -/
def memP3 : Memory := memOf
  [(0x1000, bytes [0x0A, 0xC8, 0x32, 0x32, 0xAA, 0x3B, 0x5A, 0x8C, 0x44, 0xEE, 0xEE, 0xEE]),
   (0x100C, bytes [0x0F, 0xCF, 0x6E, 0x37, 0xB1, 0x77, 0x5F, 0x93, 0x80, 0xEE, 0xEE, 0xEE]),
   (0x1018, bytes [0x14, 0xD6, 0xAA, 0x3C, 0xB8, 0xB3, 0x64, 0x9A, 0xBC, 0xEE, 0xEE, 0xEE]),
   (0x2000, List.replicate 12 0xEE), (0x3000, List.replicate 4 0xEE), (0x3100, List.replicate 4 0xEE)]

/-- A row of P4, less its last eight pixels, by the formula the program gives. -/
def rowP4 (y : Nat) : List Byte :=
  (List.range 32).flatMap fun x => bytes [8 * x + 3 * y, 255 + 256 - 5 * x - y, x * x + 17 * y]

/-- Start memory of P4. -/
def memP4 : Memory := memOf
  [(0x1000, rowP4 0), (0x1080, rowP4 1), (0x2020, bytes [0xEE, 0xEE]), (0x3010, bytes [0xEE])]

/-- What the first command of P4 leaves: ends of the Y rows, U, V, and bytes beside them. -/
def endP4 : List (Nat × List Byte) :=
  [(0x2000, bytes [0x90, 0x90, 0x8F, 0x8F, 0x90, 0x90, 0x90, 0x91]), (0x201C, bytes [0x84, 0x8A, 0x8F, 0x95]),
   (0x2020, bytes [0xEE, 0xEE]), (0x2030, bytes [0x91, 0x91, 0x91, 0x91, 0x91, 0x91, 0x92, 0x93]),
   (0x3000, bytes [0x39, 0x3C, 0x43, 0x4D, 0x5B, 0x6C, 0x81, 0x99, 0x44, 0x64, 0x86, 0x75, 0x66, 0x93, 0x54, 0x88]),
   (0x3010, bytes [0xEE]),
   (0x3100, bytes [0x25, 0x2F, 0x39, 0x42, 0x4B, 0x52, 0x5A, 0x61, 0x79, 0x7F, 0x84, 0x92, 0x9E, 0xA2, 0xB7, 0xB9])]

/-- Start memory of P6, by the formulas the program gives. -/
def memP6 : Memory := memOf
  [(0x2001, bytes ((List.range 34).map fun x => 7 * x + 3)),
   (0x2029, bytes ((List.range 34).map fun x => 7 * x + 13 + 3)),
   (0x3003, bytes ((List.range 17).map fun j => 16 * j + 5)),
   (0x3105, bytes ((List.range 17).map fun j => 255 - 13 * j)),
   (0x1067, bytes [0xEE, 0xEE])]

/-! ## WellFormed: what has no encoding in a configuration is refused -/

/-- This hardware without `HAS_VECTOR` (R199). -/
def noVector : Config := { Config.hardware with hasVector := false }

theorem test_illFormed_vector_commands :
    (Instr.rgb2yuvVu .bt601 descP4).wellFormed noVector = false ∧
    (Instr.yuv2rgbVu .bt601 descP4).wellFormed noVector = false ∧
    (Instr.rgb2yuvVa .bt601 descP4).wellFormed noVector = false ∧
    (Instr.yuv2rgbVa .bt601 descP4).wellFormed noVector = false ∧
    (Instr.rgb2yuvS .bt601 descP4).wellFormed noVector = true := by decide

/-! ## Decoding, from the words of section 2.9 and the bit diagram of R81 -/

theorem test_decode_rgb2yuvS :
    decode Config.hardware ⟨0b00000000000000000000000000010000#32, descP1⟩ = .ok (.rgb2yuvS .bt709 descP1) := by rfl

theorem test_decode_yuv2rgbS :
    decode Config.hardware ⟨0b00000000000000000000000000001001#32, descP1⟩ = .ok (.yuv2rgbS .bt601 descP1) := by rfl

theorem test_decode_rgb2yuvVu :
    decode Config.hardware ⟨0b00000000000000000000000000010010#32, descP1⟩ = .ok (.rgb2yuvVu .bt709 descP1) := by rfl

theorem test_decode_yuv2rgbVu :
    decode Config.hardware ⟨0b00000000000000000000000000000011#32, descP1⟩ = .ok (.yuv2rgbVu .fullRange descP1) := by rfl

theorem test_decode_rgb2yuvVa :
    decode Config.hardware ⟨0b00000000000000000000000000001100#32, descP1⟩ = .ok (.rgb2yuvVa .bt601 descP1) := by rfl

theorem test_decode_yuv2rgbVa :
    decode Config.hardware ⟨0b00000000000000000000000000010101#32, descP1⟩ = .ok (.yuv2rgbVa .bt709 descP1) := by rfl

/-- R85: a reserved `IMPL`, a reserved `STD`, and bits of 31:5, and the vector commands where there are none. -/
theorem test_decode_reserved :
    decode Config.hardware ⟨0x16, descP1⟩ = .error .reservedImpl ∧
    decode Config.hardware ⟨0x18, descP1⟩ = .error .reservedStd ∧
    decode Config.hardware ⟨0x20, descP1⟩ = .error .reservedBits ∧
    decode Config.hardware ⟨0x80000000, descP1⟩ = .error .reservedBits ∧
    decode noVector ⟨0x0A, descP1⟩ = .error .vectorAbsent ∧
    decode noVector ⟨0x0C, descP1⟩ = .error .vectorAbsent := by decide

/-- The opcode table's numbering: word 0 is CMD, word 1 is WIDTH, word 9 is UV_STRIDE. -/
theorem test_decodeTableWord :
    decodeTableWord 320 (0x09 + 2 ^ 32 * 2 + 2 ^ 288 * 7) = some (.yuv2rgbS .bt601 ⟨2, 0, 0, 0, 0, 0, 0, 0, 7⟩) ∧
    decodeTableWord 32 (0x04 + 2 ^ 32 * 2) = some (.rgb2yuvVa .fullRange ⟨0, 0, 0, 0, 0, 0, 0, 0, 0⟩) ∧
    decodeTableWord 32 0x1F = none := by decide +kernel

/-- R21 to R25, R32: the corners of the register map. -/
theorem test_targetOf :
    targetOf 0x08 = some (.reg .cmd) ∧ targetOf 0x2C = some (.reg .uvStride) ∧ targetOf 0x30 = none ∧
    targetOf 0x3C = none ∧ targetOf 0x40 = some (.lutFwd .fullRange .rw) ∧ targetOf 0x98 = some (.lutFwd .bt709 .yOffset) ∧
    targetOf 0x9C = none ∧ targetOf 0xA0 = some (.lutInv .fullRange .cbDescale) ∧
    targetOf 0xF4 = some (.lutInv .bt709 .yOffset) ∧ targetOf 0xF8 = none ∧ targetOf 0x100 = none := by decide

/-! ## Arithmetic (sections 2.2, 2.3, 2.5, 2.7) -/

/-- Section 2.2: the floor shift of a negative product, the studio chroma 15, and white. -/
theorem test_forward_pixels :
    fwdPixel (lutFwd .bt601) 255 0 0 = ⟨81, 90, 239⟩ ∧ fwdPixel (lutFwd .bt709) 0 255 255 = ⟨188, 153, 15⟩ ∧
    fwdPixel (lutFwd .fullRange) 255 254 255 = ⟨254, 128, 128⟩ ∧
    fwdPixel (lutFwd .bt709) 255 255 255 = ⟨235, 128, 128⟩ := by decide +kernel

/-- Section 2.3: the offsets, the wide luma and saturation at both ends. -/
theorem test_inverse_pixels :
    invOffsets (lutInv .bt709) 127 127 = ⟨-3, -2, -1⟩ ∧ invOffsets (lutInv .bt601) 240 16 = ⟨225, -179, -48⟩ ∧
    invLuma (lutInv .bt601) 255 = 278 ∧ invLuma (lutInv .bt709) 15 = -2 ∧
    clamp8 (-289) = 0 ∧ clamp8 256 = 255 ∧ clamp8 254 = 254 := by decide +kernel

/-- Section 2.5. -/
theorem test_decimation :
    chromaDecimate 85 93 112 120 = 102 ∧ decimate .pairwiseHFirst 3 2 1 0 = 2 ∧ decimate .pairwiseVFirst 1 0 3 0 = 1 ∧
    decimate .truncSum 3 2 1 0 = 1 := by decide +kernel

/-- Section 2.7. -/
theorem test_lanes :
    mullo16 #v[0xFFB4, 0x00FF, 300] #v[0x007F, 0x0100, 300] = #v[0xDA4C, 0xFF00, 0x5F90] ∧
    add16 #v[0xFFFF] #v[0x0001] = #v[0x0000] ∧ sub16 #v[0x0000] #v[0x0001] = #v[0xFFFF] ∧
    sra16 #v[0xDA4C, 0xFF00] 8 = #v[0xFFDA, 0xFFFF] ∧ srl16 #v[0xFF00] 8 = #v[0x00FF] ∧
    pairsum16 (m := 2) #v[90, 54, 240, 128] = #v[144, 368] ∧
    [avgLane 1 0, avgLane 255 254, avgLane 2 1] = [1, 255, 2] ∧
    [packLane (-221), packLane 17, packLane 490, packLane 256, packLane (-1)] = bytes [0, 0x11, 0xFF, 0xFF, 0] := by
  decide +kernel

/-! ## The commands, at most two for each -/

/-- P1. -/
theorem test_rgb2yuvS :
    leaves (exec (.rgb2yuvS .bt601 descP1) (withMem memP1 []))
      [(0x2000, bytes [0x51, 0x90, 0xEE, 0xEE, 0x28, 0xEB, 0xEE, 0xEE]), (0x3000, bytes [0x80, 0xEE]),
       (0x3100, bytes [0x7F, 0xEE])] = true := by decide +kernel

/-- P3: the odd row and column are not touched. -/
theorem test_rgb2yuvS_odd :
    leaves (exec (.rgb2yuvS .fullRange descP3) (withMem memP3 []))
      [(0x2000, bytes [0x7D, 0x79, 0xEE, 0xEE, 0x8A, 0x85, 0xEE, 0xEE, 0xEE, 0xEE, 0xEE, 0xEE]),
       (0x3000, bytes [0x66, 0xEE, 0xEE, 0xEE]), (0x3100, bytes [0x3A, 0xEE, 0xEE, 0xEE])] = true := by decide +kernel

/-- P2: saturation at both ends. -/
theorem test_yuv2rgbS :
    leaves (exec (.yuv2rgbS .bt709 descP1) (withMem memP2 []))
      [(0x1000, bytes [0x34, 0xFF, 0xFF, 0x00, 0x24, 0xEC, 0xEE, 0xEE, 0x4C, 0xFF, 0xFF, 0x00, 0x11, 0xD9, 0xEE, 0xEE])]
      = true := by decide +kernel

/-- Section 2.8 (c) on black pixels (section 1, S2): with `W` = 63 one vector block at odd addresses, its neighbours
untouched. -/
theorem test_rgb2yuvVu :
    leaves (exec (.rgb2yuvVu .bt601 ⟨63, 3, 0x1001, 189, 0x2003, 0x3005, 0x3107, 63, 32⟩) (withMem [] []))
      [(0x2002, bytes [0, 16, 16]), (0x2021, bytes [16, 16, 0]), (0x2042, bytes [16]), (0x2081, bytes [0]),
       (0x3004, bytes [0, 128]), (0x3014, bytes [128, 0]), (0x3107, bytes [128])] = true := by decide +kernel

/-- P4, the first command. -/
theorem test_rgb2yuvVa : leaves (exec (.rgb2yuvVa .bt601 descP4) (withMem memP4 [])) endP4 = true := by decide +kernel

/-- Section 2.8 (d): P4 with `Y_BASE` = 0x2008. -/
theorem test_rgb2yuvVa_misaligned :
    violation Config.hardware (.rgb2yuvVa .bt601 { descP4 with yBase := 0x2008 }) State.reset.backing = some .misaligned := by
  decide +kernel

/-- P6: ends of row 0, pixel 32 untouched, pixels of row 1. -/
theorem test_yuv2rgbVu :
    leaves (exec (.yuv2rgbVu .bt601 descP6) (withMem memP6 []))
      [(0x1007, bytes [0xBA, 0x00, 0x00, 0xC3, 0x00, 0x00, 0xB6, 0x00, 0x00]),
       (0x105B, bytes [0x7D, 0xDB, 0xFF, 0x85, 0xE3, 0xFF, 0x78, 0xEF, 0xFF, 0x80, 0xF7, 0xFF]),
       (0x1067, bytes [0xEE, 0xEE]), (0x1081, bytes [0xBC, 0x06, 0x00, 0xC5, 0x0F, 0x00])] = true := by decide +kernel

/-- Section 2.8 (b): every Y byte `EB`, every U and V byte `80`. -/
theorem test_yuv2rgbVa :
    leaves (exec (.yuv2rgbVa .bt601 { descSquare with height := 2 })
        (withMem (memOf [(0x2000, List.replicate 64 0xEB), (0x3000, List.replicate 16 0x80),
          (0x3100, List.replicate 16 0x80)]) []))
      [(0x1000, List.replicate 3 0xFE), (0x10BD, List.replicate 3 0xFE), (0x10C0, bytes [0])] = true := by decide +kernel

/-- P6 with CMD 0x0D: no address is a multiple of 16. -/
theorem test_yuv2rgbVa_misaligned :
    violation Config.hardware (.yuv2rgbVa .bt601 descP6) State.reset.backing = some .misaligned := by decide +kernel

/-- Section 2.11: descriptors that are refused, and two that are not. -/
theorem test_preconditions :
    let check := fun d : Desc => violation Config.hardware (.rgb2yuvS .bt601 d) State.reset.backing
    check { descP1 with rgbStride := 5 } = some .strideTooShort ∧ check { descP1 with rgbStride := 6 } = none ∧
    check { descP1 with width := 3, rgbStride := 9 } = some .strideTooShort ∧
    check { descP1 with yBase := 0x1004 } = some .buffersOverlap ∧
    check { descP1 with vBase := 0x3000 } = some .buffersOverlap ∧
    check { descP1 with yBase := 0x1006, yStride := 8 } = none ∧
    check { descP1 with yBase := 0xFFFFFFFF } = some .addressOutOfRange ∧
    violation Config.hardware (.rgb2yuvS .bt601 descP1)
      { Backing.everywhere with v := [⟨0, 0x3100⟩] } = some .notBacked := by decide +kernel

/-- R73: the Y buffer of P1 one byte too small is refused, though other buffers' memory follows; R74 in a configuration with
`DIM_BITS` = 8: a width of 256 is refused. -/
theorem test_undersized_buffer_and_narrow_dimensions :
    violation Config.hardware (.rgb2yuvS .bt601 descP1)
      { Backing.everywhere with y := [⟨0x2000, 5⟩] } = some .notBacked ∧
    violation Config.hardware (.rgb2yuvS .bt601 descP1)
      { Backing.everywhere with y := [⟨0x2000, 6⟩] } = none ∧
    violation { Config.hardware with dimBits := 8 }
      (.rgb2yuvS .bt601 ⟨0, 256, 0x1000, 0, 0x2000, 0x3000, 0x3100, 0, 0⟩) Backing.everywhere = some .dimensionTooLarge ∧
    violation { Config.hardware with dimBits := 8 } (.rgb2yuvS .bt601 descP1) Backing.everywhere = none := by
  decide +kernel

/-! ## Host operations (section 2.10), one step each -/

/-- The scalar command of P1. -/
def instrP1 : Instr := .rgb2yuvS .bt601 descP1

/-- A block whose registers hold the ten words of a command, idle. -/
def ready (i : Instr) (ops : List HostOp) : State :=
  { withMem memP1 ops with regs := RegFile.ofWords (encode i) }

/-- The same block with the command started. -/
def started (i : Instr) (ops : List HostOp) : State :=
  { ready i ops with busy := true, latch := some (encode i), owned := [i] }

/-- What a `RD` gives as the first datum. -/
def reads (o : Host.Outcome State Fault Refusal) (w : Word) : Bool :=
  match o with
  | .next t => t.received.head? == some (.word w)
  | .fault _ => false
  | .refused _ => false

/-- The outcome is this refusal. -/
def refuses (o : Host.Outcome State Fault Refusal) (r : Refusal) : Bool :=
  match o with
  | .next _ => false
  | .fault _ => false
  | .refused q => q == r

theorem test_reads :
    reads (step (withMem [] [.rd 0x04 4])) 0 = true ∧ reads (step (withMem [] [.rd 0x00 4])) 0 = true ∧
    reads (step (withMem [] [.rd 0x80 4])) 54 = true ∧ reads (step (withMem [] [.rd 0xF0 4])) 149 = true ∧
    reads (step (ready instrP1 [.rd 0x08 4])) 8 = true ∧ reads (step (started instrP1 [.rd 0x04 4])) 1 = true ∧
    reads (step { ready instrP1 [.rd 0x04 4] with done := true }) 2 = true := by decide +kernel

theorem test_refusals :
    refuses (step (withMem [] [.wr 0x00 4 1])) .descriptorNotWritten = true ∧
    refuses (step (withMem [] [.wr 0x00 4 2])) .reservedCtrlBits = true ∧
    refuses (step (withMem [] [.wr 0x30 4 0])) .reservedOffset = true ∧
    refuses (step (withMem [] [.wr 0x08 2 0])) .notAnAlignedWord = true ∧
    refuses (step (withMem [] [.rd 0x0A 4])) .notAnAlignedWord = true ∧
    refuses (step (started instrP1 [.wr 0x0C 4 4])) .busy = true ∧
    refuses (step (started instrP1 [.wr 0x00 4 1])) .busy = true ∧
    refuses (step { ready instrP1 [.wr 0x00 4 1] with
      regs := (RegFile.ofWords (encode instrP1)).set .cmd 0x1F }) (.reservedCommand .reservedImpl) = true ∧
    refuses (step (started instrP1 [.memRead 0x2000])) .footprintContended = true ∧
    refuses (step (started instrP1 [.memWrite 0x1000 0])) .footprintContended = true := by decide +kernel

/-- START, then completion, then the observation of DONE. -/
theorem test_start_finish_observe :
    step (ready instrP1 [.wr 0x00 4 1]) = .next (started instrP1 []) := by rfl

/-- The very next step after `withFetchWord` runs the placed command: P1's word by word, its descriptor all zeros here. -/
theorem test_withFetchWord :
    leaves (step ((withMem memP1 []).withFetchWord 32 0x08)) [(0x2000, bytes [0xEE, 0xEE])] = true := by decide +kernel

theorem test_reset_memory_wf : Memory.wf State.reset.mem = true ∧ Memory.wf memP1 = true := by
  decide +kernel

/-! ## Witnesses: for every obligation with hypotheses, states and operands that meet them -/

/-- The six commands on buffers that suit them, each an example of its kind. -/
def legalInstrs : List Instr :=
  [.rgb2yuvS .bt709 descP3, .yuv2rgbS .bt601 descP1, .rgb2yuvVu .fullRange descP6, .yuv2rgbVu .bt601 descP6,
   .rgb2yuvVa .bt601 descP4, .yuv2rgbVa .bt709 descSquare]

/-- P1 moved away from its own buffers. -/
def instrFar : Instr := .rgb2yuvS .bt709 ⟨2, 2, 0x5000, 8, 0x6000, 0x7000, 0x7100, 4, 1⟩

/-- A four by four image. -/
def instrFour : Instr := .yuv2rgbS .bt601 ⟨4, 4, 0x1000, 12, 0x2000, 0x3000, 0x3100, 4, 2⟩

theorem witness_LegalCommands : ∀ i ∈ legalInstrs, Legal i (withMem memP1 []) := by
  intro i h
  simp only [legalInstrs, List.mem_cons, List.not_mem_nil, or_false] at h
  rcases h with rfl | rfl | rfl | rfl | rfl | rfl <;> exact legal_of_check (by decide +kernel)

theorem witness_IllegalCommand : ¬ Legal (.rgb2yuvS .bt601 { descP1 with rgbStride := 5 }) State.reset := by
  intro h
  exact absurd h.rgbTight (by decide)

theorem witness_DecodeOfEncodeIsTheCommand :
    (Instr.rgb2yuvVa .bt709 descP4).wellFormed Config.hardware = true ∧
    (Instr.yuv2rgbS .bt601 descP1).wellFormed noVector = true := by decide

theorem witness_EncodeOfDecodeIsTheWords :
    decode noVector ⟨0x09, descP1⟩ = .ok (.yuv2rgbS .bt601 descP1) := by rfl

theorem witness_ReservedEncodingsAreRefused :
    reservedField 0x20 ≠ 0 ∧ reservedField 0x80000000 ≠ 0 ∧ implField 0x06 = 3 ∧ stdField 0x18 = 3 ∧
    noVector.hasVector = false ∧ implField 0x02 = 1 ∧ implField 0x15 = 2 := by decide

theorem witness_LutWindowReadsTheTables :
    (withMem [] [.rd 0x98 4]).inputs = [.rd (0x40 + 0x20 * Std.bt709.code + 4 * FwdField.yOffset.index) 4] ∧
    (withMem [] [.rd 0xA0 4]).inputs = [.rd (0xA0 + 0x20 * Std.fullRange.code + 4 * InvField.cbDescale.index) 4] := by
  decide

theorem witness_ClampSaturatesAndItsArgumentFits :
    (545 : Int) = invLuma (lutInv .bt709) 255 + (invOffsets (lutInv .bt709) 255 255).b ∧
    (-289 : Int) = invLuma (lutInv .bt709) 0 + (invOffsets (lutInv .bt709) 0 0).b ∧
    (506 : Int) = invLuma (lutInv .bt709) 255 + (invOffsets (lutInv .bt709) 255 255).r ∧
    (184 : Int) = invLuma (lutInv .bt709) 255 - (invOffsets (lutInv .bt709) 255 255).g := by decide +kernel

theorem witness_CommandsComplete (i : Instr) (h : i ∈ legalInstrs) :
    Memory.wf (withMem memP1 []).mem = true ∧ ∃ t, exec i (withMem memP1 []) = .next t := by
  refine ⟨by decide +kernel, ?_⟩
  simp only [legalInstrs, List.mem_cons, List.not_mem_nil, or_false] at h
  rcases h with rfl | rfl | rfl | rfl | rfl | rfl <;> exact next_of_check (by decide +kernel)

theorem witness_CommandDependsOnlyOnItsInputBytes :
    Memory.wf memP1 = true ∧ Memory.wf (memP1.write 0x2000 0) = true ∧
    (∃ t, exec instrP1 (withMem memP1 []) = .next t) ∧
    (∃ t, exec instrP1 (withMem (memP1.write 0x2000 0) []) = .next t) ∧
    (∀ a, InReadSet instrP1 a → memP1.read a = (memP1.write 0x2000 0).read a) := by
  refine ⟨by decide +kernel, by decide +kernel, next_of_check (by decide +kernel), next_of_check (by decide +kernel), ?_⟩
  intro a ha
  refine (Memory.read_write_ne (by decide +kernel) 0 ?_).symm
  rintro rfl
  exact absurd ((inReadSet_iff _ _).1 ha) (by decide +kernel)

theorem witness_DisjointCommandsCommute :
    Legal instrP1 (withMem memP1 []) ∧ Legal instrFar (withMem memP1 []) ∧
    (∀ a, InWriteSet instrP1 a → ¬ InFootprint instrFar a) ∧ (∀ a, InWriteSet instrFar a → ¬ InFootprint instrP1 a) := by
  refine ⟨legal_of_check (by decide +kernel), legal_of_check (by decide +kernel), ?_, ?_⟩ <;>
    · intro a ha hb
      rw [← mem_writeAddresses] at ha
      rw [InFootprint, inReadSet_iff, inWriteSet_iff] at hb
      revert a
      decide +kernel

theorem witness_CommandWithoutBlocksTouchesNothing :
    (cmdHeight (.rgb2yuvS .bt601 { descP1 with height := 1 }) < 2 ∧
      Legal (.rgb2yuvS .bt601 { descP1 with height := 1 }) State.reset) ∧
    (cmdWidth (.yuv2rgbS .bt601 { descP1 with width := 1 }) < 2 ∧
      Legal (.yuv2rgbS .bt601 { descP1 with width := 1 }) State.reset) ∧
    (cmdWidth (.rgb2yuvVa .bt601 { descP4 with width := 31 }) < 32 ∧
      Legal (.rgb2yuvVa .bt601 { descP4 with width := 31 }) State.reset) :=
  ⟨⟨by decide, legal_of_check (by decide +kernel)⟩, ⟨by decide, legal_of_check (by decide +kernel)⟩,
    ⟨by decide, legal_of_check (by decide +kernel)⟩⟩

theorem witness_AlignmentIsThatOfBasesAndStrides :
    (2 ≤ descP4.height.toNat ∧ 32 ≤ descP4.width.toNat ∧ ∀ a ∈ vectorAccesses descP4, a % 16 = 0) ∧
    (descP1.width.toNat < 32 ∧ (0 : Word).toNat < 2) ∧
    ((Instr.yuv2rgbVa .bt601 descP6).impl = .vecAligned ∧ stridesOk (.yuv2rgbVa .bt601 descP6) = true ∧
      ∃ a ∈ vectorAccesses descP6, a % 16 ≠ 0) ∧
    (Instr.yuv2rgbVu .bt601 descP6).impl ≠ .vecAligned := by decide +kernel

theorem witness_VectorAccessesCoverTheFootprint : (Instr.rgb2yuvVu .bt601 descP4).impl.isVector = true := by decide

/-- A width of 40 (all three clauses of the contract but the last) and one of 32 (the last), aligned and unaligned. -/
theorem witness_VectorCommandsEqualTheScalarOnes :
    Legal (Instr.ofParts .forward .vecAligned .bt601 descP4) State.reset ∧
    Legal (Instr.ofParts .forward .vecUnaligned .bt601 descP4) State.reset ∧
    Legal (Instr.ofParts .forward .scalar .bt601 descP4) State.reset ∧
    descSquare.width.toNat % 32 = 0 ∧ Legal (Instr.ofParts .inverse .vecAligned .bt709 descSquare) State.reset :=
  ⟨legal_of_check (by decide +kernel), legal_of_check (by decide +kernel), legal_of_check (by decide +kernel), by decide,
    legal_of_check (by decide +kernel)⟩

/-- At the ends and in the middle. -/
theorem witness_RowSplitLeavesTheSameMemory :
    Legal instrFour (withMem memP1 []) ∧ ∀ h1 ∈ [0, 2, 4], h1 % 2 = 0 ∧ h1 ≤ cmdHeight instrFour :=
  ⟨legal_of_check (by decide +kernel), by decide⟩

/-- A scalar command at the ends and in the middle, a vector command at a multiple of 32. -/
theorem witness_ColumnSplitLeavesTheSameMemory :
    (Legal instrFour (withMem memP1 []) ∧ ∀ w1 ∈ [0, 2, 4], w1 % 2 = 0 ∧ w1 ≤ cmdWidth instrFour) ∧
    (Legal (.rgb2yuvVu .bt601 descP4) (withMem memP1 []) ∧
      ∀ w1 ∈ [0, 32], w1 % 2 = 0 ∧ w1 ≤ cmdWidth (.rgb2yuvVu .bt601 descP4) ∧ w1 % 32 = 0) :=
  ⟨⟨legal_of_check (by decide +kernel), by decide⟩, ⟨legal_of_check (by decide +kernel), by decide⟩⟩

theorem witness_VxIsTheScalarCommand :
    Impl.isVector .vecAligned = true ∧ Memory.wf memP1 = true ∧
    Legal (Instr.ofParts .forward .vecAligned .bt601 descP4) (withMem memP1 []) ∧
    Legal (Instr.ofParts .forward .scalar .bt601 descP4) (withMem memP1 []) :=
  ⟨by decide, by decide +kernel, legal_of_check (by decide +kernel), legal_of_check (by decide +kernel)⟩

/-- Two configurations that run one forward vector command and one inverse command. -/
theorem witness_ChromaModeTouchesOnlyForwardVectorChroma :
    ∀ cfg ∈ [Config.hardware, { Config.hardware with vecChroma := .pairwiseHFirst }],
      ∀ i ∈ [Instr.rgb2yuvVu .bt601 descP4, Instr.yuv2rgbVu .bt601 descP6], ∃ t, execIn cfg i (withMem memP1 []) = .next t := by
  intro cfg hc i hi
  simp only [execIn_eq, runCommand_next_iff]
  refine ⟨_, ?_, rfl⟩
  revert i cfg
  decide +kernel

theorem witness_RefusingTheTailChangesNothingElse :
    (Instr.rgb2yuvVu .bt601 descP4).wellFormed Config.hardware = true ∧
    (Instr.rgb2yuvVu .bt601 descP4).impl.isVector = true ∧ cmdWidth (.rgb2yuvVu .bt601 descP4) % 32 ≠ 0 ∧
    (Instr.rgb2yuvS .bt601 descP4).impl.isVector = false ∧ cmdWidth (.yuv2rgbVa .bt709 descSquare) % 32 = 0 := by decide

theorem witness_DebugAssertionsChangeNoResult :
    (decode Config.hardware (ready instrP1 []).regs.words = .ok instrP1 ∧ Legal instrP1 (ready instrP1 []) ∧
      cmdWidth instrP1 % 2 = 0 ∧ cmdHeight instrP1 % 2 = 0) ∧
    startOp { Config.hardware with debugAssert := true } (ready (.rgb2yuvS .bt601 descP3) []) = .fault .debugAssertion :=
  ⟨⟨rfl, legal_of_check (by decide +kernel), by decide, by decide⟩, rfl⟩

theorem witness_WriteDoesWhatItsRegisterSays :
    ((ready instrP1 [.wr 0x2C 4 9]).inputs = [.wr RegName.uvStride.offset 4 9] ∧ (ready instrP1 []).busy = false) ∧
    ((started instrP1 [.wr 0x08 4 9]).inputs = [.wr RegName.cmd.offset 4 9] ∧ (started instrP1 []).busy = true) ∧
    (started instrP1 [.start]).inputs = [HostOp.start] ∧
    (started instrP1 [.wr 0x98 4 9]).inputs = [.wr (RegTarget.lutFwd .bt709 .yOffset).offset 4 9] ∧
    (started instrP1 [.wr 0xF4 4 9]).inputs = [.wr (RegTarget.lutInv .bt709 .yOffset).offset 4 9] ∧
    2 ≤ (2 : Word).toNat := by decide

theorem witness_ReadReturnsTheRegister :
    ((ready instrP1 []).regs.get .uvStride).written = true ∧ (State.reset.regs.get .cmd).written = false ∧
    (withMem [] [.rd 0x2C 4]).inputs = [.rd RegName.uvStride.offset 4] ∧
    (withMem [] [.rd 0x00 4]).inputs = [.rd 0x00 4] ∧ (withMem [] [.rd 0x04 4]).inputs = [.rd 0x04 4] := by decide

theorem witness_ReservedAccessesAreRefused :
    ((withMem [] [.wr 0x08 1 9]).inputs = [.wr 0x08 1 9] ∧ (1 : Nat) ≠ 4) ∧ 0x2D % 4 ≠ 0 ∧
    (0x30 % 4 = 0 ∧ targetOf 0x30 = none) ∧ (0xFC % 4 = 0 ∧ targetOf 0xFC = none) ∧ targetOf 0x100 = none := by decide

theorem witness_StartLatchesTheCommand :
    (ready instrP1 [.start]).inputs = [HostOp.start] ∧ (ready instrP1 [.start]).busy = false ∧
    (ready instrP1 [.start]).regs.allWritten = true ∧ (ready instrP1 [.start]).regs.words = encode instrP1 ∧
    Legal instrP1 (ready instrP1 [.start]) :=
  ⟨rfl, rfl, rfl, rfl, legal_of_check (by decide +kernel)⟩

theorem witness_StartWithoutMeaningIsRefused :
    (State.reset.regs.get .uvStride).written = false ∧
    (((ready instrP1 []).regs.set .cmd 0x18).allWritten = true ∧
      decode Config.hardware ((ready instrP1 []).regs.set .cmd 0x18).words = .error .reservedStd) ∧
    (let i : Instr := .rgb2yuvS .bt601 { descP1 with rgbStride := 5 }
     (ready i []).regs.allWritten = true ∧ decode Config.hardware (ready i []).regs.words = .ok i ∧
       ¬ Legal i (ready i [])) :=
  ⟨rfl, ⟨rfl, rfl⟩, rfl, rfl, fun h => absurd h.rgbTight (by decide)⟩

/-- The last byte of the memory space and bytes inside and outside the footprints of a started command. -/
theorem witness_OthersKeepOffTheFootprints :
    (0xFFFFFFFF : Nat) < 2 ^ 32 ∧
    (∀ i ∈ (started instrP1 []).owned, ¬ InFootprint i 0x1006) ∧
    (∃ i ∈ (started instrP1 []).owned, InFootprint i 0x1000) ∧
    (∀ i ∈ (started instrP1 []).owned, ¬ InWriteSet i 0x1000) ∧ (∃ i ∈ (started instrP1 []).owned, InWriteSet i 0x3100) := by
  simp only [InFootprint, inReadSet_iff, inWriteSet_iff]
  decide +kernel

/-- The engine's turn of the started P1. -/
theorem started_step (ops : List HostOp) (h : ops = [] ∨ ops = [.wait]) :
    step (started instrP1 ops)
      = .next ((started instrP1 ops).complete (commandStores Config.hardware instrP1 memP1)) := by
  have hs : step (started instrP1 ops) = exec instrP1 (started instrP1 ops) := by rcases h with rfl | rfl <;> rfl
  have hc : violation Config.hardware instrP1 State.reset.backing = none := by decide +kernel
  rw [hs]
  exact exec_next_iff.2 ⟨hc, rfl⟩

theorem witness_WaitPollsForDone :
    ((withMem [] [.wait]).inputs = [.wait] ∧ (withMem [] [.wait]).busy = false ∧ (withMem [] [.wait]).done = false) ∧
    ((started instrP1 [.wait]).busy = true ∧ ∃ t, step (started instrP1 [.wait]) = .next t) ∧
    (let s := { ready instrP1 [.wait] with done := true }
     s.busy = false ∧ s.done = true ∧ s.inputs = [.wait]) :=
  ⟨by decide, ⟨rfl, _, started_step [.wait] (by decide)⟩, by decide⟩

theorem witness_StepRunsTheLatchedCommand :
    (started instrP1 []).busy = true ∧ (started instrP1 []).latch = some (encode instrP1) ∧
    decode Config.hardware (encode instrP1) = .ok instrP1 ∧ (started instrP1 []).inputs = [] ∧
    (started instrP1 [.finish]).inputs = [.finish] ∧ (started instrP1 [.wait]).inputs = [.wait] := by
  refine ⟨rfl, rfl, rfl, rfl, rfl, rfl⟩

theorem witness_PlacedWordRunsNext : ∃ i, decodeTableWord 32 0x0C = some i := ⟨_, rfl⟩

theorem witness_ResetOfAnIdleBlock :
    (ready instrP1 [.reset]).inputs = [.reset] ∧ (ready instrP1 [.reset]).busy = false := by decide

theorem witness_ResetOfARunningBlock :
    Memory.wf (started instrP1 [.reset]).mem = true ∧ (started instrP1 [.reset]).inputs = [.reset] ∧
    (started instrP1 [.reset]).running = some instrP1 := ⟨by decide +kernel, rfl, rfl⟩

/-- A running block meets the invariant, whatever the host does next. -/
theorem started_inv (ops : List HostOp) : (started instrP1 ops).Inv where
  memWf := show Memory.wf memP1 = true by decide +kernel
  memInSpace := show Memory.inSpace memP1 = true by decide +kernel
  notBoth := fun h => Bool.noConfusion h.2
  latched := ⟨fun _ => rfl, fun _ => rfl⟩
  held := by rintro w h; cases h; exact ⟨rfl, rfl⟩
  startable := by
    rintro w h
    cases h
    exact ⟨instrP1, rfl, show violation Config.hardware instrP1 Backing.everywhere = none by decide +kernel,
      List.mem_singleton.2 rfl⟩

theorem witness_EveryStepKeepsTheInvariant : (started instrP1 [.memWrite 0x1006 7]).Inv ∧
    ∃ t, step (started instrP1 [.memWrite 0x1006 7]) = .next t := ⟨started_inv _, _, rfl⟩

theorem witness_StartedCommandCompletes :
    ∀ ops ∈ [[], [HostOp.finish], [HostOp.wait]], (started instrP1 ops).Inv ∧ (started instrP1 ops).busy = true :=
  fun ops _ => ⟨started_inv ops, rfl⟩

theorem witness_CompleteCallRunsTheCommand :
    (withMem memP1 (callOps instrP1)).busy = false ∧ (withMem memP1 (callOps instrP1)).inputs = callOps instrP1 ++ [] ∧
    Legal instrP1 (withMem memP1 (callOps instrP1)) :=
  ⟨rfl, by simp [withMem], legal_of_check (by decide +kernel)⟩

theorem witness_StartedCommandIsUndisturbed :
    let s := started instrP1 [.memWrite 0x1006 7]
    instrP1 ∈ s.owned ∧ s.running = some instrP1 ∧
      ∃ t, step s = .next t ∧ t.busy = true ∧ t.mem.read 0x1006 = 7 :=
  ⟨by decide, rfl, _, rfl, rfl, by decide +kernel⟩

theorem witness_RegistersChangeOnlyByWriteOrReset :
    (∃ t, step (ready instrP1 [.wr 0x0C 4 4]) = .next t ∧
      t.regs.get .width ≠ (ready instrP1 [.wr 0x0C 4 4]).regs.get .width) ∧
    (∃ t, step (ready instrP1 [.reset]) = .next t ∧ t.regs.get .width ≠ (ready instrP1 [.reset]).regs.get .width) :=
  ⟨⟨_, rfl, by decide⟩, ⟨_, rfl, by decide⟩⟩

theorem witness_DoneChangesOnlyByCompletionStartOrReset :
    (∃ t, step (started instrP1 []) = .next t ∧ (started instrP1 []).done = false ∧ t.done = true) ∧
    (∃ t, step { ready instrP1 [.start] with done := true } = .next t ∧ t.done = false) ∧
    (∃ t, step { ready instrP1 [.reset] with done := true } = .next t ∧ t.done = false) :=
  ⟨⟨_, started_step [] (by decide), rfl, rfl⟩, ⟨_, rfl, rfl⟩, ⟨_, rfl, rfl⟩⟩

theorem witness_IdleBlockLeavesMemoryAlone :
    ∃ t, step (ready instrP1 [.memWrite 0x2000 7]) = .next t ∧ (ready instrP1 [.memWrite 0x2000 7]).busy = false ∧
      t.mem ≠ (ready instrP1 [.memWrite 0x2000 7]).mem := ⟨_, rfl, rfl, by decide +kernel⟩

/-- While P1 is owned the host may hand over exactly the bytes it needs, and may not hand over one byte of Y less. -/
theorem witness_BuffersStayLentWhileOwned :
    let enough : Backing := ⟨[⟨0x1000, 16⟩], [⟨0x2000, 6⟩], [⟨0x3000, 1⟩], [⟨0x3100, 1⟩]⟩
    let short : Backing := { enough with y := [⟨0x2000, 5⟩] }
    (∀ i ∈ (started instrP1 [.lend enough]).owned, SetsBacked enough i) ∧
    (∃ i ∈ (started instrP1 [.lend short]).owned, ¬ SetsBacked short i) ∧
    (∀ i ∈ (started instrP1 []).owned, SetsBacked (started instrP1 []).backing i) ∧
    (InYSet instrP1 0x2005 ∧ ¬ Backed short.y 0x2005) := by
  simp only [← backedOk_iff, inYSet_iff, ← backedAt_iff]
  decide +kernel

end Sys2Proof.Tests
end

section
/-! PROOFS. What a command stores is a function of its words and of the bytes of its read footprint (R4, R58, R65 a). -/

namespace Sys2Proof.Machine

open Sys2Proof

/-- The three bytes of a processed pixel are in the RGB set, so the pixel's forward arithmetic sees no other byte. -/
theorem loadFwdPixel_congr (row : FwdRow) {i : Instr} {m m' : Memory}
    (h : ∀ a, InRgbSet i a → m.read a = m'.read a) {py px : Nat} (hy : py < procRows i) (hx : px < procCols i) :
    loadFwdPixel row i.desc m py px = loadFwdPixel row i.desc m' py px := by
  have hr := h _ ⟨py, px, 0, hy, hx, by omega, rfl⟩
  have hg := h _ ⟨py, px, 1, hy, hx, by omega, rfl⟩
  have hb := h _ ⟨py, px, 2, hy, hx, by omega, rfl⟩
  rw [Nat.add_zero] at hr
  simp only [loadFwdPixel, hr, hg, hb]

theorem fwdBlock_congr (mode : ChromaMode) (row : FwdRow) {i : Instr} {m m' : Memory}
    (h : ∀ a, InRgbSet i a → m.read a = m'.read a) {band bx : Nat} (hb : band < bands i) (hx : bx < bandBlocks i) :
    fwdBlock mode row i.desc m band bx = fwdBlock mode row i.desc m' band bx := by
  have hcols := two_mul_bandBlocks i
  have pixel : ∀ dy dx, dy < 2 → dx < 2 →
      loadFwdPixel row i.desc m (2 * band + dy) (2 * bx + dx)
        = loadFwdPixel row i.desc m' (2 * band + dy) (2 * bx + dx) := fun dy dx hdy hdx =>
    loadFwdPixel_congr row h (by simp only [procRows]; omega) (by omega)
  have tl := pixel 0 0 (by omega) (by omega)
  have tr := pixel 0 1 (by omega) (by omega)
  have bl := pixel 1 0 (by omega) (by omega)
  have br := pixel 1 1 (by omega) (by omega)
  simp only [Nat.add_zero] at tl tr bl
  simp only [fwdBlock, tl, tr, bl, br]

theorem invPixel_congr (row : InvRow) (o : Offsets) {i : Instr} {m m' : Memory}
    (h : ∀ a, InYSet i a → m.read a = m'.read a) {py px : Nat} (hy : py < procRows i) (hx : px < procCols i) :
    invPixel row i.desc m o py px = invPixel row i.desc m' o py px := by
  simp only [invPixel, h _ ⟨py, px, hy, hx, rfl⟩]

theorem invBlock_congr (row : InvRow) {i : Instr} {m m' : Memory}
    (h : ∀ a, InYSet i a ∨ InUSet i a ∨ InVSet i a → m.read a = m'.read a) {band bx : Nat} (hb : band < bands i)
    (hx : bx < bandBlocks i) :
    invBlock row i.desc m band bx = invBlock row i.desc m' band bx := by
  have hcols := two_mul_bandBlocks i
  have hu := h _ (.inr (.inl ⟨band, bx, hb, hx, rfl⟩))
  have hv := h _ (.inr (.inr ⟨band, bx, hb, hx, rfl⟩))
  have pixel : ∀ o dy dx, dy < 2 → dx < 2 →
      invPixel row i.desc m o (2 * band + dy) (2 * bx + dx)
        = invPixel row i.desc m' o (2 * band + dy) (2 * bx + dx) := fun o dy dx hdy hdx =>
    invPixel_congr row o (fun a ha => h a (.inl ha)) (by simp only [procRows]; omega) (by omega)
  have tl := fun o => pixel o 0 0 (by omega) (by omega)
  have tr := fun o => pixel o 0 1 (by omega) (by omega)
  have bl := fun o => pixel o 1 0 (by omega) (by omega)
  have br := fun o => pixel o 1 1 (by omega) (by omega)
  simp only [Nat.add_zero] at tl tr bl
  simp only [invBlock, hu, hv, tl, tr, bl, br]

/-- Memories that agree on the read footprint of a command give it the same list of stores. -/
theorem commandStores_congr (cfg : Config) {i : Instr} {m m' : Memory}
    (h : ∀ a, InReadSet i a → m.read a = m'.read a) : commandStores cfg i m = commandStores cfg i m' := by
  cases hd : i.dir with
  | forward =>
    simp only [InReadSet, hd] at h
    simp only [commandStores, hd, fwdStores]
    refine List.flatMap_congr fun ⟨band, bx⟩ hblock => ?_
    obtain ⟨hb, hx⟩ := (mem_commandBlocks i band bx).1 hblock
    exact fwdBlock_congr _ _ h hb hx
  | inverse =>
    simp only [InReadSet, hd] at h
    simp only [commandStores, hd, invStores]
    refine List.flatMap_congr fun ⟨band, bx⟩ hblock => ?_
    obtain ⟨hb, hx⟩ := (mem_commandBlocks i band bx).1 hblock
    exact invBlock_congr _ h hb hx

/-- Settles O23: both runs make the same stores, and these name one byte for each address of the write footprint. -/
theorem commandDependsOnlyOnItsInputBytes : Obligations.CommandDependsOnlyOnItsInputBytes := by
  intro i s1 s2 t1 t2 wf1 wf2 run1 run2 agree a ha
  obtain ⟨legal, rfl⟩ := exec_next_iff.1 run1
  obtain ⟨-, rfl⟩ := exec_next_iff.1 run2
  obtain ⟨-, strides, -, -, disjoint, -⟩ := (violation_eq_none_iff _ _ _).1 legal
  rw [State.complete_mem, State.complete_mem, commandStores_congr _ agree]
  obtain ⟨⟨_, v⟩, stored, rfl⟩ := (storedAt_iff Config.hardware i s2.mem a).2 ha
  rw [read_stores_of_mem strides disjoint wf1 stored, read_stores_of_mem strides disjoint wf2 stored]

end Sys2Proof.Machine
end

section
/-! PROOFS. The check of a command's preconditions, one `↔` for each part of it that Laws/ has none for. -/

namespace Sys2Proof.Machine

open Sys2Proof

theorem rangeOk_iff (cfg : Config) (i : Instr) :
    rangeOk cfg i = true ↔ ∀ a, InFootprint i a → a < cfg.addressSpace := by
  simp only [rangeOk, Bool.and_eq_true, Plane.below_iff, inFootprint_iff, inRgbSet_iff, inYSet_iff, inUSet_iff,
    inVSet_iff, or_imp, forall_and, and_assoc]

theorem alignedOk_iff (i : Instr) :
    alignedOk i = true ↔ (i.impl = .vecAligned → ∀ a ∈ vectorAccesses i.desc, a % Config.vecBytes = 0) := by
  cases h : i.impl <;> simp [alignedOk, h]

theorem tailOk_iff (cfg : Config) (i : Instr) :
    tailOk cfg i = true ↔
      (cfg.vecTail = .refuse → i.impl.isVector = true → cmdWidth i % Config.vecPixels = 0) := by
  cases h : cfg.vecTail <;> cases hv : i.impl.isVector <;> simp [tailOk, h, hv]

/-- A command that the check passes breaks none of the rules (R226), in any configuration. -/
theorem commandLegal_of_violation_eq_none {cfg : Config} {b : Backing} {i : Instr} (h : violation cfg i b = none) :
    CommandLegal cfg b i := by
  obtain ⟨present, strides, aligned, tail, disjoint, range, dims, backed⟩ := (violation_eq_none_iff cfg i b).1 h
  obtain ⟨rgbTight, yTight, uvTight⟩ := (stridesOk_iff i).1 strides
  obtain ⟨rgbY, rgbU, rgbV, yU, yV, uV⟩ := (disjointOk_iff i).1 disjoint
  exact {
    present := fun hv => by simpa [Instr.wellFormed, hv] using present
    rgbTight, yTight, uvTight
    aligned := (alignedOk_iff i).1 aligned
    tail := (tailOk_iff cfg i).1 tail
    rgbY, rgbU, rgbV, yU, yV, uV
    inRange := (rangeOk_iff cfg i).1 range
    backed := (backedOk_iff b i).1 backed
    dims := by simpa [dimsOk] using dims }

/-- Other memory for the buffers in which the sets of a command lie keeps its preconditions (R73). -/
theorem violation_eq_none_of_backedOk {cfg : Config} {i : Instr} {b b' : Backing} (h : violation cfg i b = none)
    (hb : backedOk b' i = true) : violation cfg i b' = none := by
  rw [violation_eq_none_iff] at h ⊢
  obtain ⟨present, strides, aligned, tail, disjoint, range, dims, -⟩ := h
  exact ⟨present, strides, aligned, tail, disjoint, range, dims, hb⟩

end Sys2Proof.Machine
end

section
/-! PROOFS. The register map in both directions (R21 to R25, R32), and what an access to a register is. -/

namespace Sys2Proof.Machine

open Sys2Proof

theorem fwdFieldOf_index (k : FwdField) : fwdFieldOf k.index = some k := by cases k <;> rfl

theorem invFieldOf_index (k : InvField) : invFieldOf k.index = some k := by cases k <;> rfl

theorem fwdFieldOf_eq_some {n : Nat} {k : FwdField} (h : fwdFieldOf n = some k) : n = k.index := by
  unfold fwdFieldOf at h
  split at h <;> cases h <;> rfl

theorem invFieldOf_eq_some {n : Nat} {k : InvField} (h : invFieldOf n = some k) : n = k.index := by
  unfold invFieldOf at h
  split at h <;> cases h <;> rfl

theorem fixedTargetOf_eq_some {n : Nat} {t : RegTarget} (h : fixedTargetOf n = some t) : t.offset = n := by
  unfold fixedTargetOf at h
  split at h <;> cases h <;> rfl

theorem targetOf_lutFwd (std : Std) (k : FwdField) :
    targetOf (RegTarget.lutFwd std k).offset = some (.lutFwd std k) := by cases std <;> cases k <;> rfl

theorem targetOf_lutInv (std : Std) (k : InvField) :
    targetOf (RegTarget.lutInv std k).offset = some (.lutInv std k) := by cases std <;> cases k <;> rfl

theorem targetOf_offset (t : RegTarget) : targetOf t.offset = some t := by
  cases t with
  | ctrl => rfl
  | status => rfl
  | reg r => exact targetOf_reg r
  | lutFwd std k => exact targetOf_lutFwd std k
  | lutInv std k => exact targetOf_lutInv std k

/-- An offset that names something is aligned, and is the offset of what it names. -/
theorem targetOf_eq_some {offset : Nat} {t : RegTarget} (h : targetOf offset = some t) :
    offset % 4 = 0 ∧ t.offset = offset := by
  unfold targetOf at h
  split at h
  · cases h
  refine ⟨by omega, ?_⟩
  split at h
  · exact fixedTargetOf_eq_some h
  split at h
  · split at h
    · rename_i std k hs hk
      cases h
      have := stdOf_eq_some hs
      have := fwdFieldOf_eq_some hk
      simp only [RegTarget.offset]
      omega
    · cases h
  split at h
  · split at h
    · rename_i std k hs hk
      cases h
      have := stdOf_eq_some hs
      have := invFieldOf_eq_some hk
      simp only [RegTarget.offset]
      omega
    · cases h
  · cases h

theorem offset_aligned (t : RegTarget) : t.offset % 4 = 0 := (targetOf_eq_some (targetOf_offset t)).1

theorem offset_lt (t : RegTarget) : t.offset < 0x100 := by
  cases t with
  | ctrl | status => decide
  | reg r => cases r <;> decide
  | lutFwd std k => cases std <;> cases k <;> decide
  | lutInv std k => cases std <;> cases k <;> decide

theorem targetOf_eq_none_of_ge {offset : Nat} (h : 0x100 ≤ offset) : targetOf offset = none := by
  refine Option.eq_none_iff_forall_ne_some.2 fun t ht => ?_
  have := offset_lt t
  have := (targetOf_eq_some ht).2
  omega

/-- The reserved words of the register space by number (R32), the decoder run on each of its 64 words. -/
theorem targetOf_word_eq_none_iff : ∀ n < 64, targetOf (4 * n) = none ↔
    4 * n ∈ [0x30, 0x34, 0x38, 0x3C, 0x5C, 0x7C, 0x9C, 0xB8, 0xBC, 0xD8, 0xDC, 0xF8, 0xFC] := by decide

theorem step_wr {s : State} {rest : List HostOp} {v : Word} (t : RegTarget)
    (h : s.inputs = .wr t.offset 4 v :: rest) :
    step s = writeTarget Config.hardware t v { s with inputs := rest } := by
  rw [step_cons h]
  simp [hostTurn, writeOp, targetOf_offset, offset_aligned]

theorem step_rd {s : State} {rest : List HostOp} (t : RegTarget) (h : s.inputs = .rd t.offset 4 :: rest) :
    step s = .next (readTarget t { s with inputs := rest }) := by
  rw [step_cons h]
  simp [hostTurn, readOp, targetOf_offset, offset_aligned]

@[simp] theorem debugAssert_hardware : Config.hardware.debugAssert = false := rfl

theorem step_start {s : State} {rest : List HostOp} (h : s.inputs = HostOp.start :: rest) :
    step s = startOp Config.hardware { s with inputs := rest } := step_wr .ctrl h

/-- Settles O6: each name's offset decodes to it, and `targetOf_eq_some` turns an offset that decodes back. -/
theorem registerMapRoundTrip : Obligations.RegisterMapRoundTrip :=
  ⟨by decide, targetOf_lutFwd, targetOf_lutInv, targetOf_offset, fun _ _ h => (targetOf_eq_some h).2⟩

/-- Settles O9: the two windows are the targets `lutFwd` and `lutInv`, whose read is the table's field. -/
theorem lutWindowReadsTheTables : Obligations.LutWindowReadsTheTables := by
  intro s rest std
  exact ⟨fun k h => ⟨_, step_rd (.lutFwd std k) h, BitVec.toNat_setWidth_of_le (by decide)⟩,
    fun k h => ⟨_, step_rd (.lutInv std k) h, BitVec.toNat_setWidth_of_le (by decide)⟩⟩

/-- Settles O40, target by target. -/
theorem writeDoesWhatItsRegisterSays : Obligations.WriteDoesWhatItsRegisterSays := by
  intro s rest v
  refine ⟨fun r h => ⟨fun idle => ?_, fun busy => ?_⟩, fun busy h => ?_, step_wr .status,
    fun std k => step_wr (.lutFwd std k), fun std k => step_wr (.lutInv std k), step_wr .ctrl, fun h hv => ?_⟩
  · refine ⟨s.regs.set r v, ?_, RegFile.get_set_self _ r v, fun q hq => RegFile.get_set_ne _ v hq⟩
    rw [step_wr (.reg r) h]
    simp [writeTarget, idle]
  · rw [step_wr (.reg r) h]
    simp [writeTarget, busy]
  · rw [step_start h]
    simp [startOp, busy]
  · rw [step_wr .ctrl h]
    have : v.toNat / 2 ≠ 0 := by omega
    simp [writeTarget, writeCtrl, this]

/-- `BUSY | (DONE << 1)` as a number (R23). -/
theorem statusWord_toNat (busy done : Bool) :
    (statusWord busy done).toNat = (if busy then 1 else 0) + 2 * (if done then 1 else 0) := by
  cases busy <;> cases done <;> rfl

/-- Settles O41, target by target. -/
theorem readReturnsTheRegister : Obligations.ReadReturnsTheRegister := by
  intro s rest
  refine ⟨step_rd .ctrl, fun h => ⟨_, step_rd .status h, statusWord_toNat _ _⟩, fun r h written => ?_,
    fun r h unwritten => ⟨Config.unwrittenWord s.draws, s.draws + 1, ?_⟩⟩
  · rw [step_rd (.reg r) h]
    simp [readTarget, written, State.receive]
  · rw [step_rd (.reg r) h]
    simp [readTarget, unwritten, State.receive]

/-- Settles O42: the reserved words by `targetOf_word_eq_none_iff`, and nothing is named past the last register. -/
theorem reservedAccessesAreRefused : Obligations.ReservedAccessesAreRefused := by
  refine ⟨fun s rest offset bytes v bad => ⟨fun h => ?_, fun h => ?_⟩,
    fun s rest offset v aligned reserved => ⟨fun h => ?_, fun h => ?_⟩, fun offset below aligned => ?_,
    fun _ => targetOf_eq_none_of_ge⟩
  · rw [step_cons h]
    exact if_pos bad
  · rw [step_cons h]
    exact if_pos bad
  · rw [step_cons h]
    simp [hostTurn, writeOp, aligned, reserved]
  · rw [step_cons h]
    simp [hostTurn, readOp, aligned, reserved]
  · obtain ⟨n, rfl⟩ := Nat.dvd_of_mod_eq_zero aligned
    exact targetOf_word_eq_none_iff n (by omega)

/-- Settles O44: the checks of START in R212's order; a command the precondition check passes is legal. -/
theorem startWithoutMeaningIsRefused : Obligations.StartWithoutMeaningIsRefused := by
  intro s rest h idle
  rw [step_start h]
  refine ⟨fun r unwritten => ?_, fun written e reserved => ?_, fun written i cmd illegal => ?_⟩
  · have : s.regs.allWritten = false := by
      by_contra hw
      simp [(RegFile.allWritten_iff s.regs).1 (by simpa using hw) r] at unwritten
    simp [startOp, idle, this]
  · simp [startOp, idle, written, reserved]
  · cases hv : violation Config.hardware i s.backing with
    | none => exact absurd (commandLegal_of_violation_eq_none hv) illegal
    | some r => exact ⟨r, by simp [startOp, idle, written, cmd, hv]⟩

end Sys2Proof.Machine
end

section
/-! PROOFS. Other agents and the footprints (R64), reset of an idle block (R245), and the engine's turn (R213). -/

namespace Sys2Proof.Machine

open Sys2Proof

theorem ownsAny_iff (s : State) (a : Nat) : s.ownsAny a = true ↔ ∃ i ∈ s.owned, InFootprint i a := by
  simp [State.ownsAny, InFootprint, inReadSet_iff, inWriteSet_iff]

theorem ownsWritten_iff (s : State) (a : Nat) : s.ownsWritten a = true ↔ ∃ i ∈ s.owned, InWriteSet i a := by
  simp [State.ownsWritten, inWriteSet_iff]

theorem memWriteOp_of_lt {a : Nat} (h : a < Config.spaceSize) (v : Byte) (s : State) :
    memWriteOp a v s =
      if s.ownsAny a then .refused .footprintContended else .next { s with mem := s.mem.write a v } :=
  if_neg (Nat.not_le.2 h)

theorem memReadOp_of_lt {a : Nat} (h : a < Config.spaceSize) (s : State) :
    memReadOp a s =
      if s.ownsWritten a then .refused .footprintContended else .next (s.receive (.byte (s.mem.read a))) :=
  if_neg (Nat.not_le.2 h)

/-- Settles O45: below 2^32 only the ownership of the footprints decides. -/
theorem othersKeepOffTheFootprints : Obligations.OthersKeepOffTheFootprints := by
  intro s rest a v ha
  refine ⟨fun h => ?_, fun h => ?_⟩
  · rw [step_cons h, hostTurn, memWriteOp_of_lt ha]
    exact ⟨fun free => if_neg fun ho => by
        obtain ⟨i, hi, hf⟩ := (ownsAny_iff _ a).1 ho
        exact free i hi hf,
      fun i hi hf => if_pos ((ownsAny_iff _ a).2 ⟨i, hi, hf⟩)⟩
  · rw [step_cons h, hostTurn, memReadOp_of_lt ha]
    exact ⟨fun free => if_neg fun ho => by
        obtain ⟨i, hi, hf⟩ := (ownsWritten_iff _ a).1 ho
        exact free i hi hf,
      fun i hi hf => if_pos ((ownsWritten_iff _ a).2 ⟨i, hi, hf⟩)⟩

theorem State.running_of_idle {s : State} (h : s.busy = false) : s.running = none := by
  simp [State.running, h]

/-- Reset of a block that runs no command (R245): memory is left alone. -/
theorem resetOp_of_running_none {s : State} (h : s.running = none) :
    resetOp s = { s with regs := RegFile.reset, busy := false, done := false, latch := none, owned := [] } := by
  simp [resetOp, h]

/-- Reset of a block that runs a command (R246). -/
theorem resetOp_of_running {s : State} {i : Instr} (h : s.running = some i) :
    resetOp s = { s with regs := RegFile.reset, busy := false, done := false, latch := none, owned := [],
                         mem := abandon i s.draws s.mem, draws := s.draws + 1 } := by
  simp [resetOp, h]

/-- Settles O49. -/
theorem resetOfAnIdleBlock : Obligations.ResetOfAnIdleBlock := by
  intro s rest h idle
  have quiet : ({ s with inputs := rest } : State).running = none := State.running_of_idle idle
  refine ⟨RegFile.reset, ?_, fun r => by simp [Reg.reset]⟩
  rw [step_cons h, hostTurn, resetOp_of_running_none quiet]

/-- Settles O47: each of the three turns is `runLatched`. -/
theorem stepRunsTheLatchedCommand : Obligations.StepRunsTheLatchedCommand := by
  intro s w i busy latch cmd
  refine ⟨fun h => ?_, fun rest h => ?_, fun rest h => ?_⟩
  · rw [step_nil h, engineTurn, if_pos busy]
    exact runLatched_of_latch latch cmd
  · rw [step_cons h, hostTurn, engineTurn, if_pos busy]
    exact runLatched_of_latch latch cmd
  · rw [step_cons h, hostTurn, waitOp, if_pos busy]
    exact runLatched_of_latch latch cmd

end Sys2Proof.Machine
end

section
/-! PROOFS. What one step changes, in seven cases: every statement about a step is a case analysis over them. -/

namespace Sys2Proof.Machine

open Sys2Proof

/-- Two states with the same block and memory, in which the footprints of the commands started before are still the block's or,
with DONE = 1, are given back (R252). The host's lists and the count of free values may differ. -/
structure SameBlock (s t : State) : Prop where
  regs    : t.regs = s.regs
  busy    : t.busy = s.busy
  done    : t.done = s.done
  latch   : t.latch = s.latch
  mem     : t.mem = s.mem
  backing : t.backing = s.backing
  owned   : t.owned = s.owned ∨ (s.done = true ∧ t.owned = [])

theorem SameBlock.refl (s : State) : SameBlock s s := ⟨rfl, rfl, rfl, rfl, rfl, rfl, .inl rfl⟩

theorem sameBlock_withInputs (s : State) (rest : List HostOp) : SameBlock s { s with inputs := rest } :=
  ⟨rfl, rfl, rfl, rfl, rfl, rfl, .inl rfl⟩

theorem sameBlock_receive (s : State) (x : Datum) : SameBlock s (s.receive x) :=
  ⟨rfl, rfl, rfl, rfl, rfl, rfl, .inl rfl⟩

theorem sameBlock_observeDone {s t : State} (h : SameBlock s t) (hd : s.done = true) : SameBlock s t.observeDone :=
  { h with owned := .inr ⟨hd, by simp [h.done, hd]⟩ }

theorem sameBlock_readTarget (tgt : RegTarget) (s : State) : SameBlock s (readTarget tgt s) := by
  obtain ⟨regs, busy, done, latch, mem, backing, -⟩ := readTarget_frame tgt s
  refine ⟨regs, busy, done, latch, mem, backing, ?_⟩
  cases tgt with
  | status => cases hd : s.done <;> simp [readTarget, hd]
  | reg r => simp only [readTarget]; split <;> exact .inl rfl
  | ctrl | lutFwd _ _ | lutInv _ _ => exact .inl rfl

/-- What a step does to the block and to memory. -/
inductive StepEffect (s t : State) : Prop where
  /-- the running command completed (R213) -/
  | completed (w : CommandWords) (i : Instr) (rest : List HostOp) (busy : s.busy = true) (latch : s.latch = some w)
      (cmd : decode Config.hardware w = .ok i) (legal : violation Config.hardware i s.backing = none)
      (after : t = { s with inputs := rest }.complete (commandStores Config.hardware i s.mem))
  /-- a register of an idle block was written (R210) -/
  | wrote (r : RegName) (v : Word) (rest : List HostOp) (op : s.inputs = .wr r.offset 4 v :: rest)
      (idle : s.busy = false) (after : t = { s with inputs := rest, regs := s.regs.set r v })
  /-- a command was started (R212) -/
  | started (i : Instr) (rest : List HostOp) (op : s.inputs = HostOp.start :: rest) (idle : s.busy = false)
      (written : s.regs.allWritten = true) (cmd : decode Config.hardware s.regs.words = .ok i)
      (legal : violation Config.hardware i s.backing = none)
      (after : t = { s with inputs := rest }.begin s.regs.words i)
  /-- another agent stored a byte (R64) -/
  | stored (a : Nat) (v : Byte) (rest : List HostOp) (op : s.inputs = .memWrite a v :: rest)
      (inSpace : a < Config.spaceSize) (free : ∀ i ∈ s.owned, ¬ InFootprint i a)
      (after : t = { s with inputs := rest, mem := s.mem.write a v })
  /-- the host handed over other memory (R73) -/
  | lent (b : Backing) (rest : List HostOp) (kept : ∀ i ∈ s.owned, backedOk b i = true)
      (after : t = { s with inputs := rest, backing := b })
  /-- reset (R245, R246) -/
  | reset (rest : List HostOp) (op : s.inputs = .reset :: rest) (after : t = resetOp { s with inputs := rest })
  /-- nothing of the block or of memory changed -/
  | quiet (same : SameBlock s t)

theorem StepEffect.of_runLatched {s t : State} (rest : List HostOp) (busy : s.busy = true)
    (h : runLatched { s with inputs := rest } = .next t) : StepEffect s t := by
  obtain ⟨w, i, latch, cmd, hrun⟩ := runLatched_next h
  obtain ⟨legal, after⟩ := exec_next_iff.1 hrun
  exact .completed w i rest busy latch cmd legal after

theorem StepEffect.of_hostEffect {op : HostOp} {rest : List HostOp} {s t : State} (hin : s.inputs = op :: rest)
    (h : HostEffect op rest s t) : StepEffect s t := by
  cases h with
  | ran s0 h0 hb h =>
    rcases h0 with rfl | rfl
    · exact .of_runLatched s0.inputs hb h
    · exact .of_runLatched rest hb h
  | wrote r offset v hop ht hb h =>
    obtain rfl : r.offset = offset := (targetOf_eq_some ht).2
    exact .wrote r v rest (hop ▸ hin) hb h
  | started offset hop ht h =>
    obtain rfl : RegTarget.ctrl.offset = offset := (targetOf_eq_some ht).2
    subst hop
    obtain ⟨idle, written, i, cmd, legal, after⟩ := startOp_next h
    exact .started i rest hin idle written cmd legal after
  | read tgt offset hop ht h =>
    subst h
    exact .quiet { sameBlock_readTarget tgt { s with inputs := rest } with }
  | stored a v hop h =>
    obtain ⟨inSpace, free, after⟩ := memWriteOp_next h
    refine .stored a v rest (hop ▸ hin) inSpace (fun i hi hf => ?_) after
    simp [InFootprint, inReadSet_iff, inWriteSet_iff, free i hi] at hf
  | loaded a hop h =>
    obtain ⟨-, -, rfl⟩ := memReadOp_next h
    exact .quiet { sameBlock_receive { s with inputs := rest } _ with }
  | lent b hop ho h => exact .lent b rest ho h
  | reset hop h => exact .reset rest (hop ▸ hin) h
  | waited hop hb hd h =>
    subst h
    exact .quiet (sameBlock_observeDone (sameBlock_withInputs s rest) hd)
  | idle h =>
    rcases h with rfl | rfl
    · exact .quiet (sameBlock_withInputs s rest)
    · exact .quiet (.refl t)

theorem step_effect {s t : State} (h : step s = .next t) : StepEffect s t := by
  rcases step_next h with ⟨-, busy, h⟩ | ⟨-, -, rfl⟩ | ⟨op, rest, hin, h⟩
  · exact .of_runLatched s.inputs busy h
  · exact .quiet (.refl t)
  · exact .of_hostEffect hin h

/-- Settles O57, over the cases of `StepEffect`. -/
theorem registersChangeOnlyByWriteOrReset : Obligations.RegistersChangeOnlyByWriteOrReset := by
  intro s t r h changed
  cases step_effect h with
  | wrote q v rest op idle after =>
    subst after
    by_cases hq : r = q
    · subst hq
      exact .inl ⟨v, rest, op, RegFile.get_set_self s.regs r v⟩
    · exact absurd (RegFile.get_set_ne s.regs v hq) changed
  | reset rest op after => exact .inr ⟨rest, op⟩
  | completed w i rest busy latch cmd legal after => subst after; exact absurd rfl changed
  | started i rest op idle written cmd legal after => subst after; exact absurd rfl changed
  | stored a v rest op inSpace free after => subst after; exact absurd rfl changed
  | lent b rest kept after => subst after; exact absurd rfl changed
  | quiet same => exact absurd (by rw [same.regs]) changed

/-- A step completes the running command and sets DONE, or is a START or a reset and clears it, or leaves it. -/
theorem StepEffect.done_cases {s t : State} (h : StepEffect s t) :
    (s.busy = true ∧ t.busy = false ∧ t.done = true) ∨
      (t.done = false ∧ ∃ rest, s.inputs = HostOp.start :: rest ∨ s.inputs = .reset :: rest) ∨ t.done = s.done := by
  cases h with
  | completed w i rest busy latch cmd legal after => subst after; exact .inl ⟨busy, rfl, rfl⟩
  | started i rest op idle written cmd legal after => subst after; exact .inr (.inl ⟨rfl, rest, .inl op⟩)
  | reset rest op after =>
    obtain ⟨-, -, done, -⟩ := resetOp_frame { s with inputs := rest }
    subst after
    exact .inr (.inl ⟨done, rest, .inr op⟩)
  | wrote r v rest op idle after => subst after; exact .inr (.inr rfl)
  | stored a v rest op inSpace free after => subst after; exact .inr (.inr rfl)
  | lent b rest kept after => subst after; exact .inr (.inr rfl)
  | quiet same => exact .inr (.inr same.done)

/-- Settles O58. -/
theorem doneChangesOnlyByCompletionStartOrReset : Obligations.DoneChangesOnlyByCompletionStartOrReset := by
  intro s t h
  rcases (step_effect h).done_cases with ⟨busy, idle, done⟩ | ⟨done, op⟩ | done
  · exact ⟨fun _ _ => ⟨busy, idle⟩, fun _ clear => by simp [done] at clear⟩
  · exact ⟨fun _ set => by simp [done] at set, fun _ _ => op⟩
  · exact ⟨fun clear set => by simp [done, clear] at set, fun set clear => by simp [done, set] at clear⟩

theorem resetOp_mem_of_idle {s : State} (h : s.busy = false) : (resetOp s).mem = s.mem := by
  rw [resetOp_of_running_none (State.running_of_idle h)]

/-- Settles O59, over the cases of `StepEffect`. -/
theorem idleBlockLeavesMemoryAlone : Obligations.IdleBlockLeavesMemoryAlone := by
  intro s t h idle changed
  cases step_effect h with
  | stored a v rest op inSpace free after => subst after; exact ⟨a, v, rest, op, rfl⟩
  | completed w i rest busy latch cmd legal after => simp [idle] at busy
  | reset rest op after =>
    subst after
    exact absurd (resetOp_mem_of_idle (s := { s with inputs := rest }) idle) changed
  | wrote r v rest op idle after => subst after; exact absurd rfl changed
  | started i rest op idle written cmd legal after => subst after; exact absurd rfl changed
  | lent b rest kept after => subst after; exact absurd rfl changed
  | quiet same => exact absurd same.mem changed

end Sys2Proof.Machine
end

section
/-! PROOFS. The invariant: it holds at reset and every step keeps it; and what it says of a command that was started. -/

namespace Sys2Proof.Machine

open Sys2Proof

/-- An idle block with nothing latched meets the invariant whatever its registers hold. -/
theorem State.Inv.of_idle {s : State} (memWf : Memory.wf s.mem = true) (memInSpace : Memory.inSpace s.mem = true)
    (idle : s.busy = false) (latch : s.latch = none) : s.Inv where
  memWf := memWf
  memInSpace := memInSpace
  notBoth := by simp [idle]
  latched := by simp [idle, latch]
  held := by simp [latch]
  startable := by simp [latch]

theorem State.Inv.latch_of_idle {s : State} (h : s.Inv) (idle : s.busy = false) : s.latch = none := by
  simpa [idle] using h.latched

theorem State.Inv.busy_of_latch {s : State} (h : s.Inv) {w : CommandWords} (latch : s.latch = some w) :
    s.busy = true := h.latched.2 (by simp [latch])

theorem State.Inv.done_of_busy {s : State} (h : s.Inv) (busy : s.busy = true) : s.done = false := by
  simpa [busy] using h.notBoth

/-- The running command is one whose preconditions hold and whose footprints are the block's. -/
theorem State.Inv.running {s : State} (h : s.Inv) {i : Instr} (run : s.running = some i) :
    violation Config.hardware i s.backing = none ∧ i ∈ s.owned := by
  obtain ⟨-, w, latch, cmd⟩ := running_eq_some_iff.1 run
  obtain ⟨j, cmd', legal, own⟩ := h.startable w latch
  obtain rfl : j = i := by simpa [cmd'] using cmd
  exact ⟨legal, own⟩

theorem State.Inv.withInputs {s : State} (h : s.Inv) (rest : List HostOp) : ({ s with inputs := rest } : State).Inv :=
  { h with }

theorem State.Inv.begin {s : State} (h : s.Inv) {i : Instr} (written : s.regs.allWritten = true)
    (cmd : decode Config.hardware s.regs.words = .ok i) (legal : violation Config.hardware i s.backing = none) :
    (s.begin s.regs.words i).Inv where
  memWf := h.memWf
  memInSpace := h.memInSpace
  notBoth := by simp
  latched := by simp
  held w hw := ⟨written, by simpa using hw⟩
  startable w hw := by
    obtain rfl : s.regs.words = w := by simpa using hw
    exact ⟨i, cmd, legal, by simp⟩

theorem State.Inv.complete {s : State} (h : s.Inv) {i : Instr} (m : Memory)
    (legal : violation Config.hardware i s.backing = none) :
    (s.complete (commandStores Config.hardware i m)).Inv :=
  .of_idle (Memory.wf_writeAll h.memWf _) (Memory.inSpace_writeAll h.memInSpace fun _ hc => stores_inSpace legal hc)
    rfl rfl

theorem State.Inv.store {s : State} (h : s.Inv) {a : Nat} (ha : a < Config.spaceSize) (v : Byte) :
    ({ s with mem := s.mem.write a v } : State).Inv :=
  { h with memWf := Memory.wf_write h.memWf a v, memInSpace := Memory.inSpace_write h.memInSpace ha v }

theorem State.Inv.lend {s : State} (h : s.Inv) {b : Backing} (kept : ∀ i ∈ s.owned, backedOk b i = true) :
    ({ s with backing := b } : State).Inv :=
  { h with
    startable := fun w hw => by
      obtain ⟨i, cmd, legal, own⟩ := h.startable w hw
      exact ⟨i, cmd, violation_eq_none_of_backedOk legal (kept i own), own⟩ }

/-- The free bytes of an abandoned command (R246) lie in its write footprint, so in the memory space. -/
theorem abandon_inSpace {i : Instr} {b : Backing} (legal : violation Config.hardware i b = none) (draw : Nat)
    {m : Memory} (hm : Memory.inSpace m = true) : Memory.inSpace (abandon i draw m) = true := by
  refine Memory.inSpace_writeAll hm fun c hc => ?_
  obtain ⟨a, ha, rfl⟩ := List.mem_map.1 hc
  exact (commandLegal_of_violation_eq_none legal).inRange a (.inr ((mem_writeAddresses i a).1 ha))

theorem State.Inv.reset {s : State} (h : s.Inv) : (resetOp s).Inv := by
  cases run : s.running with
  | none =>
    rw [resetOp_of_running_none run]
    exact .of_idle h.memWf h.memInSpace rfl rfl
  | some i =>
    rw [resetOp_of_running run]
    exact .of_idle (Memory.wf_writeAll h.memWf _) (abandon_inSpace (h.running run).1 _ h.memInSpace) rfl rfl

theorem State.Inv.sameBlock {s t : State} (h : s.Inv) (same : SameBlock s t) : t.Inv where
  memWf := same.mem ▸ h.memWf
  memInSpace := same.mem ▸ h.memInSpace
  notBoth := by rw [same.busy, same.done]; exact h.notBoth
  latched := by rw [same.busy, same.latch]; exact h.latched
  held w hw := by
    rw [same.latch] at hw
    rw [same.regs]
    exact h.held w hw
  startable w hw := by
    rw [same.latch] at hw
    obtain ⟨i, cmd, legal, own⟩ := h.startable w hw
    have own' : t.owned = s.owned := by simpa [h.done_of_busy (h.busy_of_latch hw)] using same.owned
    exact ⟨i, cmd, same.backing ▸ legal, own' ▸ own⟩

/-- Settles O51. -/
theorem invariantHoldsAtReset : Obligations.InvariantHoldsAtReset := State.Inv.of_idle rfl rfl rfl rfl

/-- Settles O52: each case of `StepEffect` keeps the invariant. -/
theorem everyStepKeepsTheInvariant : Obligations.EveryStepKeepsTheInvariant := by
  intro s t inv h
  cases step_effect h with
  | completed w i rest busy latch cmd legal after => exact after ▸ (inv.withInputs rest).complete s.mem legal
  | wrote r v rest op idle after =>
    exact after ▸ .of_idle inv.memWf inv.memInSpace idle (inv.latch_of_idle idle)
  | started i rest op idle written cmd legal after => exact after ▸ (inv.withInputs rest).begin written cmd legal
  | stored a v rest op inSpace free after => exact after ▸ (inv.withInputs rest).store inSpace v
  | lent b rest kept after => exact after ▸ (inv.withInputs rest).lend kept
  | reset rest op after => exact after ▸ (inv.withInputs rest).reset
  | quiet same => exact inv.sameBlock same

/-- Until DONE is observed no step but the completion, and a reset of a running block, changes a byte of a footprint the block
owns (R64). -/
theorem StepEffect.read_of_owned {s t : State} (h : StepEffect s t) (memWf : Memory.wf s.mem = true) {i : Instr}
    (own : i ∈ s.owned) (calm : s.busy = t.busy ∨ s.busy = false) {a : Nat} (ha : InFootprint i a) :
    t.mem.read a = s.mem.read a := by
  cases h with
  | completed w j rest busy latch cmd legal after => subst after; simp [busy] at calm
  | stored b v rest op inSpace free after =>
    subst after
    exact Memory.read_write_ne memWf v fun hab => free i own (hab ▸ ha)
  | reset rest op after =>
    obtain ⟨-, busy, -⟩ := resetOp_frame { s with inputs := rest }
    have idle : s.busy = false := by simpa [after, busy] using calm
    rw [after, resetOp_mem_of_idle (s := { s with inputs := rest }) idle]
  | wrote r v rest op idle after => subst after; rfl
  | started j rest op idle written cmd legal after => subst after; rfl
  | lent b rest kept after => subst after; rfl
  | quiet same => rw [same.mem]

/-- A step after which a running command is still running leaves the registers, the latch, DONE and the owned footprints as
they are (R34, R64). -/
theorem StepEffect.keeps_running {s t : State} (h : StepEffect s t) (busy : s.busy = true) (done : s.done = false)
    (busy' : t.busy = true) :
    t.regs = s.regs ∧ t.latch = s.latch ∧ t.done = s.done ∧ t.owned = s.owned := by
  cases h with
  | completed w j rest busy latch cmd legal after => subst after; cases busy'
  | wrote r v rest op idle after => simp [idle] at busy
  | started j rest op idle written cmd legal after => simp [idle] at busy
  | reset rest op after =>
    obtain ⟨-, idle, -⟩ := resetOp_frame { s with inputs := rest }
    simp [after, idle] at busy'
  | stored b v rest op inSpace free after => subst after; exact ⟨rfl, rfl, rfl, rfl⟩
  | lent b rest kept after => subst after; exact ⟨rfl, rfl, rfl, rfl⟩
  | quiet same => exact ⟨same.regs, same.latch, same.done, by simpa [done] using same.owned⟩

/-- Settles O56. -/
theorem startedCommandIsUndisturbed : Obligations.StartedCommandIsUndisturbed := by
  intro s t i inv h
  refine ⟨fun own calm a => (step_effect h).read_of_owned inv.memWf own calm, fun run busy' => ?_⟩
  have own := (inv.running run).2
  have busy := (running_eq_some_iff.1 run).1
  have idle := inv.done_of_busy busy
  obtain ⟨regs, latch, done, owned⟩ := (step_effect h).keeps_running busy idle busy'
  exact ⟨own, owned ▸ own, regs, latch, done.trans idle⟩

end Sys2Proof.Machine
end

section
/-! PROOFS. The precondition check is the rules (R226), START of a legal command (R212), and the memory of the buffers (R73). -/

namespace Sys2Proof.Machine

open Sys2Proof

theorem wellFormed_iff (cfg : Config) (i : Instr) :
    i.wellFormed cfg = true ↔ (i.impl.isVector = true → cfg.hasVector = true) := by
  cases h : i.impl.isVector <;> simp [Instr.wellFormed, h]

/-- A command that breaks none of the rules passes the check, in any configuration. -/
theorem violation_eq_none_of_commandLegal {cfg : Config} {b : Backing} {i : Instr} (h : CommandLegal cfg b i) :
    violation cfg i b = none :=
  (violation_eq_none_iff cfg i b).2
    ⟨(wellFormed_iff cfg i).2 h.present, (stridesOk_iff i).2 ⟨h.rgbTight, h.yTight, h.uvTight⟩,
      (alignedOk_iff i).2 h.aligned, (tailOk_iff cfg i).2 h.tail,
      (disjointOk_iff i).2 ⟨h.rgbY, h.rgbU, h.rgbV, h.yU, h.yV, h.uV⟩, (rangeOk_iff cfg i).2 h.inRange,
      by simpa [dimsOk] using h.dims, (backedOk_iff b i).2 h.backed⟩

/-- Settles O16: the check is a conjunction, and each part of it is one rule. -/
theorem preconditionCheckIsTheRules : Obligations.PreconditionCheckIsTheRules := fun _ _ _ =>
  ⟨commandLegal_of_violation_eq_none, violation_eq_none_of_commandLegal⟩

theorem exec_of_legal {i : Instr} {s : State} (h : Legal i s) :
    exec i s = .next (s.complete (commandStores Config.hardware i s.mem)) :=
  exec_next_iff.2 ⟨violation_eq_none_of_commandLegal h, rfl⟩

theorem exec_refused_of_not_legal {i : Instr} {s : State} (h : ¬ Legal i s) : ∃ r, exec i s = .refused r := by
  cases hv : violation Config.hardware i s.backing with
  | none => exact absurd (commandLegal_of_violation_eq_none hv) h
  | some r => exact ⟨r, exec_refused_iff.2 hv⟩

/-- The ten words of a command that the configuration has decode to it (R80 to R83, R85). -/
theorem decode_encode {cfg : Config} {i : Instr} (h : i.wellFormed cfg = true) : decode cfg (encode i) = .ok i := by
  change decode cfg ⟨(encode i).cmd, i.desc⟩ = _
  simp only [decode, reservedField_encode, implField_encode, stdField_encode, dirField_encode, implOf_code, stdOf_code,
    dirOf_code, Instr.ofParts_parts, h, if_true]

/-- Settles O43: the words decode to the command, so START passes each of its checks. -/
theorem startLatchesTheCommand : Obligations.StartLatchesTheCommand := by
  intro s rest i h idle written words legal
  have cmd : decode Config.hardware s.regs.words = .ok i := words ▸ decode_encode rfl
  have started := startOp_of_legal (s := { s with inputs := rest }) debugAssert_hardware idle written cmd
    (violation_eq_none_of_commandLegal legal)
  rw [step_start h, started]
  simp only [State.begin, words]

theorem lendOp_of_setsBacked {b : Backing} {s : State} (h : ∀ i ∈ s.owned, SetsBacked b i) :
    lendOp b s = .next { s with backing := b } :=
  if_pos (List.all_eq_true.2 fun i hi => (backedOk_iff b i).2 (h i hi))

theorem lendOp_of_not_setsBacked {b : Backing} {s : State} {i : Instr} (hi : i ∈ s.owned) (h : ¬ SetsBacked b i) :
    lendOp b s = .refused .notBacked :=
  if_neg fun all => h ((backedOk_iff b i).1 (List.all_eq_true.1 all i hi))

/-- A step keeps the sets of the commands whose footprints are the block's in the memory of their buffers: a started command is
legal, and a `lend` looks at every one of them (R73). -/
theorem StepEffect.setsBacked {s t : State} (h : StepEffect s t) (hs : ∀ i ∈ s.owned, SetsBacked s.backing i) :
    ∀ i ∈ t.owned, SetsBacked t.backing i := by
  cases h with
  | started j rest op idle written cmd legal after =>
    subst after
    exact List.forall_mem_cons.2 ⟨(commandLegal_of_violation_eq_none legal).backed, hs⟩
  | lent b rest kept after =>
    subst after
    exact fun i hi => (backedOk_iff b i).1 (kept i hi)
  | reset rest op after =>
    obtain ⟨-, -, -, -, -, -, -, owned⟩ := resetOp_frame { s with inputs := rest }
    simp [after, owned]
  | quiet same =>
    rw [same.backing]
    rcases same.owned with owned | ⟨-, owned⟩
    · rwa [owned]
    · simp [owned]
  | completed w j rest busy latch cmd legal after => subst after; exact hs
  | wrote r v rest op idle after => subst after; exact hs
  | stored a v rest op inSpace free after => subst after; exact hs

/-- Settles O60: a `lend` is the check of every owned command, and a command whose sets are not backed is not legal. -/
theorem buffersStayLentWhileOwned : Obligations.BuffersStayLentWhileOwned := by
  refine ⟨fun s rest b h => ?_, fun s t h => (step_effect h).setsBacked, fun s i a out => ?_⟩
  · rw [step_cons h, hostTurn]
    exact ⟨fun backed => lendOp_of_setsBacked backed, fun ⟨_, own, out⟩ => lendOp_of_not_setsBacked own out⟩
  · refine exec_refused_of_not_legal fun legal => ?_
    rcases out with ⟨ha, out⟩ | ⟨ha, out⟩ | ⟨ha, out⟩ | ⟨ha, out⟩
    · exact out (legal.backed.rgb a ha)
    · exact out (legal.backed.y a ha)
    · exact out (legal.backed.u a ha)
    · exact out (legal.backed.v a ha)

end Sys2Proof.Machine
end

section
/-! PROOFS. The frame of a command (R57, R58), a command run again (R62), and two commands one after the other (R65). -/

namespace Sys2Proof.Machine

open Sys2Proof

/-- A legal command stores one byte at an address. -/
theorem stores_functional_of_legal {i : Instr} {s : State} (h : Legal i s) {m : Memory} {c c' : Host.Cell}
    (hc : c ∈ commandStores Config.hardware i m) (hc' : c' ∈ commandStores Config.hardware i m) (ha : c.1 = c'.1) :
    c.2 = c'.2 := by
  obtain ⟨-, strides, -, -, disjoint, -⟩ := (violation_eq_none_iff _ _ _).1 (violation_eq_none_of_commandLegal h)
  exact stores_functional strides disjoint hc hc' ha

theorem not_inWriteSet_of_legal {i : Instr} {s : State} (h : Legal i s) {a : Nat} (hr : InReadSet i a) :
    ¬ InWriteSet i a := by
  obtain ⟨-, -, -, -, disjoint, -⟩ := (violation_eq_none_iff _ _ _).1 (violation_eq_none_of_commandLegal h)
  exact not_read_and_written disjoint hr

/-- Settles O22: a legal command stores in its write footprint only, and no byte of its read footprint lies there. -/
theorem onlyTheWriteFootprintChanges : Obligations.OnlyTheWriteFootprintChanges := by
  intro i s t wf run
  obtain ⟨check, rfl⟩ := exec_next_iff.1 run
  have legal : Legal i s := commandLegal_of_violation_eq_none check
  exact ⟨fun a out => read_stores_of_not_mem wf out,
    fun a ha => read_stores_of_not_mem wf (not_inWriteSet_of_legal legal ha)⟩

/-- Stores that leave the read footprint of a command alone leave its own stores as they are. -/
theorem commandStores_after {i j : Instr} {m m0 : Memory} (wf : Memory.wf m = true)
    (apart : ∀ a, InReadSet j a → ¬ InWriteSet i a) :
    commandStores Config.hardware j (m.writeAll (commandStores Config.hardware i m0))
      = commandStores Config.hardware j m :=
  commandStores_congr _ fun a ha => read_stores_of_not_mem wf (apart a ha)

/-- Settles O24: the second run makes the stores of the first once more. -/
theorem commandIsIdempotent : Obligations.CommandIsIdempotent := by
  intro i s t wf run
  obtain ⟨check, rfl⟩ := exec_next_iff.1 run
  have legal : Legal i s := commandLegal_of_violation_eq_none check
  refine ⟨_, exec_of_legal legal, ?_⟩
  simp only [State.complete_mem]
  rw [commandStores_after wf fun a => not_inWriteSet_of_legal legal, ← Memory.writeAll_append]
  refine (Memory.writeAll_congr wf (by simp) fun c hc c' hc' => ?_).symm
  exact stores_functional_of_legal legal hc hc'

theorem execSeq_cons {i : Instr} {is : List Instr} {s t : State} (h : exec i s = .next t) :
    execSeq (i :: is) s = execSeq is t := by simp [execSeq, h]

/-- A legal command that reads nothing of what a legal command before it writes: the two leave the stores of both. -/
theorem execSeq_pair {i j : Instr} {s : State} (wf : Memory.wf s.mem = true) (hi : Legal i s) (hj : Legal j s)
    (apart : ∀ a, InReadSet j a → ¬ InWriteSet i a) :
    ∃ t, execSeq [i, j] s = .next t ∧
      t.mem = s.mem.writeAll (commandStores Config.hardware i s.mem ++ commandStores Config.hardware j s.mem) := by
  have second : Legal j (s.complete (commandStores Config.hardware i s.mem)) := hj
  refine ⟨_, (execSeq_cons (exec_of_legal hi)).trans (execSeq_cons (exec_of_legal second)), ?_⟩
  rw [State.complete_mem, State.complete_mem, commandStores_after wf apart, Memory.writeAll_append]

/-- Settles O25: in either order the memory is that of the stores of both, which name one byte for an address. -/
theorem disjointCommandsCommute : Obligations.DisjointCommandsCommute := by
  intro i j s wf hi hj ij ji
  obtain ⟨t, run, mem⟩ := execSeq_pair wf hi hj fun a read write => ij a write (.inl read)
  obtain ⟨u, run', mem'⟩ := execSeq_pair wf hj hi fun a read write => ji a write (.inl read)
  refine ⟨t, u, run, run', ?_⟩
  have apart : ∀ c ∈ commandStores Config.hardware i s.mem, ∀ c' ∈ commandStores Config.hardware j s.mem,
      c.1 ≠ c'.1 := fun c hc c' hc' same =>
    ij c.1 ((storedAt_iff _ i _ _).1 ⟨c, hc, rfl⟩) (.inr ((storedAt_iff _ j _ _).1 ⟨c', hc', same.symm⟩))
  rw [mem, mem']
  refine Memory.writeAll_congr wf (fun c => by simp only [List.mem_append, or_comm]) fun c hc c' hc' same => ?_
  rcases List.mem_append.1 hc with hc | hc <;> rcases List.mem_append.1 hc' with hc' | hc'
  · exact stores_functional_of_legal hi hc hc' same
  · exact absurd same (apart c hc c' hc')
  · exact absurd same.symm (apart c' hc' c hc)
  · exact stores_functional_of_legal hj hc hc' same

end Sys2Proof.Machine
end

section
/-! PROOFS. The 16-byte accesses of a vector command as those of its four planes (R60, R61). -/

namespace Sys2Proof.Machine

open Sys2Proof

/-- The address of a 16-byte access of a plane whose rows are walked 16 bytes at a time. -/
def Plane.VectorAt (p : Plane) (b : Nat) : Prop := ∃ r j, r < p.rows ∧ 16 * j < p.cols ∧ b = p.rowStart r + 16 * j

/-- Rows of whole vectors are covered by their 16-byte accesses, no byte more. -/
theorem Plane.has_iff_vectorAt {p : Plane} (h : p.cols % 16 = 0) (a : Nat) :
    p.has a = true ↔ ∃ b, p.VectorAt b ∧ b ≤ a ∧ a < b + 16 := by
  rw [Plane.has_iff]
  constructor
  · rintro ⟨r, c, hr, hc, rfl⟩
    exact ⟨_, ⟨r, c / 16, hr, by omega, rfl⟩, by omega, by omega⟩
  · rintro ⟨_, ⟨r, j, hr, hj, rfl⟩, lo, hi⟩
    exact ⟨r, a - p.rowStart r, hr, by omega, by omega⟩

/-- The accesses of a plane that has any are aligned exactly when its base is and, from two rows on, its stride. -/
theorem Plane.vectorAt_aligned_iff {p : Plane} (hr : 0 < p.rows) (hc : 0 < p.cols) :
    (∀ b, p.VectorAt b → b % 16 = 0) ↔ p.base % 16 = 0 ∧ (2 ≤ p.rows → p.stride % 16 = 0) := by
  constructor
  · intro h
    have base : p.base % 16 = 0 := h _ ⟨0, 0, hr, hc, by simp [Plane.rowStart]⟩
    refine ⟨base, fun two => ?_⟩
    have second : (p.base + p.stride) % 16 = 0 := h _ ⟨1, 0, two, hc, by simp [Plane.rowStart]⟩
    omega
  · rintro ⟨base, stride⟩ _ ⟨r, j, hr, -, rfl⟩
    have row : (r * p.stride) % 16 = 0 := by
      rcases Nat.eq_zero_or_pos r with rfl | pos
      · simp
      · simp [Nat.mul_mod, stride (by omega)]
    simp only [Plane.rowStart]
    omega

theorem mem_vectorBlockAccesses (d : Desc) (band k b : Nat) :
    b ∈ vectorBlockAccesses d band k ↔
      (∃ dy j, dy < 2 ∧ j < 6 ∧ b = rgbAddr d (2 * band + dy) (32 * k) + 16 * j) ∨
      (∃ dy j, dy < 2 ∧ j < 2 ∧ b = yAddr d (2 * band + dy) (32 * k) + 16 * j) ∨
      b = uAddr d band (16 * k) ∨ b = vAddr d band (16 * k) := by
  have two : ∀ dy, dy ∈ [0, 1] ↔ dy < 2 := fun dy => by
    simp only [List.mem_cons, List.not_mem_nil, or_false]; omega
  simp only [vectorBlockAccesses, List.mem_append, List.mem_flatMap, List.mem_map, List.mem_range, two, List.mem_cons,
    List.not_mem_nil, or_false]
  constructor
  · rintro (⟨dy, hy, ⟨j, hj, rfl⟩ | ⟨j, hj, rfl⟩⟩ | h)
    · exact .inl ⟨dy, j, hy, hj, rfl⟩
    · exact .inr (.inl ⟨dy, j, hy, hj, rfl⟩)
    · exact .inr (.inr h)
  · rintro (⟨dy, j, hy, hj, rfl⟩ | ⟨dy, j, hy, hj, rfl⟩ | h)
    · exact .inl ⟨dy, hy, .inl ⟨j, hj, rfl⟩⟩
    · exact .inl ⟨dy, hy, .inr ⟨j, hj, rfl⟩⟩
    · exact .inr h

theorem mem_vectorAccesses (d : Desc) (b : Nat) :
    b ∈ vectorAccesses d ↔
      ∃ band k, band < d.height.toNat / 2 ∧ k < d.width.toNat / 32 ∧ b ∈ vectorBlockAccesses d band k := by
  simp only [vectorAccesses, List.mem_flatMap, List.mem_range, Config.vecPixels]
  exact ⟨fun ⟨band, hb, k, hk, h⟩ => ⟨band, k, hb, hk, h⟩, fun ⟨band, k, hb, hk, h⟩ => ⟨band, hb, k, hk, h⟩⟩

/-- Six accesses to a row of RGB, two to one of Y and one each of U and V in every vector block walk the rows of the four planes
16 bytes at a time. -/
theorem mem_vectorAccesses_iff {i : Instr} (hv : i.impl.isVector = true) (b : Nat) :
    b ∈ vectorAccesses i.desc ↔
      (rgbPlane i).VectorAt b ∨ (yPlane i).VectorAt b ∨ (uPlane i).VectorAt b ∨ (vPlane i).VectorAt b := by
  have cols := procCols_vector hv
  simp only [cmdWidth] at cols
  simp only [mem_vectorAccesses, mem_vectorBlockAccesses, Plane.VectorAt, Plane.rowStart, rgbPlane, yPlane, uPlane, vPlane,
    procRows, bands, cmdHeight, bandBlocks, cols, rgbAddr, yAddr, uAddr, vAddr]
  constructor
  · rintro ⟨band, k, hb, hk, ⟨dy, j, hy, hj, rfl⟩ | ⟨dy, j, hy, hj, rfl⟩ | rfl | rfl⟩
    · exact .inl ⟨2 * band + dy, 6 * k + j, by omega, by omega, by omega⟩
    · exact .inr (.inl ⟨2 * band + dy, 2 * k + j, by omega, by omega, by omega⟩)
    · exact .inr (.inr (.inl ⟨band, k, hb, by omega, rfl⟩))
    · exact .inr (.inr (.inr ⟨band, k, hb, by omega, rfl⟩))
  · rintro (⟨r, j, hr, hj, rfl⟩ | ⟨r, j, hr, hj, rfl⟩ | ⟨r, j, hr, hj, rfl⟩ | ⟨r, j, hr, hj, rfl⟩)
    · refine ⟨r / 2, j / 6, by omega, by omega, .inl ⟨r % 2, j % 6, by omega, by omega, ?_⟩⟩
      rw [Nat.div_add_mod]
      omega
    · refine ⟨r / 2, j / 2, by omega, by omega, .inr (.inl ⟨r % 2, j % 2, by omega, by omega, ?_⟩)⟩
      rw [Nat.div_add_mod]
      omega
    · exact ⟨r, j, hr, by omega, .inr (.inr (.inl rfl))⟩
    · exact ⟨r, j, hr, by omega, .inr (.inr (.inr rfl))⟩

/-- Settles O28: plane by plane, each row of a vector command's planes being whole vectors. -/
theorem vectorAccessesCoverTheFootprint : Obligations.VectorAccessesCoverTheFootprint := by
  intro i hv a
  have cols := procCols_vector hv
  have half := two_mul_bandBlocks i
  rw [inFootprint_iff, inRgbSet_iff, inYSet_iff, inUSet_iff, inVSet_iff,
    Plane.has_iff_vectorAt (p := rgbPlane i) (by simp only [rgbPlane]; omega),
    Plane.has_iff_vectorAt (p := yPlane i) (by simp only [yPlane]; omega),
    Plane.has_iff_vectorAt (p := uPlane i) (by simp only [uPlane]; omega),
    Plane.has_iff_vectorAt (p := vPlane i) (by simp only [vPlane]; omega)]
  simp only [mem_vectorAccesses_iff hv, or_and_right, exists_or]

/-- The alignment of a vector command that touches memory, in the bases and strides of its planes (R60). -/
theorem vectorAccesses_aligned_iff {i : Instr} (hv : i.impl.isVector = true) (hh : 2 ≤ cmdHeight i)
    (hw : 32 ≤ cmdWidth i) :
    (∀ b ∈ vectorAccesses i.desc, b % 16 = 0) ↔
      i.desc.rgbBase.toNat % 16 = 0 ∧ i.desc.yBase.toNat % 16 = 0 ∧ i.desc.uBase.toNat % 16 = 0 ∧
      i.desc.vBase.toNat % 16 = 0 ∧ i.desc.rgbStride.toNat % 16 = 0 ∧ i.desc.yStride.toNat % 16 = 0 ∧
      (2 ≤ bands i → i.desc.uvStride.toNat % 16 = 0) := by
  have cols := procCols_vector hv
  have half := two_mul_bandBlocks i
  have rows : 2 ≤ procRows i := by simp only [procRows, bands]; omega
  have rowsUV : 0 < bands i := by simp only [procRows] at rows; omega
  simp only [mem_vectorAccesses_iff hv, or_imp, forall_and]
  rw [Plane.vectorAt_aligned_iff (p := rgbPlane i) (by simp only [rgbPlane]; omega) (by simp only [rgbPlane]; omega),
    Plane.vectorAt_aligned_iff (p := yPlane i) (by simp only [yPlane]; omega) (by simp only [yPlane]; omega),
    Plane.vectorAt_aligned_iff (p := uPlane i) rowsUV (by simp only [uPlane]; omega),
    Plane.vectorAt_aligned_iff (p := vPlane i) rowsUV (by simp only [vPlane]; omega)]
  simp only [rgbPlane, yPlane, uPlane, vPlane, rows, true_imp_iff]
  tauto

theorem vectorAccesses_eq_nil {d : Desc} (h : d.height.toNat < 2 ∨ d.width.toNat < 32) : vectorAccesses d = [] := by
  refine List.eq_nil_iff_forall_not_mem.2 fun b hb => ?_
  obtain ⟨band, k, hband, hk, -⟩ := (mem_vectorAccesses d b).1 hb
  omega

/-- On this hardware, which has every command, only the strides are checked before the alignment (notes/assumptions/9.md). -/
theorem violation_of_misaligned {i : Instr} (strides : stridesOk i = true) (misaligned : alignedOk i = false)
    (b : Backing) : violation Config.hardware i b = some .misaligned := by
  have present : i.wellFormed Config.hardware = true := rfl
  simp [violation, present, strides, misaligned]

/-- Settles O27: the bases and strides are those of any vector command with the descriptor. -/
theorem alignmentIsThatOfBasesAndStrides : Obligations.AlignmentIsThatOfBasesAndStrides := by
  refine ⟨fun d hh hw => vectorAccesses_aligned_iff (i := .rgb2yuvVu .fullRange d) rfl hh hw,
    fun d h => vectorAccesses_eq_nil h, fun i s aligned strides ⟨a, ha, off⟩ => ?_,
    fun i other => (alignedOk_iff i).2 fun aligned => absurd aligned other⟩
  have misaligned : alignedOk i = false := by
    by_contra ok
    exact off ((alignedOk_iff i).1 (by simpa using ok) aligned a ha)
  exact exec_refused_iff.2 (violation_of_misaligned strides misaligned s.backing)

end Sys2Proof.Machine
end

section
/-! PROOFS. The CMD word in both directions: which words decode (R82, R85), and that only the encoding of a command does. -/

namespace Sys2Proof

/-- The four fields of R81 are the whole of a CMD word. -/
theorem toNat_eq_fields (w : Word) :
    w.toNat = dirField w + 2 * implField w + 8 * stdField w + 32 * reservedField w := by
  simp only [dirField, implField, stdField, reservedField]
  omega

/-- Ten words with the fields and the descriptor of a command are its encoding. -/
theorem encode_eq_of_fields {w : CommandWords} {i : Instr} (reserved : reservedField w.cmd = 0)
    (dir : dirField w.cmd = i.dir.code) (impl : implField w.cmd = i.impl.code) (std : stdField w.cmd = i.std.code)
    (desc : w.desc = i.desc) : encode i = w := by
  have cmd : (encode i).cmd = w.cmd := BitVec.eq_of_toNat_eq (by
    rw [encode_cmd_toNat, toNat_eq_fields w.cmd, dir, impl, std, reserved, Nat.mul_zero, Nat.add_zero])
  obtain ⟨cmd', desc'⟩ := w
  exact congrArg₂ CommandWords.mk cmd desc.symm

theorem encode_of_decode {cfg : Config} {w : CommandWords} {i : Instr} (h : decode cfg w = .ok i) : encode i = w := by
  obtain ⟨reserved, dir, impl, std, desc, -⟩ := decode_ok h
  exact encode_eq_of_fields reserved dir impl std desc

theorem Impl.exists_code {n : Nat} (h : n < 3) : ∃ impl : Impl, n = impl.code := by
  match n, h with
  | 0, _ => exact ⟨.scalar, rfl⟩
  | 1, _ => exact ⟨.vecUnaligned, rfl⟩
  | 2, _ => exact ⟨.vecAligned, rfl⟩

theorem Std.exists_code {n : Nat} (h : n < 3) : ∃ std : Std, n = std.code := by
  match n, h with
  | 0, _ => exact ⟨.fullRange, rfl⟩
  | 1, _ => exact ⟨.bt601, rfl⟩
  | 2, _ => exact ⟨.bt709, rfl⟩

theorem Impl.isVector_eq_false_iff (impl : Impl) : impl.isVector = false ↔ impl.code = 0 := by
  cases impl <;> decide

theorem implField_lt (w : Word) : implField w < 4 := Nat.mod_lt _ (by decide)

theorem stdField_lt (w : Word) : stdField w < 4 := Nat.mod_lt _ (by decide)

/-- The ten words are a command of the configuration exactly when none of R85's reservations holds of CMD. -/
theorem exists_decode_ok_iff (cfg : Config) (w : CommandWords) :
    (∃ i, decode cfg w = .ok i) ↔ reservedField w.cmd = 0 ∧ implField w.cmd ≠ 3 ∧ stdField w.cmd ≠ 3 ∧
      (cfg.hasVector = true ∨ implField w.cmd = 0) := by
  constructor
  · rintro ⟨i, h⟩
    obtain ⟨reserved, -, impl, std, -, present⟩ := decode_ok h
    have := i.impl.code_lt
    have := i.std.code_lt
    refine ⟨reserved, by omega, by omega, ?_⟩
    simpa [Instr.wellFormed, Impl.isVector_eq_false_iff, impl] using present
  · rintro ⟨reserved, impl3, std3, present⟩
    obtain ⟨impl, himpl⟩ := Impl.exists_code (n := implField w.cmd) (by have := implField_lt w.cmd; omega)
    obtain ⟨std, hstd⟩ := Std.exists_code (n := stdField w.cmd) (by have := stdField_lt w.cmd; omega)
    have dir : dirField w.cmd = (dirOf (dirField w.cmd)).code := (code_dirOf (Nat.mod_lt _ (by decide))).symm
    have words : encode (Instr.ofParts (dirOf (dirField w.cmd)) impl std w.desc) = w :=
      encode_eq_of_fields reserved (by simpa using dir) (by simpa using himpl) (by simpa using hstd) (by simp)
    refine ⟨_, words ▸ Machine.decode_encode ?_⟩
    simpa [Instr.wellFormed, Impl.isVector_eq_false_iff, ← himpl] using present

/-- Settles O1: `decode_encode`, the fields of an encoded CMD word being the codes of the command's parts. -/
theorem decodeOfEncodeIsTheCommand : Obligations.DecodeOfEncodeIsTheCommand := fun _ _ => Machine.decode_encode

/-- Settles O2: a command that decodes has the fields of the word, and these are the whole word. -/
theorem encodeOfDecodeIsTheWords : Obligations.EncodeOfDecodeIsTheWords := fun _ _ _ => encode_of_decode

/-- The eighteen words of R82. -/
def legalCmdWords : List Word :=
  [0x00, 0x08, 0x10, 0x01, 0x09, 0x11, 0x02, 0x0A, 0x12, 0x03, 0x0B, 0x13,
   0x04, 0x0C, 0x14, 0x05, 0x0D, 0x15]

/-- Of the 32 words without a reserved bit, R82's are those with neither field reserved. -/
theorem mem_legalCmdWords_iff : ∀ n < 32, BitVec.ofNat 32 n ∈ legalCmdWords ↔
    implField (BitVec.ofNat 32 n) ≠ 3 ∧ stdField (BitVec.ofNat 32 n) ≠ 3 := by decide

theorem toNat_lt_of_mem_legalCmdWords {c : Word} (h : c ∈ legalCmdWords) : c.toNat < 32 := by
  have small : legalCmdWords.all (fun c => decide (c.toNat < 32)) = true := by decide
  exact of_decide_eq_true (List.all_eq_true.1 small c h)

theorem reservedField_eq_zero_iff (w : Word) : reservedField w = 0 ↔ w.toNat < 32 := by
  simp only [reservedField]
  omega

/-- Settles O3: both sides need CMD below 32, and there `mem_legalCmdWords_iff` decides. -/
theorem exactlyEighteenLegalWords : Obligations.ExactlyEighteenLegalWords := by
  intro w
  have word : BitVec.ofNat 32 w.cmd.toNat = w.cmd := by simp
  rw [exists_decode_ok_iff, reservedField_eq_zero_iff]
  change _ ↔ w.cmd ∈ legalCmdWords
  constructor
  · rintro ⟨small, impl, std, -⟩
    exact word ▸ (mem_legalCmdWords_iff _ small).2 (word.symm ▸ ⟨impl, std⟩)
  · intro mem
    have small := toNat_lt_of_mem_legalCmdWords mem
    obtain ⟨impl, std⟩ := (mem_legalCmdWords_iff _ small).1 (word.symm ▸ mem)
    rw [word] at impl std
    exact ⟨small, impl, std, .inl rfl⟩

/-- Settles O4: the decoder run on each word. -/
theorem specWordsDecodeToTheirCommands : Obligations.SpecWordsDecodeToTheirCommands := fun _ =>
  ⟨rfl, rfl, rfl, rfl, rfl, rfl⟩

/-- Settles O5: a word that decodes has none of the reservations (`exists_decode_ok_iff`). -/
theorem reservedEncodingsAreRefused : Obligations.ReservedEncodingsAreRefused := by
  intro cfg w reserved
  cases h : decode cfg w with
  | error e => exact ⟨e, rfl⟩
  | ok i =>
    obtain ⟨bits, impl, std, present⟩ := (exists_decode_ok_iff cfg w).1 ⟨i, h⟩
    rcases reserved with bad | bad | bad | ⟨absent, bad⟩
    · exact absurd bits bad
    · exact absurd bad impl
    · exact absurd bad std
    · simp only [absent, Bool.false_eq_true, false_or] at present
      omega

end Sys2Proof
end

section
/-! PROOFS. Several steps in a row: the ten `WR`, START and WAIT of a call (R218); and a command placed to run next
(notes/assumptions/8.md). -/

namespace Sys2Proof.Machine

open Sys2Proof

theorem run_step {s t : State} (h : step s = .next t) (n : Nat) :
    Host.Core.run core (n + 1) s = Host.Core.run core n t := by
  simp only [Host.Core.run, core, h]

theorem step_wrReg {s : State} {rest : List HostOp} {r : RegName} {v : Word}
    (h : s.inputs = .wrReg r v :: rest) (idle : s.busy = false) :
    step s = .next { s with regs := s.regs.set r v, inputs := rest } := by
  rw [step_wr (.reg r) h]
  simp [writeTarget, idle]

/-- A WAIT on a block that has completed ends, and the host has observed DONE (R214, R252). -/
theorem step_wait_of_done {s : State} {rest : List HostOp} (h : s.inputs = .wait :: rest) (idle : s.busy = false)
    (done : s.done = true) : step s = .next { s with inputs := rest, owned := [] } := by
  rw [step_cons h]
  simp [hostTurn, waitOp, idle, done, State.observeDone]

/-! ## The writes of a call -/

/-- The registers after the writes of a list, first to last. -/
def RegFile.setAll (f : RegFile) (ws : List (RegName × Word)) : RegFile := ws.foldl (fun g p => g.set p.1 p.2) f

/-- The register writes of a call, in the order of R218. -/
def callWrites (w : CommandWords) : List (RegName × Word) :=
  [(.width, w.desc.width), (.height, w.desc.height), (.rgbBase, w.desc.rgbBase), (.rgbStride, w.desc.rgbStride),
   (.yBase, w.desc.yBase), (.uBase, w.desc.uBase), (.vBase, w.desc.vBase), (.yStride, w.desc.yStride),
   (.uvStride, w.desc.uvStride), (.cmd, w.cmd)]

theorem callOps_eq (i : Instr) :
    callOps i = (callWrites (encode i)).map (fun p => HostOp.wrReg p.1 p.2) ++ [.start, .wait] := rfl

/-- The ten writes reach every register, so nothing of what the registers held is left. -/
theorem setAll_callWrites (f : RegFile) (w : CommandWords) : f.setAll (callWrites w) = RegFile.ofWords w := rfl

/-- The register writes at the head of an idle block's list take one step each. -/
theorem run_writes {ws : List (RegName × Word)} {s : State} {rest : List HostOp} (idle : s.busy = false)
    (h : s.inputs = ws.map (fun p => HostOp.wrReg p.1 p.2) ++ rest) (n : Nat) :
    Host.Core.run core (n + ws.length) s
      = Host.Core.run core n { s with regs := s.regs.setAll ws, inputs := rest } := by
  induction ws generalizing s with
  | nil =>
    obtain rfl : s.inputs = rest := h
    rfl
  | cons p ws ih =>
    exact (run_step (step_wrReg h idle) (n + ws.length)).trans (ih idle rfl)

/-! ## A complete call -/

/-- A WAIT on a running legal command takes two steps, the completion and the end of the WAIT (R213, R214). -/
theorem run_wait {s : State} {rest : List HostOp} {w : CommandWords} {i : Instr} (h : s.inputs = .wait :: rest)
    (busy : s.busy = true) (latch : s.latch = some w) (cmd : decode Config.hardware w = .ok i) (legal : Legal i s) :
    Host.Core.run core 2 s
      = .next { s.complete (commandStores Config.hardware i s.mem) with owned := [], inputs := rest } := by
  have complete := (stepRunsTheLatchedCommand s w i busy latch cmd).2.2 rest h
  rw [exec_of_legal legal] at complete
  have wait := step_wait_of_done (s := s.complete (commandStores Config.hardware i s.mem)) h rfl rfl
  exact (run_step complete 1).trans (run_step wait 0)

/-- START and WAIT of a legal command on an idle block whose registers hold its words. -/
theorem run_start_wait {s : State} {rest : List HostOp} {i : Instr} (h : s.inputs = .start :: .wait :: rest)
    (idle : s.busy = false) (written : s.regs.allWritten = true) (words : s.regs.words = encode i) (legal : Legal i s) :
    Host.Core.run core 3 s
      = .next { s.complete (commandStores Config.hardware i s.mem) with owned := [], inputs := rest } :=
  (run_step (startLatchesTheCommand s _ i h idle written words legal) 2).trans
    (run_wait rfl rfl rfl (decode_encode rfl) legal)

/-- Settles O55: ten register writes, then `run_start_wait`. -/
theorem completeCallRunsTheCommand : Obligations.CompleteCallRunsTheCommand := by
  intro s rest i idle h legal
  refine ⟨_, exec_of_legal legal, ?_⟩
  rw [callOps_eq, List.append_assoc] at h
  refine (run_writes idle h 3).trans ?_
  rw [setAll_callWrites]
  exact run_start_wait rfl idle rfl rfl legal

/-! ## A command placed to run next -/

theorem decode_of_decodeTableWord {nbits w : Nat} {i : Instr} (h : decodeTableWord nbits w = some i) :
    decode Config.hardware (tableWords nbits w) = .ok i := by
  unfold decodeTableWord at h
  split at h
  · rename_i j cmd
    rw [cmd, Option.some.inj h]
  · cases h

theorem ownedWith_of_decode {w : CommandWords} {i : Instr} (h : decode Config.hardware w = .ok i) (owned : List Instr) :
    ownedWith w owned = i :: owned := by
  simp [ownedWith, h]

/-- Settles O48: the placed state is BUSY with the words latched and `finish` next, so the engine's turn is the command. -/
theorem placedWordRunsNext : Obligations.PlacedWordRunsNext := by
  intro s nbits w i h
  have cmd := decode_of_decodeTableWord h
  have next := (stepRunsTheLatchedCommand (s.withFetchWord nbits w) (tableWords nbits w) i rfl rfl cmd).2.1 s.inputs rfl
  simpa only [State.withFetchWord, placeCommand, ownedWith_of_decode cmd] using next

end Sys2Proof.Machine
end

section
/-! PROOFS. A command as its blocks: one that has none (R150), and one that is split into parts, each a command with some of
its blocks (R156, R235), as `.VX` splits it (R88). -/

namespace Sys2Proof.Machine

open Sys2Proof

/-! ## The stores of a command, block by block -/

/-- The stores of one block of a command of this hardware. -/
def commandBlock (i : Instr) (m : Memory) (band bx : Nat) : List Host.Cell :=
  match i.dir with
  | .forward => fwdBlock .truncSum (lutFwd i.std) i.desc m band bx
  | .inverse => invBlock (lutInv i.std) i.desc m band bx

theorem commandStores_eq_flatMap (i : Instr) (m : Memory) :
    commandStores Config.hardware i m = (commandBlocks i).flatMap fun p => commandBlock i m p.1 p.2 := by
  cases h : i.dir <;> simp [commandStores, commandBlock, h, fwdStores, invStores]

theorem mem_commandStores {i : Instr} {m : Memory} {c : Host.Cell} :
    c ∈ commandStores Config.hardware i m ↔
      ∃ band bx, band < bands i ∧ bx < bandBlocks i ∧ c ∈ commandBlock i m band bx := by
  simp only [commandStores_eq_flatMap, List.mem_flatMap, Prod.exists, mem_commandBlocks, and_assoc]

theorem commandBlocks_eq_nil {i : Instr} (h : bands i = 0 ∨ bandBlocks i = 0) : commandBlocks i = [] := by
  refine List.eq_nil_iff_forall_not_mem.2 fun ⟨band, bx⟩ mem => ?_
  obtain ⟨hband, hbx⟩ := (mem_commandBlocks i band bx).1 mem
  omega

/-- Settles O26: such a command has no band or no block in a band, so it completes without a store. -/
theorem commandWithoutBlocksTouchesNothing : Obligations.CommandWithoutBlocksTouchesNothing := by
  intro i s legal small
  have cols := two_mul_bandBlocks i
  have width := procCols_le i
  have none : bands i = 0 ∨ bandBlocks i = 0 := by
    rcases small with low | narrow | ⟨vector, narrow⟩
    · exact .inl (Nat.div_eq_of_lt low)
    · exact .inr (by omega)
    · have := procCols_vector vector
      exact .inr (by omega)
  rw [exec_of_legal legal, commandStores_eq_flatMap, commandBlocks_eq_nil none]
  rfl

/-! ## Parts of a command -/

/-- `p` is the part of the command `j` whose blocks are those of `j` from band `b0` and block column `x0` on: it has the same
addresses there. -/
structure PartOf (j : Instr) (b0 x0 : Nat) (p : Instr) : Prop where
  dir     : p.dir = j.dir
  std     : p.std = j.std
  inBands : b0 + bands p ≤ bands j
  inCols  : x0 + bandBlocks p ≤ bandBlocks j
  rgb     : ∀ py px, py < procRows p → px < procCols p → rgbAddr p.desc py px = rgbAddr j.desc (2 * b0 + py) (2 * x0 + px)
  y       : ∀ py px, py < procRows p → px < procCols p → yAddr p.desc py px = yAddr j.desc (2 * b0 + py) (2 * x0 + px)
  u       : ∀ band bx, band < bands p → bx < bandBlocks p → uAddr p.desc band bx = uAddr j.desc (b0 + band) (x0 + bx)
  v       : ∀ band bx, band < bands p → bx < bandBlocks p → vAddr p.desc band bx = vAddr j.desc (b0 + band) (x0 + bx)

namespace PartOf

variable {j p : Instr} {b0 x0 : Nat}

theorem rows_le (h : PartOf j b0 x0 p) : 2 * b0 + procRows p ≤ procRows j := by
  have := h.inBands
  simp only [procRows]
  omega

theorem cols_le (h : PartOf j b0 x0 p) : 2 * x0 + procCols p ≤ procCols j := by
  have := h.inCols
  have := two_mul_bandBlocks p
  have := two_mul_bandBlocks j
  omega

/-! ### The sets of R57 -/

theorem rgbSet (h : PartOf j b0 x0 p) {a : Nat} (ha : InRgbSet p a) : InRgbSet j a := by
  obtain ⟨py, px, c, hy, hx, hc, rfl⟩ := ha
  have := h.rows_le
  have := h.cols_le
  exact ⟨2 * b0 + py, 2 * x0 + px, c, by omega, by omega, hc, by rw [h.rgb py px hy hx]⟩

theorem ySet (h : PartOf j b0 x0 p) {a : Nat} (ha : InYSet p a) : InYSet j a := by
  obtain ⟨py, px, hy, hx, rfl⟩ := ha
  have := h.rows_le
  have := h.cols_le
  exact ⟨2 * b0 + py, 2 * x0 + px, by omega, by omega, h.y py px hy hx⟩

theorem uSet (h : PartOf j b0 x0 p) {a : Nat} (ha : InUSet p a) : InUSet j a := by
  obtain ⟨band, bx, hb, hx, rfl⟩ := ha
  have := h.inBands
  have := h.inCols
  exact ⟨b0 + band, x0 + bx, by omega, by omega, h.u band bx hb hx⟩

theorem vSet (h : PartOf j b0 x0 p) {a : Nat} (ha : InVSet p a) : InVSet j a := by
  obtain ⟨band, bx, hb, hx, rfl⟩ := ha
  have := h.inBands
  have := h.inCols
  exact ⟨b0 + band, x0 + bx, by omega, by omega, h.v band bx hb hx⟩

theorem readSet (h : PartOf j b0 x0 p) {a : Nat} (ha : InReadSet p a) : InReadSet j a := by
  simp only [InReadSet, h.dir] at ha ⊢
  cases hd : j.dir <;> simp only [hd] at ha ⊢
  · exact h.rgbSet ha
  · exact ha.imp h.ySet (Or.imp h.uSet h.vSet)

theorem writeSet (h : PartOf j b0 x0 p) {a : Nat} (ha : InWriteSet p a) : InWriteSet j a := by
  simp only [InWriteSet, h.dir] at ha ⊢
  cases hd : j.dir <;> simp only [hd] at ha ⊢
  · exact ha.imp h.ySet (Or.imp h.uSet h.vSet)
  · exact h.rgbSet ha

/-- On this hardware a part of a legal command has a meaning once its own strides and accesses have one: the rest of R226 is
about its sets, which lie in those of the whole. -/
theorem legal (h : PartOf j b0 x0 p) {s : State} (whole : Legal j s) (strides : stridesOk p = true)
    (aligned : alignedOk p = true) : Legal p s := by
  obtain ⟨rgbTight, yTight, uvTight⟩ := (stridesOk_iff p).1 strides
  exact {
    present := fun _ => rfl
    rgbTight, yTight, uvTight
    aligned := (alignedOk_iff p).1 aligned
    tail := fun refuse => by cases refuse
    rgbY := fun a ha hb => whole.rgbY a (h.rgbSet ha) (h.ySet hb)
    rgbU := fun a ha hb => whole.rgbU a (h.rgbSet ha) (h.uSet hb)
    rgbV := fun a ha hb => whole.rgbV a (h.rgbSet ha) (h.vSet hb)
    yU := fun a ha hb => whole.yU a (h.ySet ha) (h.uSet hb)
    yV := fun a ha hb => whole.yV a (h.ySet ha) (h.vSet hb)
    uV := fun a ha hb => whole.uV a (h.uSet ha) (h.vSet hb)
    inRange := fun a ha => whole.inRange a (ha.imp h.readSet h.writeSet)
    backed := {
      rgb := fun a ha => whole.backed.rgb a (h.rgbSet ha)
      y := fun a ha => whole.backed.y a (h.ySet ha)
      u := fun a ha => whole.backed.u a (h.uSet ha)
      v := fun a ha => whole.backed.v a (h.vSet ha) }
    dims := fun w _ => w.isLt }

/-! ### The blocks -/

/-- A block of a part makes the stores that it makes as a block of the whole: its arithmetic sees nothing but its addresses. -/
theorem commandBlock_eq (h : PartOf j b0 x0 p) (m : Memory) {band bx : Nat} (hb : band < bands p)
    (hx : bx < bandBlocks p) : commandBlock p m band bx = commandBlock j m (b0 + band) (x0 + bx) := by
  have half := two_mul_bandBlocks p
  have rgb : ∀ dy dx, dy < 2 → dx < 2 → rgbAddr p.desc (2 * band + dy) (2 * bx + dx)
      = rgbAddr j.desc (2 * (b0 + band) + dy) (2 * (x0 + bx) + dx) := fun dy dx hdy hdx => by
    rw [h.rgb _ _ (by simp only [procRows]; omega) (by omega)]
    congr 1 <;> omega
  have y : ∀ dy dx, dy < 2 → dx < 2 → yAddr p.desc (2 * band + dy) (2 * bx + dx)
      = yAddr j.desc (2 * (b0 + band) + dy) (2 * (x0 + bx) + dx) := fun dy dx hdy hdx => by
    rw [h.y _ _ (by simp only [procRows]; omega) (by omega)]
    congr 1 <;> omega
  have rgb00 := rgb 0 0 (by omega) (by omega)
  have rgb01 := rgb 0 1 (by omega) (by omega)
  have rgb10 := rgb 1 0 (by omega) (by omega)
  have rgb11 := rgb 1 1 (by omega) (by omega)
  have y00 := y 0 0 (by omega) (by omega)
  have y01 := y 0 1 (by omega) (by omega)
  have y10 := y 1 0 (by omega) (by omega)
  have y11 := y 1 1 (by omega) (by omega)
  simp only [Nat.add_zero] at rgb00 rgb01 rgb10 y00 y01 y10
  simp only [commandBlock, h.dir, h.std, fwdBlock, loadFwdPixel, invBlock, invPixel, h.u _ _ hb hx, h.v _ _ hb hx,
    rgb00, rgb01, rgb10, rgb11, y00, y01, y10, y11]

theorem mem_stores (h : PartOf j b0 x0 p) {m : Memory} {c : Host.Cell} :
    c ∈ commandStores Config.hardware p m ↔
      ∃ band bx, band < bands p ∧ bx < bandBlocks p ∧ c ∈ commandBlock j m (b0 + band) (x0 + bx) := by
  rw [mem_commandStores]
  refine exists_congr fun band => exists_congr fun bx => and_congr_right fun hb => and_congr_right fun hx => ?_
  rw [h.commandBlock_eq m hb hx]

end PartOf

/-- The commands `ps` are parts of `j`, and every block of `j` is one of theirs. -/
structure SplitInto (j : Instr) (ps : List Instr) : Prop where
  parts  : ∀ p ∈ ps, ∃ b0 x0, PartOf j b0 x0 p
  covers : ∀ band bx, band < bands j → bx < bandBlocks j →
             ∃ p ∈ ps, ∃ b0 x0, PartOf j b0 x0 p ∧ b0 ≤ band ∧ band < b0 + bands p ∧ x0 ≤ bx ∧ bx < x0 + bandBlocks p

theorem SplitInto.mem_stores {j : Instr} {ps : List Instr} (h : SplitInto j ps) {m : Memory} (c : Host.Cell) :
    c ∈ ps.flatMap (fun p => commandStores Config.hardware p m) ↔ c ∈ commandStores Config.hardware j m := by
  rw [List.mem_flatMap, mem_commandStores]
  constructor
  · rintro ⟨p, hp, hc⟩
    obtain ⟨b0, x0, part⟩ := h.parts p hp
    obtain ⟨band, bx, hb, hx, hc⟩ := part.mem_stores.1 hc
    have := part.inBands
    have := part.inCols
    exact ⟨b0 + band, x0 + bx, by omega, by omega, hc⟩
  · rintro ⟨band, bx, hb, hx, hc⟩
    obtain ⟨p, hp, b0, x0, part, hb0, hb1, hx0, hx1⟩ := h.covers band bx hb hx
    refine ⟨p, hp, part.mem_stores.2 ⟨band - b0, bx - x0, by omega, by omega, ?_⟩⟩
    rwa [Nat.add_sub_cancel' hb0, Nat.add_sub_cancel' hx0]

/-- Legal commands of which none reads what another writes leave the stores of all, each computed from the memory before. -/
theorem execSeq_of_apart {ps : List Instr} {s : State} (wf : Memory.wf s.mem = true) (legal : ∀ p ∈ ps, Legal p s)
    (apart : ∀ p ∈ ps, ∀ q ∈ ps, ∀ a, InReadSet q a → ¬ InWriteSet p a) :
    ∃ t, execSeq ps s = .next t ∧
      t.mem = s.mem.writeAll (ps.flatMap fun p => commandStores Config.hardware p s.mem) := by
  induction ps generalizing s with
  | nil => exact ⟨s, rfl, rfl⟩
  | cons p ps ih =>
    rw [List.forall_mem_cons] at legal
    obtain ⟨t, run, mem⟩ := ih (s := s.complete (commandStores Config.hardware p s.mem)) (Memory.wf_writeAll wf _)
      legal.2 fun q hq r hr => apart q (.tail p hq) r (.tail p hr)
    refine ⟨t, (execSeq_cons (exec_of_legal legal.1)).trans run, ?_⟩
    have unread : ∀ q ∈ ps, commandStores Config.hardware q (s.mem.writeAll (commandStores Config.hardware p s.mem))
        = commandStores Config.hardware q s.mem := fun q hq =>
      commandStores_after wf (apart p (.head ps) q (.tail p hq))
    rw [mem, State.complete_mem, List.flatMap_congr unread, List.flatMap_cons, Memory.writeAll_append]

/-- A legal command split into legal parts, one run after the other, leaves the memory that the whole leaves (R156). -/
theorem execSeq_of_splitInto {j : Instr} {ps : List Instr} {s : State} (wf : Memory.wf s.mem = true)
    (whole : Legal j s) (split : SplitInto j ps) (legal : ∀ p ∈ ps, Legal p s) :
    ∃ t, execSeq ps s = .next t ∧ t.mem = s.mem.writeAll (commandStores Config.hardware j s.mem) := by
  obtain ⟨t, run, mem⟩ := execSeq_of_apart wf legal fun p hp q hq a read write => by
    obtain ⟨_, _, partP⟩ := split.parts p hp
    obtain ⟨_, _, partQ⟩ := split.parts q hq
    exact not_inWriteSet_of_legal whole (partQ.readSet read) (partP.writeSet write)
  refine ⟨t, run, mem.trans (Memory.writeAll_congr wf (fun c => (split.mem_stores c).symm) ?_).symm⟩
  exact fun c hc c' hc' => stores_functional_of_legal whole hc hc'

/-! ## The two parts of `.VX` -/

theorem partOf_of_desc_eq {j p : Instr} (dir : p.dir = j.dir) (std : p.std = j.std) (desc : p.desc = j.desc)
    (cols : bandBlocks p ≤ bandBlocks j) : PartOf j 0 0 p where
  dir := dir
  std := std
  inBands := by simp [bands, cmdHeight, desc]
  inCols := by omega
  rgb := by simp [desc]
  y := by simp [desc]
  u := by simp [desc]
  v := by simp [desc]

/-! ### A shard's addresses: where the address in the whole is in the memory space, no base wraps (notes/assumptions/18.md) -/

theorem shifted_base_add {base : Word} {n row col : Nat} (h : base.toNat + row + (n + col) < 2 ^ 32) :
    (base + BitVec.ofNat 32 n).toNat + row + col = base.toNat + row + (n + col) := by
  rw [BitVec.toNat_add, BitVec.toNat_ofNat]
  omega

section

variable {d : Desc} {c0 cols : Nat}

theorem rgbAddr_colShard {py px : Nat} (h : rgbAddr d py (c0 + px) < 2 ^ 32) :
    rgbAddr (Desc.colShard d c0 cols) py px = rgbAddr d py (c0 + px) := by
  simp only [rgbAddr, Nat.mul_add] at h ⊢
  exact shifted_base_add h

theorem yAddr_colShard {py px : Nat} (h : yAddr d py (c0 + px) < 2 ^ 32) :
    yAddr (Desc.colShard d c0 cols) py px = yAddr d py (c0 + px) := shifted_base_add h

theorem uAddr_colShard {band bx : Nat} (h : uAddr d band (c0 / 2 + bx) < 2 ^ 32) :
    uAddr (Desc.colShard d c0 cols) band bx = uAddr d band (c0 / 2 + bx) := shifted_base_add h

theorem vAddr_colShard {band bx : Nat} (h : vAddr d band (c0 / 2 + bx) < 2 ^ 32) :
    vAddr (Desc.colShard d c0 cols) band bx = vAddr d band (c0 / 2 + bx) := shifted_base_add h

end

/-- The columns of a legal command from an even one on are a part of it (R156): what the part addresses is in the memory
space (U9). -/
theorem partOf_colShard {j p : Instr} {s : State} (whole : Legal j s) {c0 cols : Nat} (dir : p.dir = j.dir)
    (std : p.std = j.std) (desc : p.desc = Desc.colShard j.desc c0 cols) (even : c0 % 2 = 0)
    (fits : c0 / 2 + bandBlocks p ≤ bandBlocks j) : PartOf j 0 (c0 / 2) p := by
  have inSpace : ∀ a, InFootprint j a → a < 2 ^ 32 := whole.inRange
  simp only [inFootprint_iff] at inSpace
  have half := two_mul_bandBlocks p
  have half' := two_mul_bandBlocks j
  have bandsEq : bands p = bands j := by simp [bands, cmdHeight, desc, Desc.colShard]
  have rowsEq : procRows p = procRows j := by simp only [procRows, bandsEq]
  have twice : 2 * (c0 / 2) = c0 := by omega
  refine ⟨dir, std, by omega, fits, ?_, ?_, ?_, ?_⟩ <;> simp only [Nat.mul_zero, Nat.zero_add, twice, desc]
  · exact fun py px hy hx =>
      rgbAddr_colShard (inSpace _ (.inl ⟨py, c0 + px, 0, by omega, by omega, by omega, rfl⟩))
  · exact fun py px hy hx => yAddr_colShard (inSpace _ (.inr (.inl ⟨py, c0 + px, by omega, by omega, rfl⟩)))
  · exact fun band bx hb hx =>
      uAddr_colShard (inSpace _ (.inr (.inr (.inl ⟨band, c0 / 2 + bx, by omega, by omega, rfl⟩))))
  · exact fun band bx hb hx =>
      vAddr_colShard (inSpace _ (.inr (.inr (.inr ⟨band, c0 / 2 + bx, by omega, by omega, rfl⟩))))

/-! ## `.VX` -/

theorem bandBlocks_scalar {i : Instr} (h : i.impl = .scalar) : bandBlocks i = cmdWidth i / 2 := by
  have := two_mul_bandBlocks i
  have := procCols_scalar h
  omega

theorem bandBlocks_vector {i : Instr} (h : i.impl.isVector = true) : bandBlocks i = 16 * (cmdWidth i / 32) := by
  have := two_mul_bandBlocks i
  have := procCols_vector h
  omega

/-- The scalar command of `.VX` on the columns past the last full group of 32. -/
def vxRemainder (dir : Dir) (std : Std) (d : Desc) : Instr :=
  Instr.ofParts dir .scalar std (Desc.colShard d (fullGroups d) (d.width.toNat - fullGroups d))

theorem cmdWidth_vxRemainder (dir : Dir) (std : Std) (d : Desc) :
    cmdWidth (vxRemainder dir std d) = d.width.toNat - fullGroups d := by
  have := d.width.isLt
  simp only [cmdWidth, vxRemainder, Instr.desc_ofParts, Desc.colShard, BitVec.toNat_ofNat]
  omega

section

variable {dir : Dir} {impl : Impl} {std : Std} {d : Desc} {s : State}

theorem partOf_vxVector (vector : impl.isVector = true) :
    PartOf (Instr.ofParts dir .scalar std d) 0 0 (Instr.ofParts dir impl std d) := by
  refine partOf_of_desc_eq (by simp) (by simp) (by simp) ?_
  rw [bandBlocks_scalar (i := Instr.ofParts dir .scalar std d) (by simp),
    bandBlocks_vector (i := Instr.ofParts dir impl std d) (by simpa using vector)]
  simp only [cmdWidth, Instr.desc_ofParts]
  omega

theorem partOf_vxRemainder (whole : Legal (Instr.ofParts dir .scalar std d) s) :
    PartOf (Instr.ofParts dir .scalar std d) 0 (fullGroups d / 2) (vxRemainder dir std d) := by
  refine partOf_colShard whole (cols := d.width.toNat - fullGroups d) (by simp [vxRemainder]) (by simp [vxRemainder])
    (by simp [vxRemainder]) ?_ ?_
  · simp only [fullGroups, Config.vecPixels]
    omega
  · rw [bandBlocks_scalar (by simp [vxRemainder]), bandBlocks_scalar (by simp), cmdWidth_vxRemainder]
    simp only [cmdWidth, Instr.desc_ofParts, fullGroups, Config.vecPixels]
    omega

theorem legal_vxRemainder (whole : Legal (Instr.ofParts dir .scalar std d) s) : Legal (vxRemainder dir std d) s := by
  refine (partOf_vxRemainder whole).legal whole ((stridesOk_iff _).2 ?_) ((alignedOk_iff _).2 ?_)
  · have rgbTight := whole.rgbTight
    have yTight := whole.yTight
    have uvTight := whole.uvTight
    rw [cmdWidth_vxRemainder]
    simp only [vxRemainder, Instr.desc_ofParts, Desc.colShard, cmdWidth] at rgbTight yTight uvTight ⊢
    omega
  · simp [vxRemainder]

theorem mem_expandVx {p : Instr} :
    p ∈ expandVx dir impl std d ↔
      p = Instr.ofParts dir impl std d ∨ (d.width.toNat ≠ fullGroups d ∧ p = vxRemainder dir std d) := by
  unfold expandVx
  split <;> simp [*, vxRemainder]

/-- `.VX` splits the scalar command at the last full group of 32 columns (R88). -/
theorem splitInto_expandVx (vector : impl.isVector = true) (whole : Legal (Instr.ofParts dir .scalar std d) s) :
    SplitInto (Instr.ofParts dir .scalar std d) (expandVx dir impl std d) where
  parts p hp := by
    rcases mem_expandVx.1 hp with rfl | ⟨-, rfl⟩
    · exact ⟨_, _, partOf_vxVector vector⟩
    · exact ⟨_, _, partOf_vxRemainder whole⟩
  covers band bx hb hx := by
    have groups : fullGroups d = 32 * (d.width.toNat / 32) := rfl
    have vectorCols := bandBlocks_vector (i := Instr.ofParts dir impl std d) (by simpa using vector)
    have restCols := bandBlocks_scalar (i := vxRemainder dir std d) (by simp [vxRemainder])
    rw [bandBlocks_scalar (by simp)] at hx
    rw [cmdWidth_vxRemainder] at restCols
    simp only [bands, cmdHeight, cmdWidth, Instr.desc_ofParts] at hb hx vectorCols
    by_cases full : bx < 16 * (d.width.toNat / 32)
    · refine ⟨_, mem_expandVx.2 (.inl rfl), _, _, partOf_vxVector vector, ?_⟩
      simp only [bands, cmdHeight, Instr.desc_ofParts]
      omega
    · refine ⟨_, mem_expandVx.2 (.inr ⟨by omega, rfl⟩), _, _, partOf_vxRemainder whole, ?_⟩
      have bandsEq : bands (vxRemainder dir std d) = d.height.toNat / 2 := by
        simp [bands, cmdHeight, vxRemainder, Desc.colShard]
      omega

end

/-- Settles O32: the commands of `.VX` are legal and a split of the scalar command. -/
theorem vxIsTheScalarCommand : Obligations.VxIsTheScalarCommand := by
  intro dir impl std d s vector wf legalVector whole
  have legal : ∀ p ∈ expandVx dir impl std d, Legal p s := fun p hp => by
    rcases mem_expandVx.1 hp with rfl | ⟨-, rfl⟩
    · exact legalVector
    · exact legal_vxRemainder whole
  obtain ⟨t, run, mem⟩ := execSeq_of_splitInto wf whole (splitInto_expandVx vector whole) legal
  exact ⟨t, _, run, exec_of_legal whole, mem⟩

end Sys2Proof.Machine
end

section
/-! PROOFS. The coefficient tables: rounding as two bounds, the weights and the luma of a grey, and the derivation (R110 to
R117). -/

namespace Sys2Proof.Machine

open Sys2Proof

/-- A coefficient written as a literal, in the integers: `norm_num` then evaluates the remainder. -/
theorem ofByte_ofNat (n : Nat) : ofByte (no_index (OfNat.ofNat n)) = ((OfNat.ofNat n % 256 : Nat) : Int) := rfl

/-! ## The luma weights (R117) -/

/-- R117: by the table, row by row. -/
theorem lutFwd_weights_sum (std : Std) :
    ofByte (lutFwd std).rw + ofByte (lutFwd std).gw + ofByte (lutFwd std).bw = 256 := by
  cases std <;> rfl

/-- Weights that sum to 2^8 leave a grey its value: the shift by 8 undoes the sum. -/
theorem fwdLuma_grey {c : FwdRow} (sum : ofByte c.rw + ofByte c.gw + ofByte c.bw = 256) (v : Byte) :
    fwdLuma c v v v = ofByte v := by
  rw [fwdLuma, ← add_mul, ← add_mul, sum, asr_eq]
  exact Int.mul_ediv_cancel_left _ (by norm_num)

/-- Settles O8: the sum from the tables, the luma of a grey from the sum. -/
theorem lumaWeightsSumTo256 : Obligations.LumaWeightsSumTo256 := fun std =>
  ⟨lutFwd_weights_sum std, fwdLuma_grey (lutFwd_weights_sum std)⟩

/-! ## The derivation (R110 to R113) -/

/-- R111: a value rounds to `n` exactly when it lies in `[n - 1/2, n + 1/2)`. -/
theorem roundHalfUp_eq_iff {x : ℚ} {n : Int} : roundHalfUp x = n ↔ (n : ℚ) - 1 / 2 ≤ x ∧ x < n + 1 / 2 := by
  rw [roundHalfUp, Int.floor_eq_iff]
  exact and_congr sub_le_iff_le_add.symm (by constructor <;> intro <;> linarith)

/-- The integers that a forward row stores (R119). -/
def FwdRow.integers (c : FwdRow) : FwdIntegers where
  rw      := ofByte c.rw
  gw      := ofByte c.gw
  bw      := ofByte c.bw
  cbScale := ofByte c.cbScale
  crScale := ofByte c.crScale
  yScale  := ofByte c.yScale
  yOffset := ofByte c.yOffset

/-- The integers that an inverse row stores (R119). -/
def InvRow.integers (c : InvRow) : InvIntegers where
  cbDescale := ofByte c.cbDescale
  crDescale := ofByte c.crDescale
  gCb       := ofByte c.gCb
  gCr       := ofByte c.gCr
  yScale    := ofByte c.yScale
  yOffset   := ofByte c.yOffset

/-- R112, R114: the green weight is what the sum of R117 leaves for it; every rounded factor lies within a half of its field. -/
theorem deriveForward_analog (std : Std) : deriveForward (analog std) = (lutFwd std).integers := by
  have red : roundHalfUp ((analog std).rf * 256) = ofByte (lutFwd std).rw := by
    cases std <;> norm_num [roundHalfUp_eq_iff, analog, lutFwd, ofByte_ofNat]
  have blue : roundHalfUp ((analog std).bf * 256) = ofByte (lutFwd std).bw := by
    cases std <;> norm_num [roundHalfUp_eq_iff, analog, lutFwd, ofByte_ofNat]
  have green : 256 - ofByte (lutFwd std).rw - ofByte (lutFwd std).bw = ofByte (lutFwd std).gw := by
    have := lutFwd_weights_sum std
    omega
  rw [deriveForward, FwdRow.integers, red, blue, FwdIntegers.mk.injEq]
  refine ⟨rfl, green, rfl, ?_, ?_, ?_, ?offset⟩
  case offset => cases std <;> rfl
  all_goals cases std <;> norm_num [roundHalfUp_eq_iff, analog, lutFwd, ofByte_ofNat]

/-- R113, R115: every rounded factor lies within a half of its field. -/
theorem deriveInverse_analog (std : Std) : deriveInverse (analog std) = (lutInv std).integers := by
  rw [deriveInverse, InvRow.integers, InvIntegers.mk.injEq]
  refine ⟨?_, ?_, ?_, ?_, ?_, ?offset⟩
  case offset => cases std <;> rfl
  all_goals cases std <;> norm_num [roundHalfUp_eq_iff, analog, lutInv, ofByte_ofNat]

/-- Settles O7: the literals are the tables', and each standard's derivation gives its two rows. -/
theorem tablesAreTheDerivedIntegers : Obligations.TablesAreTheDerivedIntegers :=
  ⟨⟨rfl, rfl, rfl, rfl, rfl, rfl⟩, fun std => ⟨deriveForward_analog std, deriveInverse_analog std⟩⟩

end Sys2Proof.Machine
end

section
/-! PROOFS. The ranges of the color matrix and the achromatic law (R131 to R141). Every formula is monotone in each of its
bytes, whatever the table, so its range lies between its values at the corners of the cube of inputs; only those values are
computed. -/

namespace Sys2Proof.Machine

open Sys2Proof

/-! ## Monotonicity and the corners -/

theorem asr_mono {a b : Int} (n : Nat) (h : a ≤ b) : asr a n ≤ asr b n := by
  rw [asr_eq, asr_eq]
  exact Int.ediv_le_ediv (by positivity) h

/-- A coefficient is unsigned (R130), so multiplying by it keeps the order. -/
theorem ofByte_mul_mono (k : Byte) {x x' : Int} (h : x ≤ x') : ofByte k * x ≤ ofByte k * x' :=
  mul_le_mul_of_nonneg_left h (ofByte_nonneg k)

/-- The two corners of a byte, in the form the lemmas of this section take. -/
theorem zero_le_byte (b : Byte) : ofByte 0 ≤ ofByte b := ofByte_nonneg b

theorem byte_le_max (b : Byte) : ofByte b ≤ ofByte 255 := ofByte_le b

/-! ## Forward (R131 to R134) -/

theorem fwdLuma_mono (c : FwdRow) {r g b r' g' b' : Byte} (hr : ofByte r ≤ ofByte r') (hg : ofByte g ≤ ofByte g')
    (hb : ofByte b ≤ ofByte b') : fwdLuma c r g b ≤ fwdLuma c r' g' b' :=
  asr_mono 8 (add_le_add (add_le_add (ofByte_mul_mono c.rw hr) (ofByte_mul_mono c.gw hg)) (ofByte_mul_mono c.bw hb))

theorem fwdRerange_mono (c : FwdRow) {yp yp' : Int} (h : yp ≤ yp') : fwdRerange c yp ≤ fwdRerange c yp' := by
  have product : ofByte c.yScale * yp ≤ ofByte c.yScale * yp' := ofByte_mul_mono c.yScale h
  rw [mul_comm, mul_comm _ yp'] at product
  exact add_le_add_left (asr_mono 7 product) _

/-- A byte minus a sum that holds it with a weight below 2^8: the byte outweighs its own share of the sum. -/
theorem sub_asr_mono (w : Byte) {x x' rest rest' : Int} (hx : x ≤ x') (hrest : rest' ≤ rest) :
    x - asr (rest + ofByte w * x) 8 ≤ x' - asr (rest' + ofByte w * x') 8 := by
  have share : ofByte w * (x' - x) ≤ 256 * (x' - x) :=
    mul_le_mul_of_nonneg_right ((ofByte_le w).trans (by norm_num)) (sub_nonneg.2 hx)
  rw [mul_sub] at share
  rw [asr_eq, asr_eq]
  omega

/-- The blue difference `B - Yp` rises with blue and falls with the other channels. -/
theorem sub_fwdLuma_blue_mono (c : FwdRow) {r g b r' g' b' : Byte} (hr : ofByte r' ≤ ofByte r) (hg : ofByte g' ≤ ofByte g)
    (hb : ofByte b ≤ ofByte b') : ofByte b - fwdLuma c r g b ≤ ofByte b' - fwdLuma c r' g' b' :=
  sub_asr_mono c.bw hb (add_le_add (ofByte_mul_mono c.rw hr) (ofByte_mul_mono c.gw hg))

/-- The red difference `R - Yp` rises with red and falls with the other channels. -/
theorem sub_fwdLuma_red_mono (c : FwdRow) {r g b r' g' b' : Byte} (hr : ofByte r ≤ ofByte r') (hg : ofByte g' ≤ ofByte g)
    (hb : ofByte b' ≤ ofByte b) : ofByte r - fwdLuma c r g b ≤ ofByte r' - fwdLuma c r' g' b' := by
  have rest := add_le_add (ofByte_mul_mono c.gw hg) (ofByte_mul_mono c.bw hb)
  simpa only [fwdLuma, add_rotate (ofByte c.rw * _)] using sub_asr_mono c.rw hr rest

theorem blueProduct_between_corners (c : FwdRow) (r g b : Byte) :
    (ofByte 0 - fwdLuma c 255 255 0) * ofByte c.cbScale ≤ (ofByte b - fwdLuma c r g b) * ofByte c.cbScale ∧
    (ofByte b - fwdLuma c r g b) * ofByte c.cbScale ≤ (ofByte 255 - fwdLuma c 0 0 255) * ofByte c.cbScale :=
  ⟨mul_le_mul_of_nonneg_right (sub_fwdLuma_blue_mono c (byte_le_max r) (byte_le_max g) (zero_le_byte b)) (ofByte_nonneg _),
    mul_le_mul_of_nonneg_right (sub_fwdLuma_blue_mono c (zero_le_byte r) (zero_le_byte g) (byte_le_max b)) (ofByte_nonneg _)⟩

theorem redProduct_between_corners (c : FwdRow) (r g b : Byte) :
    (ofByte 0 - fwdLuma c 0 255 255) * ofByte c.crScale ≤ (ofByte r - fwdLuma c r g b) * ofByte c.crScale ∧
    (ofByte r - fwdLuma c r g b) * ofByte c.crScale ≤ (ofByte 255 - fwdLuma c 255 0 0) * ofByte c.crScale :=
  ⟨mul_le_mul_of_nonneg_right (sub_fwdLuma_red_mono c (zero_le_byte r) (byte_le_max g) (byte_le_max b)) (ofByte_nonneg _),
    mul_le_mul_of_nonneg_right (sub_fwdLuma_red_mono c (byte_le_max r) (zero_le_byte g) (zero_le_byte b)) (ofByte_nonneg _)⟩

theorem fwdTermU_between_corners (c : FwdRow) (r g b : Byte) :
    fwdTermU c 0 (fwdLuma c 255 255 0) ≤ fwdTermU c b (fwdLuma c r g b) ∧
    fwdTermU c b (fwdLuma c r g b) ≤ fwdTermU c 255 (fwdLuma c 0 0 255) :=
  (blueProduct_between_corners c r g b).imp (fun h => add_le_add_left (asr_mono 8 h) 128)
    fun h => add_le_add_left (asr_mono 8 h) 128

theorem fwdTermV_between_corners (c : FwdRow) (r g b : Byte) :
    fwdTermV c 0 (fwdLuma c 0 255 255) ≤ fwdTermV c r (fwdLuma c r g b) ∧
    fwdTermV c r (fwdLuma c r g b) ≤ fwdTermV c 255 (fwdLuma c 255 0 0) :=
  (redProduct_between_corners c r g b).imp (fun h => add_le_add_left (asr_mono 8 h) 128)
    fun h => add_le_add_left (asr_mono 8 h) 128

/-- The provisional luma lies between those of black and white, which are greys. -/
theorem fwdLuma_range (std : Std) (r g b : Byte) :
    0 ≤ fwdLuma (lutFwd std) r g b ∧ fwdLuma (lutFwd std) r g b ≤ 255 := by
  have low := fwdLuma_mono (lutFwd std) (zero_le_byte r) (zero_le_byte g) (zero_le_byte b)
  have high := fwdLuma_mono (lutFwd std) (byte_le_max r) (byte_le_max g) (byte_le_max b)
  rw [fwdLuma_grey (lutFwd_weights_sum std)] at low high
  exact ⟨low, high⟩

/-- Settles O10: each value lies between its corners, and the corners' values are those of R139. -/
theorem forwardValuesLieInTheirRanges : Obligations.ForwardValuesLieInTheirRanges := by
  intro std r g b
  obtain ⟨ypLow, ypHigh⟩ := fwdLuma_range std r g b
  obtain ⟨pULow, pUHigh⟩ := blueProduct_between_corners (lutFwd std) r g b
  obtain ⟨pVLow, pVHigh⟩ := redProduct_between_corners (lutFwd std) r g b
  obtain ⟨tULow, tUHigh⟩ := fwdTermU_between_corners (lutFwd std) r g b
  obtain ⟨tVLow, tVHigh⟩ := fwdTermV_between_corners (lutFwd std) r g b
  have yLow := fwdRerange_mono (lutFwd std) ypLow
  have yHigh := fwdRerange_mono (lutFwd std) ypHigh
  refine ⟨ypLow, ypHigh, ?_⟩
  cases std <;>
    exact ⟨pULow.trans' (by decide), pUHigh.trans (by decide), pVLow.trans' (by decide), pVHigh.trans (by decide),
      tULow.trans' (by decide), tUHigh.trans (by decide), tVLow.trans' (by decide), tVHigh.trans (by decide),
      yLow.trans' (by decide), yHigh.trans (by decide)⟩

/-! ## Inverse (R135, R136) -/

theorem invLuma_mono (c : InvRow) {y y' : Byte} (h : ofByte y ≤ ofByte y') : invLuma c y ≤ invLuma c y' :=
  asr_mono 7 (ofByte_mul_mono c.yScale (sub_le_sub_right h _))

section
variable (c : InvRow) {u v u' v' : Byte} (hu : ofByte u ≤ ofByte u') (hv : ofByte v ≤ ofByte v')

include hu in
theorem invOffsets_b_mono : (invOffsets c u v).b ≤ (invOffsets c u' v').b :=
  asr_mono 6 (ofByte_mul_mono c.cbDescale (sub_le_sub_right hu 128))

include hv in
theorem invOffsets_r_mono : (invOffsets c u v).r ≤ (invOffsets c u' v').r :=
  asr_mono 6 (ofByte_mul_mono c.crDescale (sub_le_sub_right hv 128))

include hu hv in
theorem invOffsets_g_mono : (invOffsets c u v).g ≤ (invOffsets c u' v').g :=
  asr_mono 7 (add_le_add (ofByte_mul_mono c.gCb (sub_le_sub_right hu 128))
    (ofByte_mul_mono c.gCr (sub_le_sub_right hv 128)))

end

/-- Settles O11: each value lies between those at the bytes 0 and 255, which are the bounds of R139. -/
theorem inverseValuesLieInTheirRanges : Obligations.InverseValuesLieInTheirRanges := by
  intro std y u v
  have ypLow := invLuma_mono (lutInv std) (zero_le_byte y)
  have ypHigh := invLuma_mono (lutInv std) (byte_le_max y)
  have bLow := invOffsets_b_mono (lutInv std) (v := 0) (v' := v) (zero_le_byte u)
  have bHigh := invOffsets_b_mono (lutInv std) (v := v) (v' := 255) (byte_le_max u)
  have rLow := invOffsets_r_mono (lutInv std) (u := 0) (u' := u) (zero_le_byte v)
  have rHigh := invOffsets_r_mono (lutInv std) (u := u) (u' := 255) (byte_le_max v)
  have gLow := invOffsets_g_mono (lutInv std) (zero_le_byte u) (zero_le_byte v)
  have gHigh := invOffsets_g_mono (lutInv std) (byte_le_max u) (byte_le_max v)
  cases std <;>
    exact ⟨ypLow.trans' (by decide), ypHigh.trans (by decide), bLow.trans' (by decide), bHigh.trans (by decide),
      rLow.trans' (by decide), rHigh.trans (by decide), gLow.trans' (by decide), gHigh.trans (by decide)⟩

/-! ## The saturation (R138) -/

theorem clamp8_of_neg {a : Int} (h : a < 0) : clamp8 a = 0 := if_pos h

theorem clamp8_of_gt {a : Int} (h : 255 < a) : clamp8 a = 255 := by
  rw [clamp8, if_neg (by omega), if_pos h]

theorem clamp8_of_mem {a : Int} (h0 : 0 ≤ a) (h1 : a ≤ 255) : clamp8 a = a := by
  rw [clamp8, if_neg (by omega), if_neg (by omega)]

/-- R139: the bounds of the last row come from those of the luma and of the offsets. -/
theorem clampArgument_range {std : Std} {y u v : Byte} {x : Int}
    (h : x = invLuma (lutInv std) y + (invOffsets (lutInv std) u v).r ∨
      x = invLuma (lutInv std) y - (invOffsets (lutInv std) u v).g ∨
      x = invLuma (lutInv std) y + (invOffsets (lutInv std) u v).b) : -289 ≤ x ∧ x ≤ 545 := by
  have ranges := inverseValuesLieInTheirRanges std y u v
  cases std <;> dsimp only at ranges <;> omega

/-- Settles O12: the three cases of the definition, and the range of the argument. -/
theorem clampSaturatesAndItsArgumentFits : Obligations.ClampSaturatesAndItsArgumentFits :=
  ⟨fun _ => ⟨clamp8_of_neg, clamp8_of_gt, clamp8_of_mem⟩, fun _ _ _ _ _ => clampArgument_range⟩

/-! ## The achromatic law (R140) -/

theorem fwdTermU_self (c : FwdRow) (b : Byte) : fwdTermU c b (ofByte b) = 128 := by
  rw [fwdTermU, sub_self, zero_mul, asr_eq, Int.zero_ediv, zero_add]

theorem fwdTermV_self (c : FwdRow) (r : Byte) : fwdTermV c r (ofByte r) = 128 := by
  rw [fwdTermV, sub_self, zero_mul, asr_eq, Int.zero_ediv, zero_add]

/-- Four equal terms have that term as their mean (R152). -/
theorem chromaDecimate_same (t : Int) : chromaDecimate t t t t = t := by
  rw [chromaDecimate, asr_eq]
  omega

/-- A grey pixel carries no chroma: its luma is its value, so both differences vanish. -/
theorem fwdPixel_grey (std : Std) (v : Byte) :
    fwdPixel (lutFwd std) v v v = ⟨fwdRerange (lutFwd std) (ofByte v), 128, 128⟩ := by
  rw [fwdPixel, fwdLuma_grey (lutFwd_weights_sum std), fwdTermU_self, fwdTermV_self]

theorem invOffsets_neutral (c : InvRow) : invOffsets c 128 128 = ⟨0, 0, 0⟩ := by
  have neutral : ofByte 128 - 128 = 0 := rfl
  rw [invOffsets, neutral]
  simp [asr_eq]

/-- Settles O13: the luma of a grey is its value, and the offsets of the neutral chroma are 0. -/
theorem greyHasNoChroma : Obligations.GreyHasNoChroma := by
  refine ⟨fun std v => ⟨fwdLuma_grey (lutFwd_weights_sum std) v, fwdTermU_self _ v, fwdTermV_self _ v⟩, fun std v => ?_,
    fun std y => ?_⟩
  · rw [fwdPixel_grey]
    exact ⟨chromaDecimate_same 128, chromaDecimate_same 128⟩
  · simp only [invOffsets_neutral, invRed, invGreen, invBlue, ofByte_toByte_clamp8, add_zero, sub_zero, and_self]

end Sys2Proof.Machine
end

section
/-! PROOFS. The decimations (R152, R158), and what a forward command leaves under each of them (R157, R197). -/

namespace Sys2Proof.Machine

open Sys2Proof

/-! ## The truncating sum and the pairwise averages -/

theorem chromaDecimate_eq (tl tr bl br : Int) : chromaDecimate tl tr bl br = (tl + tr + bl + br) / 4 := asr_eq _ 2

theorem avg_eq (a b : Int) : avg a b = (a + b + 1) / 2 := asr_eq _ 1

/-- Settles O14: the shift is a division, and 4 * 128 moves out of the mean. -/
theorem decimationIsTheTruncatedMean : Obligations.DecimationIsTheTruncatedMean := by
  refine ⟨fun t0 t1 t2 t3 => ?_, chromaDecimate_same, by decide, by decide, by decide, by decide⟩
  rw [chromaDecimate_eq]
  omega

/-- Each of the three averages rounds up where the one division of R152 rounds down. -/
theorem chromaDecimate_le_avg_avg (a b c d : Int) : chromaDecimate a b c d ≤ avg (avg a b) (avg c d) := by
  rw [chromaDecimate_eq, avg_eq, avg_eq, avg_eq]
  omega

/-- The truncating sum does not tell the rows of a block from its columns. -/
theorem chromaDecimate_transpose (tl tr bl br : Int) : chromaDecimate tl tr bl br = chromaDecimate tl bl tr br := by
  rw [chromaDecimate, chromaDecimate, add_right_comm tl]

/-- Settles O15: the bound for horizontal pairs is that for vertical pairs of the transposed block. -/
theorem pairwiseAveragesNeverFallBelow : Obligations.PairwiseAveragesNeverFallBelow := by
  refine ⟨avg_eq, fun tl tr bl br => ⟨rfl, rfl, chromaDecimate_le_avg_avg tl tr bl br, ?_⟩, by decide, by decide, by decide⟩
  exact (chromaDecimate_transpose tl tr bl br).trans_le (chromaDecimate_le_avg_avg tl bl tr br)

/-- Of terms that fit a byte every decimation fits a byte (R152, R158). -/
theorem decimated_range {t : Nat → Nat → Int} (range : ∀ py px, 0 ≤ t py px ∧ t py px ≤ 255) (mode : ChromaMode)
    (band bx : Nat) : 0 ≤ decimated mode t band bx ∧ decimated mode t band bx ≤ 255 := by
  have tl := range (2 * band) (2 * bx)
  have tr := range (2 * band) (2 * bx + 1)
  have bl := range (2 * band + 1) (2 * bx)
  have br := range (2 * band + 1) (2 * bx + 1)
  cases mode <;> simp only [decimated, decimate, chromaDecimate_eq, avg_eq] <;> omega

/-! ## What a forward command leaves -/

/-- The values of a pixel fit a byte, whatever the standard (R139). -/
theorem fwdPixel_range (std : Std) (r g b : Byte) :
    (0 ≤ (fwdPixel (lutFwd std) r g b).y ∧ (fwdPixel (lutFwd std) r g b).y ≤ 255) ∧
    (0 ≤ (fwdPixel (lutFwd std) r g b).tU ∧ (fwdPixel (lutFwd std) r g b).tU ≤ 255) ∧
    (0 ≤ (fwdPixel (lutFwd std) r g b).tV ∧ (fwdPixel (lutFwd std) r g b).tV ≤ 255) := by
  obtain ⟨-, -, ranges⟩ := forwardValuesLieInTheirRanges std r g b
  cases std <;> dsimp only [fwdPixel] at ranges ⊢ <;> omega

theorem ofByte_storedY (std : Std) (d : Desc) (m : Memory) (py px : Nat) :
    ofByte (storedY std d m py px) = fwdRerange (lutFwd std) (lumaAt (lutFwd std) d m py px) :=
  have ⟨⟨low, high⟩, _, _⟩ := fwdPixel_range std _ _ _
  ofByte_toByte low high

theorem ofByte_storedU (mode : ChromaMode) (std : Std) (d : Desc) (m : Memory) (band bx : Nat) :
    ofByte (storedU mode std d m band bx) = decimated mode (termUAt (lutFwd std) d m) band bx :=
  have ⟨low, high⟩ := decimated_range (fun _ _ => have ⟨_, tU, _⟩ := fwdPixel_range std _ _ _; tU) mode band bx
  ofByte_toByte low high

theorem ofByte_storedV (mode : ChromaMode) (std : Std) (d : Desc) (m : Memory) (band bx : Nat) :
    ofByte (storedV mode std d m band bx) = decimated mode (termVAt (lutFwd std) d m) band bx :=
  have ⟨low, high⟩ := decimated_range (fun _ _ => have ⟨_, _, tV⟩ := fwdPixel_range std _ _ _; tV) mode band bx
  ofByte_toByte low high

/-- A forward command whose preconditions hold leaves the values of R133 and of its decimation, in any configuration: it
stores them, one byte at an address. -/
theorem forwardEffect_stores {cfg : Config} {i : Instr} {b : Backing} (dir : i.dir = .forward)
    (check : violation cfg i b = none) {m : Memory} (wf : Memory.wf m = true) :
    ForwardEffect (commandChroma cfg i) i m (m.writeAll (commandStores cfg i m)) := by
  obtain ⟨-, strides, -, -, disjoint, -⟩ := (violation_eq_none_iff cfg i b).1 check
  have stored : ∀ {a v}, (a, v) ∈ commandStores cfg i m → (m.writeAll (commandStores cfg i m)).read a = v :=
    read_stores_of_mem strides disjoint wf
  exact {
    y := fun py px hy hx => by
      rw [stored ((mem_forwardStores dir).2 (.inl ⟨py, px, hy, hx, rfl⟩)), ofByte_storedY]
    u := fun band bx hb hx => by
      rw [stored ((mem_forwardStores dir).2 (.inr (.inl ⟨band, bx, hb, hx, rfl⟩))), ofByte_storedU]
    v := fun band bx hb hx => by
      rw [stored ((mem_forwardStores dir).2 (.inr (.inr ⟨band, bx, hb, hx, rfl⟩))), ofByte_storedV]
    rest := fun a => read_stores_of_not_mem wf }

/-! ## `VEC_CHROMA_MODE` -/

theorem execIn_next_iff {cfg : Config} {i : Instr} {s t : State} :
    execIn cfg i s = .next t ↔ violation cfg i s.backing = none ∧ t = s.complete (commandStores cfg i s.mem) := by
  rw [execIn_eq, runCommand_next_iff]

theorem commandChroma_scalar (cfg : Config) {i : Instr} (h : i.impl = .scalar) : commandChroma cfg i = .truncSum := by
  simp [commandChroma, h, Impl.isVector]

theorem commandChroma_vector (cfg : Config) {i : Instr} (h : i.impl.isVector = true) :
    commandChroma cfg i = cfg.vecChroma := if_pos h

/-- A command that decimates nothing, or by the one rule of R157, makes the same stores in every configuration. -/
theorem commandStores_config (cfg cfg' : Config) {i : Instr} (h : i.dir = .inverse ∨ i.impl = .scalar) (m : Memory) :
    commandStores cfg i m = commandStores cfg' i m := by
  rcases h with inverse | scalar
  · simp only [commandStores, inverse]
  · simp only [commandStores, commandChroma_scalar _ scalar]

/-- Settles O33: the configurations make stores that differ in the decimated bytes alone, and these are known. -/
theorem chromaModeTouchesOnlyForwardVectorChroma : Obligations.ChromaModeTouchesOnlyForwardVectorChroma := by
  refine ⟨rfl, fun cfg cfg' i s t u wf run run' => ?_, fun cfg i s t wf dir vector run => ?_⟩
  · obtain ⟨check, rfl⟩ := execIn_next_iff.1 run
    obtain ⟨check', rfl⟩ := execIn_next_iff.1 run'
    refine ⟨rfl, fun h => by rw [commandStores_config cfg cfg' h], fun a => ?_⟩
    cases dir : i.dir with
    | inverse => exact .inr (by rw [commandStores_config cfg cfg' (.inl dir)])
    | forward =>
      have effect := forwardEffect_stores dir check wf
      have effect' := forwardEffect_stores dir check' wf
      by_cases chroma : InUSet i a ∨ InVSet i a
      · exact .inl ⟨rfl, chroma⟩
      right
      by_cases luma : InYSet i a
      · obtain ⟨py, px, hy, hx, rfl⟩ := luma
        exact ofByte_injective ((effect.y py px hy hx).trans (effect'.y py px hy hx).symm)
      · have out : ¬ InWriteSet i a := by simpa only [InWriteSet, dir] using not_or_intro luma chroma
        exact (effect.rest a out).trans (effect'.rest a out).symm
  · obtain ⟨check, rfl⟩ := execIn_next_iff.1 run
    rw [← commandChroma_vector cfg vector]
    exact forwardEffect_stores dir check wf

end Sys2Proof.Machine
end

section
/-! PROOFS. An image split in two at an even row or an even column (R156, R235): the shards are parts of the command, they are
legal, and every block of the command is a block of one of them. -/

namespace Sys2Proof.Machine

open Sys2Proof

/-! ## Parts that keep the implementation -/

/-- A part of a vector command that starts at a vector block makes accesses of the whole only (R61). -/
theorem PartOf.vectorAccesses_subset {j p : Instr} {b0 x0 : Nat} (h : PartOf j b0 x0 p) (impl : p.impl = j.impl)
    (vector : j.impl.isVector = true) (start : x0 % 16 = 0) : vectorAccesses p.desc ⊆ vectorAccesses j.desc := by
  intro b hb
  obtain ⟨band, k, hband, hk, access⟩ := (mem_vectorAccesses p.desc b).1 hb
  change band < bands p at hband
  change k < cmdWidth p / 32 at hk
  have inBands := h.inBands
  have inCols := h.inCols
  have half := two_mul_bandBlocks p
  have blocks := bandBlocks_vector (impl ▸ vector)
  rw [bandBlocks_vector vector] at inCols
  have rgb : ∀ dy < 2, rgbAddr p.desc (2 * band + dy) (32 * k)
      = rgbAddr j.desc (2 * (b0 + band) + dy) (32 * (x0 / 16 + k)) := fun dy hdy => by
    rw [h.rgb _ _ (by simp only [procRows]; omega) (by omega)]
    congr 1 <;> omega
  have y : ∀ dy < 2, yAddr p.desc (2 * band + dy) (32 * k)
      = yAddr j.desc (2 * (b0 + band) + dy) (32 * (x0 / 16 + k)) := fun dy hdy => by
    rw [h.y _ _ (by simp only [procRows]; omega) (by omega)]
    congr 1 <;> omega
  have column : x0 + 16 * k = 16 * (x0 / 16 + k) := by omega
  refine (mem_vectorAccesses j.desc b).2 ⟨b0 + band, x0 / 16 + k, ?_, ?_, ?_⟩
  · change b0 + band < bands j
    omega
  · change x0 / 16 + k < cmdWidth j / 32
    omega
  rw [mem_vectorBlockAccesses] at access ⊢
  rcases access with ⟨dy, l, hdy, hl, rfl⟩ | ⟨dy, l, hdy, hl, rfl⟩ | rfl | rfl
  · exact .inl ⟨dy, l, hdy, hl, by rw [rgb dy hdy]⟩
  · exact .inr (.inl ⟨dy, l, hdy, hl, by rw [y dy hdy]⟩)
  · exact .inr (.inr (.inl (by rw [h.u _ _ hband (by omega), column])))
  · exact .inr (.inr (.inr (by rw [h.v _ _ hband (by omega), column])))

/-- A part of a legal command, by the same implementation and no wider, with the strides of the whole, is legal; of a vector
command it has to start at a vector block. -/
theorem PartOf.legal_of_impl_eq {j p : Instr} {b0 x0 : Nat} (h : PartOf j b0 x0 p) {s : State} (whole : Legal j s)
    (impl : p.impl = j.impl) (start : j.impl.isVector = true → x0 % 16 = 0) (width : cmdWidth p ≤ cmdWidth j)
    (rgbStride : p.desc.rgbStride = j.desc.rgbStride) (yStride : p.desc.yStride = j.desc.yStride)
    (uvStride : p.desc.uvStride = j.desc.uvStride) : Legal p s := by
  refine h.legal whole ((stridesOk_iff p).2 ?_) ((alignedOk_iff p).2 fun va a ha => ?_)
  · have rgbTight := whole.rgbTight
    have yTight := whole.yTight
    have uvTight := whole.uvTight
    rw [rgbStride, yStride, uvStride]
    omega
  · have vaWhole : j.impl = .vecAligned := impl.symm.trans va
    have vector : j.impl.isVector = true := by rw [vaWhole]; rfl
    exact whole.aligned vaWhole a (h.vectorAccesses_subset impl vector (start vector) ha)

/-! ## A command split in two -/

theorem splitInto_pair {j p q : Instr} {b0 x0 b1 x1 : Nat} (first : PartOf j b0 x0 p) (second : PartOf j b1 x1 q)
    (covers : ∀ band bx, band < bands j → bx < bandBlocks j →
      (b0 ≤ band ∧ band < b0 + bands p ∧ x0 ≤ bx ∧ bx < x0 + bandBlocks p) ∨
      (b1 ≤ band ∧ band < b1 + bands q ∧ x1 ≤ bx ∧ bx < x1 + bandBlocks q)) : SplitInto j [p, q] where
  parts r hr := by
    rcases List.mem_pair.1 hr with rfl | rfl
    · exact ⟨_, _, first⟩
    · exact ⟨_, _, second⟩
  covers band bx hb hx := (covers band bx hb hx).elim
    (fun inside => ⟨p, by simp, _, _, first, inside⟩) fun inside => ⟨q, by simp, _, _, second, inside⟩

theorem SplitInto.perm {j : Instr} {ps qs : List Instr} (h : SplitInto j ps) (perm : ps.Perm qs) : SplitInto j qs where
  parts p hp := h.parts p (perm.mem_iff.2 hp)
  covers band bx hb hx :=
    have ⟨p, hp, block⟩ := h.covers band bx hb hx
    ⟨p, perm.mem_iff.1 hp, block⟩

/-- A legal command split into two legal parts: the order of the parts does not matter (R235). -/
theorem exec_split_either_order {j p q : Instr} {s : State} (wf : Memory.wf s.mem = true) (whole : Legal j s)
    (split : SplitInto j [p, q]) (legal : ∀ r ∈ [p, q], Legal r s) :
    ∃ t u v, exec j s = .next t ∧ execSeq [p, q] s = .next u ∧ execSeq [q, p] s = .next v ∧
      u.mem = t.mem ∧ v.mem = t.mem := by
  have swap : [p, q].Perm [q, p] := .swap q p []
  obtain ⟨u, run, mem⟩ := execSeq_of_splitInto wf whole split legal
  obtain ⟨v, run', mem'⟩ := execSeq_of_splitInto wf whole (split.perm swap) fun r hr => legal r (swap.mem_iff.2 hr)
  exact ⟨_, u, v, exec_of_legal whole, run, run', mem, mem'⟩

/-! ## The same command on another descriptor -/

@[simp] theorem Instr.dir_withDesc (i : Instr) (d : Desc) : (Instr.withDesc i d).dir = i.dir := Instr.dir_ofParts ..

@[simp] theorem Instr.impl_withDesc (i : Instr) (d : Desc) : (Instr.withDesc i d).impl = i.impl := Instr.impl_ofParts ..

@[simp] theorem Instr.std_withDesc (i : Instr) (d : Desc) : (Instr.withDesc i d).std = i.std := Instr.std_ofParts ..

@[simp] theorem Instr.desc_withDesc (i : Instr) (d : Desc) : (Instr.withDesc i d).desc = d := Instr.desc_ofParts ..

/-! ## Rows: where the address in the whole is in the memory space, no base wraps (notes/assumptions/18.md) -/

theorem rowShifted_base_add {base stride : Word} {n row col : Nat}
    (h : base.toNat + (n + row) * stride.toNat + col < 2 ^ 32) :
    (base + BitVec.ofNat 32 (n * stride.toNat)).toNat + row * stride.toNat + col
      = base.toNat + (n + row) * stride.toNat + col := by
  have shift : base.toNat + (n + row) * stride.toNat + col
      = base.toNat + row * stride.toNat + (n * stride.toNat + col) := by ring
  rw [shift] at h ⊢
  exact shifted_base_add h

/-- The rows of a command from `r0` on, `rows` of them. -/
def rowShard (i : Instr) (r0 rows : Nat) : Instr := Instr.withDesc i (Desc.rowShard i.desc r0 rows)

section

variable {i : Instr} {r0 rows : Nat}

@[simp] theorem desc_rowShard : (rowShard i r0 rows).desc = Desc.rowShard i.desc r0 rows := Instr.desc_withDesc ..

theorem bands_rowShard (fits : r0 + rows ≤ cmdHeight i) : bands (rowShard i r0 rows) = rows / 2 := by
  have := i.desc.height.isLt
  simp only [bands, cmdHeight, desc_rowShard, Desc.rowShard, BitVec.toNat_ofNat] at fits ⊢
  rw [Nat.mod_eq_of_lt (by omega)]

@[simp] theorem cmdWidth_rowShard : cmdWidth (rowShard i r0 rows) = cmdWidth i := by
  simp [cmdWidth, Desc.rowShard]

@[simp] theorem bandBlocks_rowShard : bandBlocks (rowShard i r0 rows) = bandBlocks i := by
  rw [bandBlocks, procCols, cmdWidth_rowShard, rowShard, Instr.impl_withDesc]
  rfl

/-- The rows of a legal command from an even one on are a part of it: what the part addresses is in the memory space (U9). -/
theorem partOf_rowShard {s : State} (whole : Legal i s) (even : r0 % 2 = 0) (fits : r0 + rows ≤ cmdHeight i) :
    PartOf i (r0 / 2) 0 (rowShard i r0 rows) := by
  have inSpace : ∀ a, InFootprint i a → a < 2 ^ 32 := whole.inRange
  simp only [inFootprint_iff] at inSpace
  have half := two_mul_bandBlocks i
  have half' := two_mul_bandBlocks (rowShard i r0 rows)
  rw [bandBlocks_rowShard] at half'
  have inBands : r0 / 2 + bands (rowShard i r0 rows) ≤ bands i := by
    rw [bands_rowShard fits, bands]
    omega
  have twice : 2 * (r0 / 2) = r0 := by omega
  refine ⟨by simp [rowShard], by simp [rowShard], inBands, by simp, ?_, ?_, ?_, ?_⟩ <;>
    simp only [procRows, Nat.mul_zero, Nat.zero_add, twice, bandBlocks_rowShard, desc_rowShard]
  · exact fun py px hy hx => rowShifted_base_add
      (inSpace _ (.inl ⟨r0 + py, px, 0, by simp only [procRows]; omega, by omega, by omega, rfl⟩))
  · exact fun py px hy hx => rowShifted_base_add
      (inSpace _ (.inr (.inl ⟨r0 + py, px, by simp only [procRows]; omega, by omega, rfl⟩)))
  · exact fun band bx hb hx => rowShifted_base_add
      (inSpace _ (.inr (.inr (.inl ⟨r0 / 2 + band, bx, by omega, hx, rfl⟩))))
  · exact fun band bx hb hx => rowShifted_base_add
      (inSpace _ (.inr (.inr (.inr ⟨r0 / 2 + band, bx, by omega, hx, rfl⟩))))

theorem legal_rowShard {s : State} (whole : Legal i s) (even : r0 % 2 = 0) (fits : r0 + rows ≤ cmdHeight i) :
    Legal (rowShard i r0 rows) s :=
  (partOf_rowShard whole even fits).legal_of_impl_eq whole (by simp [rowShard]) (fun _ => rfl) (by simp)
    (by simp [Desc.rowShard]) (by simp [Desc.rowShard]) (by simp [Desc.rowShard])

end

/-- Settles O30: the two shards are legal, and their bands are those of the whole. -/
theorem rowSplitLeavesTheSameMemory : Obligations.RowSplitLeavesTheSameMemory := by
  intro i s h1 wf whole even le
  have fitsTop : 0 + h1 ≤ cmdHeight i := by omega
  have fitsLow : h1 + (cmdHeight i - h1) ≤ cmdHeight i := by omega
  refine exec_split_either_order wf whole (p := rowShard i 0 h1) (q := rowShard i h1 (cmdHeight i - h1))
    (splitInto_pair (partOf_rowShard whole rfl fitsTop) (partOf_rowShard whole even fitsLow) fun band bx hb hx => ?_)
    (by simp [legal_rowShard whole rfl fitsTop, legal_rowShard whole even fitsLow])
  rw [bands_rowShard fitsTop, bands_rowShard fitsLow, bandBlocks_rowShard, bandBlocks_rowShard]
  rw [bands] at hb
  omega

/-! ## Columns -/

theorem bandBlocks_eq (i : Instr) :
    bandBlocks i = if i.impl.isVector then 16 * (cmdWidth i / 32) else cmdWidth i / 2 := by
  split
  next vector => exact bandBlocks_vector vector
  next scalar =>
    rw [bandBlocks, procCols, Impl.columns, if_neg scalar]
    omega

/-- The columns of a command from `c0` on, `cols` of them. -/
def colShard (i : Instr) (c0 cols : Nat) : Instr := Instr.withDesc i (Desc.colShard i.desc c0 cols)

section

variable {i : Instr} {c0 cols : Nat}

@[simp] theorem desc_colShard : (colShard i c0 cols).desc = Desc.colShard i.desc c0 cols := Instr.desc_withDesc ..

theorem cmdWidth_colShard (fits : c0 + cols ≤ cmdWidth i) : cmdWidth (colShard i c0 cols) = cols := by
  have := i.desc.width.isLt
  simp only [cmdWidth, desc_colShard, Desc.colShard, BitVec.toNat_ofNat] at fits ⊢
  exact Nat.mod_eq_of_lt (by omega)

theorem bandBlocks_colShard (fits : c0 + cols ≤ cmdWidth i) :
    bandBlocks (colShard i c0 cols) = if i.impl.isVector then 16 * (cols / 32) else cols / 2 := by
  rw [bandBlocks_eq, cmdWidth_colShard fits, colShard, Instr.impl_withDesc]

@[simp] theorem bands_colShard : bands (colShard i c0 cols) = bands i := by
  simp [bands, cmdHeight, Desc.colShard]

theorem partOf_colShard_of_fits {s : State} (whole : Legal i s) (even : c0 % 2 = 0)
    (start : i.impl.isVector = true → c0 % 32 = 0) (fits : c0 + cols ≤ cmdWidth i) :
    PartOf i 0 (c0 / 2) (colShard i c0 cols) := by
  refine partOf_colShard whole (cols := cols) (by simp [colShard]) (by simp [colShard]) (by simp) even ?_
  rw [bandBlocks_colShard fits, bandBlocks_eq i]
  split
  next vector =>
    have := start vector
    omega
  next => omega

theorem legal_colShard {s : State} (whole : Legal i s) (even : c0 % 2 = 0)
    (start : i.impl.isVector = true → c0 % 32 = 0) (fits : c0 + cols ≤ cmdWidth i) : Legal (colShard i c0 cols) s := by
  refine (partOf_colShard_of_fits whole even start fits).legal_of_impl_eq whole (by simp [colShard]) (fun vector => ?_) ?_
    (by simp [Desc.colShard]) (by simp [Desc.colShard]) (by simp [Desc.colShard])
  · have := start vector
    omega
  · rw [cmdWidth_colShard fits]
    omega

end

/-- Settles O31: the two shards are legal, and their blocks in a band are those of the whole. -/
theorem columnSplitLeavesTheSameMemory : Obligations.ColumnSplitLeavesTheSameMemory := by
  intro i s w1 wf whole even le start
  have fitsLeft : 0 + w1 ≤ cmdWidth i := by omega
  have fitsRight : w1 + (cmdWidth i - w1) ≤ cmdWidth i := by omega
  refine exec_split_either_order wf whole (p := colShard i 0 w1) (q := colShard i w1 (cmdWidth i - w1))
    (splitInto_pair (partOf_colShard_of_fits whole rfl (fun _ => rfl) fitsLeft)
      (partOf_colShard_of_fits whole even start fitsRight) fun band bx hb hx => ?_)
    (by simp [legal_colShard whole rfl (fun _ => rfl) fitsLeft, legal_colShard whole even start fitsRight])
  rw [bands_colShard, bands_colShard, bandBlocks_colShard fitsLeft, bandBlocks_colShard fitsRight]
  rw [bandBlocks_eq] at hx
  by_cases vector : i.impl.isVector = true
  · have := start vector
    simp only [if_pos vector] at hx ⊢
    omega
  · simp only [if_neg vector] at hx ⊢
    omega

end Sys2Proof.Machine
end

section
/-! PROOFS. What a legal command leaves (R170, R171): its stores are the values of the rules, byte for byte, and it completes. -/

namespace Sys2Proof.Machine

open Sys2Proof

/-! ## What an inverse command leaves -/

section
variable (std : Std) (d : Desc) (m : Memory) (py px : Nat)

theorem ofByte_storedRgb_red : ofByte (storedRgb std d m py px 0) =
    clamp8 (invLuma (lutInv std) (m.read (yAddr d py px)) + (offsetsAt (lutInv std) d m py px).r) :=
  ofByte_toByte_clamp8 _

theorem ofByte_storedRgb_green : ofByte (storedRgb std d m py px 1) =
    clamp8 (invLuma (lutInv std) (m.read (yAddr d py px)) - (offsetsAt (lutInv std) d m py px).g) :=
  ofByte_toByte_clamp8 _

theorem ofByte_storedRgb_blue : ofByte (storedRgb std d m py px 2) =
    clamp8 (invLuma (lutInv std) (m.read (yAddr d py px)) + (offsetsAt (lutInv std) d m py px).b) :=
  ofByte_toByte_clamp8 _

end

/-- An inverse command whose preconditions hold leaves the values of R137, in any configuration: it stores them, one byte at
an address. -/
theorem inverseEffect_stores {cfg : Config} {i : Instr} {b : Backing} (dir : i.dir = .inverse)
    (check : violation cfg i b = none) {m : Memory} (wf : Memory.wf m = true) :
    InverseEffect i m (m.writeAll (commandStores cfg i m)) := by
  obtain ⟨-, strides, -, -, disjoint, -⟩ := (violation_eq_none_iff cfg i b).1 check
  have stored : ∀ py px k, py < procRows i → px < procCols i → k < 3 →
      (m.writeAll (commandStores cfg i m)).read (rgbAddr i.desc py px + k) = storedRgb i.std i.desc m py px k :=
    fun py px k hy hx hk =>
      read_stores_of_mem strides disjoint wf ((mem_inverseStores dir).2 ⟨py, px, k, hy, hx, hk, rfl⟩)
  exact {
    r := fun py px hy hx =>
      (congrArg ofByte (stored py px 0 hy hx (by decide))).trans (ofByte_storedRgb_red ..)
    g := fun py px hy hx =>
      (congrArg ofByte (stored py px 1 hy hx (by decide))).trans (ofByte_storedRgb_green ..)
    b := fun py px hy hx =>
      (congrArg ofByte (stored py px 2 hy hx (by decide))).trans (ofByte_storedRgb_blue ..)
    rest := fun a => read_stores_of_not_mem wf }

/-! ## A legal command on this hardware -/

section
variable {i : Instr} {s : State} (wf : Memory.wf s.mem = true) (legal : Legal i s)
include wf legal

/-- On this hardware a legal forward command completes with the values of R133 and R152 (R170, R191, R192). -/
theorem exec_forward_of_legal (dir : i.dir = .forward) :
    ∃ t, exec i s = .next t ∧ ForwardEffect .truncSum i s.mem t.mem ∧ Completed t ∧ SameFrame s t := by
  have run := exec_of_legal legal
  have effect := forwardEffect_stores dir (violation_eq_none_of_commandLegal legal) wf
  rw [commandChroma_hardware] at effect
  exact ⟨_, run, effect, exec_next_frame run⟩

/-- On this hardware a legal inverse command completes with the values of R137 (R171, R193, R194). -/
theorem exec_inverse_of_legal (dir : i.dir = .inverse) :
    ∃ t, exec i s = .next t ∧ InverseEffect i s.mem t.mem ∧ Completed t ∧ SameFrame s t :=
  have run := exec_of_legal legal
  ⟨_, run, inverseEffect_stores dir (violation_eq_none_of_commandLegal legal) wf, exec_next_frame run⟩

end

/-! ## The scalar commands -/

/-- Settles O18: `RGB2YUV.S` has DIR = 0 and IMPL = 0, and it is a forward command. -/
theorem scalarForwardWritesItsResult : Obligations.ScalarForwardWritesItsResult := fun _ _ _ =>
  ⟨rfl, fun wf legal => exec_forward_of_legal wf legal rfl⟩

/-- Settles O19: `YUV2RGB.S` has DIR = 1 and IMPL = 0, and it is an inverse command. -/
theorem scalarInverseWritesItsResult : Obligations.ScalarInverseWritesItsResult := fun _ _ _ =>
  ⟨rfl, fun wf legal => exec_inverse_of_legal wf legal rfl⟩

end Sys2Proof.Machine
end

section
/-! PROOFS. The vector commands (R189 to R194): what they leave, the scalar command that each of them is, and the tail under
`VEC_TAIL_POLICY`. -/

namespace Sys2Proof.Machine

open Sys2Proof

/-! ## What a vector command leaves -/

/-- Settles O20: `RGB2YUV.VU` and `RGB2YUV.VA` have DIR = 0 and IMPL = 1 and 2, and both are forward commands. -/
theorem vectorForwardWritesItsResult : Obligations.VectorForwardWritesItsResult := fun _ _ _ =>
  ⟨rfl, rfl, fun wf legal => exec_forward_of_legal wf legal rfl, fun wf legal => exec_forward_of_legal wf legal rfl⟩

/-- Settles O21: `YUV2RGB.VU` and `YUV2RGB.VA` have DIR = 1 and IMPL = 1 and 2, and both are inverse commands. -/
theorem vectorInverseWritesItsResult : Obligations.VectorInverseWritesItsResult := fun _ _ _ =>
  ⟨rfl, rfl, fun wf legal => exec_inverse_of_legal wf legal rfl, fun wf legal => exec_inverse_of_legal wf legal rfl⟩

/-! ## The scalar command that a vector command is (R190) -/

/-- Two legal commands of which one is a part of the other with the same blocks in the same order have the same effect. -/
theorem PartOf.exec_eq {j p : Instr} (h : PartOf j 0 0 p) {s : State} (whole : Legal j s) (part : Legal p s)
    (blocks : commandBlocks p = commandBlocks j) : exec j s = exec p s := by
  have stores : commandStores Config.hardware p s.mem = commandStores Config.hardware j s.mem := by
    rw [commandStores_eq_flatMap, commandStores_eq_flatMap, ← blocks]
    refine List.flatMap_congr fun ⟨band, bx⟩ block => ?_
    obtain ⟨hb, hx⟩ := (mem_commandBlocks p band bx).1 block
    simpa only [Nat.zero_add] using h.commandBlock_eq s.mem hb hx
  rw [exec_of_legal whole, exec_of_legal part, stores]

/-- What a command writes at a byte that a part of it writes too, the part writes there as well. -/
theorem PartOf.read_stores_eq {j p : Instr} {b0 x0 : Nat} (h : PartOf j b0 x0 p) {s : State}
    (wf : Memory.wf s.mem = true) (whole : Legal j s) {a : Nat} (ha : InWriteSet p a) :
    (s.mem.writeAll (commandStores Config.hardware p s.mem)).read a
      = (s.mem.writeAll (commandStores Config.hardware j s.mem)).read a := by
  have inWhole : ∀ c ∈ commandStores Config.hardware p s.mem, c ∈ commandStores Config.hardware j s.mem :=
    fun c hc => by
      obtain ⟨band, bx, hb, hx, hc⟩ := h.mem_stores.1 hc
      have := h.inBands
      have := h.inCols
      exact mem_commandStores.2 ⟨b0 + band, x0 + bx, by omega, by omega, hc⟩
  obtain ⟨c, hc, rfl⟩ := (storedAt_iff Config.hardware p s.mem a).2 ha
  have one : ∀ c' ∈ commandStores Config.hardware j s.mem, c'.1 = c.1 → c'.2 = c.2 := fun c' hc' same =>
    stores_functional_of_legal whole hc' (inWhole c hc) same
  rw [Memory.read_writeAll_of_mem wf (fun c' hc' => one c' (inWhole c' hc')) ⟨c, hc, rfl⟩,
    Memory.read_writeAll_of_mem wf one ⟨c, inWhole c hc, rfl⟩]

theorem commandBlocks_vector {i : Instr} (h : i.impl.isVector = true) : commandBlocks i = vectorBlocks i.desc := if_pos h

theorem commandBlocks_scalar {i : Instr} (h : i.impl = .scalar) : commandBlocks i = scalarBlocks i.desc := by
  simp [commandBlocks, h, Impl.isVector]

/-- Sixteen blocks to a vector block, one vector block after the other, are the blocks of a row in their order. -/
theorem range_flatMap_sixteen (n : Nat) :
    ((List.range n).flatMap fun k => (List.range 16).map fun j => 16 * k + j) = List.range (16 * n) := by
  induction n with
  | zero => rfl
  | succ n ih =>
    rw [List.range_succ (n := n), List.flatMap_append, ih, List.flatMap_singleton, Nat.mul_succ, List.range_add]

/-- The descriptor of R190: only the width is another, `32*floor(W/32)`. -/
def Desc.wholeGroups (d : Desc) : Desc := { d with width := BitVec.ofNat 32 (fullGroups d) }

theorem toNat_width_wholeGroups (d : Desc) : (Desc.wholeGroups d).width.toNat = 32 * (d.width.toNat / 32) := by
  have := d.width.isLt
  simp only [Desc.wholeGroups, fullGroups, Config.vecPixels, BitVec.toNat_ofNat]
  omega

theorem wholeGroups_of_mod_eq_zero {d : Desc} (h : d.width.toNat % 32 = 0) : Desc.wholeGroups d = d := by
  have width : (Desc.wholeGroups d).width = d.width :=
    BitVec.eq_of_toNat_eq (by rw [toNat_width_wholeGroups]; omega)
  exact congrArg (fun w => { d with width := w }) width

/-- A vector command walks the blocks that the scalar command of R190 walks, in the same order. -/
theorem scalarBlocks_wholeGroups (d : Desc) : scalarBlocks (Desc.wholeGroups d) = vectorBlocks d := by
  have blocks : (Desc.wholeGroups d).width.toNat / 2 = 16 * (d.width.toNat / 32) := by
    rw [toNat_width_wholeGroups]
    omega
  rw [scalarBlocks, blocks, ← range_flatMap_sixteen]
  simp only [vectorBlocks, List.map_flatMap, List.map_map]
  rfl

section

variable {dir : Dir} {impl : Impl} {std : Std} {d : Desc} {s : State}

theorem partOf_wholeGroups (vector : impl.isVector = true) :
    PartOf (Instr.ofParts dir impl std d) 0 0 (Instr.ofParts dir .scalar std (Desc.wholeGroups d)) where
  dir := by simp
  std := by simp
  inBands := by simp [bands, cmdHeight, Desc.wholeGroups]
  inCols := by
    rw [bandBlocks_scalar (by simp), bandBlocks_vector (by simpa using vector)]
    simp only [cmdWidth, Instr.desc_ofParts, toNat_width_wholeGroups]
    omega
  rgb := by simp [rgbAddr, Desc.wholeGroups]
  y := by simp [yAddr, Desc.wholeGroups]
  u := by simp [uAddr, Desc.wholeGroups]
  v := by simp [vAddr, Desc.wholeGroups]

theorem legal_wholeGroups (vector : impl.isVector = true) (legal : Legal (Instr.ofParts dir impl std d) s) :
    Legal (Instr.ofParts dir .scalar std (Desc.wholeGroups d)) s := by
  refine (partOf_wholeGroups vector).legal legal ((stridesOk_iff _).2 ?_) ((alignedOk_iff _).2 (by simp))
  have rgbTight := legal.rgbTight
  have yTight := legal.yTight
  have uvTight := legal.uvTight
  simp only [cmdWidth, Instr.desc_ofParts, toNat_width_wholeGroups] at rgbTight yTight uvTight ⊢
  simp only [Desc.wholeGroups]
  omega

/-- The contract of R190. -/
theorem exec_vector_eq_scalar (vector : impl.isVector = true) (legal : Legal (Instr.ofParts dir impl std d) s) :
    exec (Instr.ofParts dir impl std d) s = exec (Instr.ofParts dir .scalar std (Desc.wholeGroups d)) s := by
  refine (partOf_wholeGroups vector).exec_eq legal (legal_wholeGroups vector legal) ?_
  rw [commandBlocks_scalar (by simp), commandBlocks_vector (by simpa using vector), Instr.desc_ofParts,
    Instr.desc_ofParts, scalarBlocks_wholeGroups]

/-- A legal aligned command is the unaligned one, which is legal without an alignment (R192, R194). -/
theorem exec_vecAligned_eq_vecUnaligned (legal : Legal (Instr.ofParts dir .vecAligned std d) s) :
    exec (Instr.ofParts dir .vecAligned std d) s = exec (Instr.ofParts dir .vecUnaligned std d) s := by
  have part : PartOf (Instr.ofParts dir .vecAligned std d) 0 0 (Instr.ofParts dir .vecUnaligned std d) :=
    partOf_of_desc_eq (by simp) (by simp) (by simp)
      (by rw [bandBlocks_vector (by simp [Impl.isVector]), bandBlocks_vector (by simp [Impl.isVector])]; simp [cmdWidth])
  have strides : stridesOk (Instr.ofParts dir .vecUnaligned std d) = true :=
    (stridesOk_iff _).2 (by simpa [cmdWidth] using And.intro legal.rgbTight (And.intro legal.yTight legal.uvTight))
  refine part.exec_eq legal (part.legal legal strides ((alignedOk_iff _).2 (by simp))) ?_
  rw [commandBlocks_vector (by simp [Impl.isVector]), commandBlocks_vector (by simp [Impl.isVector])]
  simp

end

/-- Settles O29: each clause compares a command with a part of it that has its blocks, or with the whole that it is a part
of. -/
theorem vectorCommandsEqualTheScalarOnes : Obligations.VectorCommandsEqualTheScalarOnes := by
  intro dir std d s
  refine ⟨fun impl vector legal => exec_vector_eq_scalar vector legal, fun impl vector wf legal whole => ?_,
    fun legal => exec_vecAligned_eq_vecUnaligned legal, fun groups legal => ?_⟩
  · exact ⟨_, _, exec_of_legal legal, exec_of_legal whole,
      fun a ha => (partOf_vxVector vector).read_stores_eq wf whole ha, fun a ha => read_stores_of_not_mem wf ha⟩
  · have scalar := exec_vector_eq_scalar rfl legal
    rw [wholeGroups_of_mod_eq_zero groups] at scalar
    exact ⟨scalar, (exec_vecAligned_eq_vecUnaligned legal).symm.trans scalar⟩

/-! ## `VEC_TAIL_POLICY` (R189) -/

/-- The tail policy acts through the check of U4 alone. -/
theorem execIn_tail_congr {cfg : Config} {p q : TailPolicy} {i : Instr}
    (h : tailOk { cfg with vecTail := p } i = tailOk { cfg with vecTail := q } i) (s : State) :
    execIn { cfg with vecTail := p } i s = execIn { cfg with vecTail := q } i s := by
  have check : violation { cfg with vecTail := p } i s.backing = violation { cfg with vecTail := q } i s.backing := by
    simp only [violation, h]
    rfl
  rw [execIn_eq, execIn_eq, runCommand, check]
  rfl

theorem execIn_refused_of_not_tailOk {cfg : Config} {i : Instr} (h : tailOk cfg i = false) (s : State) :
    ∃ r, execIn cfg i s = .refused r := by
  cases check : violation cfg i s.backing with
  | none =>
    obtain ⟨-, -, -, tail, -⟩ := (violation_eq_none_iff cfg i s.backing).1 check
    exact absurd (h.symm.trans tail) (by decide)
  | some r => exact ⟨r, by rw [execIn_eq, runCommand_refused_iff, check]⟩

/-- Settles O34: U4 fails of the tail under REFUSE, and of nothing else under either policy. -/
theorem refusingTheTailChangesNothingElse : Obligations.RefusingTheTailChangesNothingElse := by
  intro cfg i s _
  refine ⟨fun vector tail => execIn_refused_of_not_tailOk ?_ s, fun other => execIn_tail_congr ?_ s⟩
  · simp [tailOk, vector, tail]
  · have noTail : tailOk { cfg with vecTail := .refuse } i = true := by
      rcases other with scalar | groups
      · simp [tailOk, scalar]
      · simp [tailOk, groups]
    exact noTail

end Sys2Proof.Machine
end

section
/-! PROOFS. The lane operations and the shuffles (R181 to R188, R200). -/

namespace Sys2Proof.Machine

open Sys2Proof

/-! ## Lane by lane -/

/-- R10, R184: the arithmetic shift is the floor shift of the signed reading. -/
theorem toInt_sshiftRight_eq_asr {w : Nat} (x : BitVec w) (k : Nat) : (x.sshiftRight k).toInt = asr x.toInt k :=
  BitVec.toInt_sshiftRight

/-- R183: the difference wraps. -/
theorem toNat_sub_eq_emod (a b : Half) : ((a - b).toNat : Int) = ((a.toNat : Int) - b.toNat) % 2 ^ 16 := by
  have := b.isLt
  rw [BitVec.toNat_sub]
  omega

theorem toNat_zeroExtend_half (b : Byte) : (b.zeroExtend 16).toNat = b.toNat :=
  BitVec.toNat_setWidth_of_le (by decide)

/-- R187: the rounded average of two bytes fits a byte. -/
theorem toNat_avgLane (a b : Byte) : (avgLane a b).toNat = (a.toNat + b.toNat + 1) / 2 := by
  have := a.isLt
  have := b.isLt
  rw [avgLane, BitVec.toNat_ofNat]
  omega

/-- Settles O36: the lane of each result is the operation on the lanes, and that operation is read as an integer. -/
theorem laneOperationsAreLanewise : Obligations.LaneOperationsAreLanewise := by
  refine ⟨fun n a b k i h => ⟨?_, ?_, ?_, ?_, ?_⟩, fun v i h => ⟨?_, ?_⟩, fun a b i h => ⟨?_, ?_⟩, fun a b i h => ?_,
    fun m a j h => ?_⟩
  · rw [mullo16_getElem, BitVec.toNat_mul]
  · rw [add16_getElem, BitVec.toNat_add]
  · rw [sub16_getElem, toNat_sub_eq_emod]
  · rw [sra16_getElem, toInt_sshiftRight_eq_asr]
  · rw [srl16_getElem, BitVec.toNat_ushiftRight, Nat.shiftRight_eq_div_pow]
  · rw [widenLo_getElem, toNat_zeroExtend_half]
  · rw [widenHi_getElem, toNat_zeroExtend_half]
  · rw [packus_getElem_lo, packLane, ofByte_toByte_clamp8]
  · rw [packus_getElem_hi, packLane, ofByte_toByte_clamp8]
  · rw [avgu8_getElem, toNat_avgLane]
  · rw [pairsum16_getElem, BitVec.toNat_add]

/-! ## The shuffles (R188) -/

section
variable (v : Vector Byte 96) (p : Planar) (i : Nat) (h : i < 32)

theorem deinterleave3_r_getElem : (deinterleave3 v).r[i] = v[3 * i] := by simp [deinterleave3]

theorem deinterleave3_g_getElem : (deinterleave3 v).g[i] = v[3 * i + 1] := by simp [deinterleave3]

theorem deinterleave3_b_getElem : (deinterleave3 v).b[i] = v[3 * i + 2] := by simp [deinterleave3]

theorem interleave3_getElem_r : (interleave3 p)[3 * i] = p.r[i] := by simp [interleave3]

theorem interleave3_getElem_g : (interleave3 p)[3 * i + 1] = p.g[i] := by
  simp [interleave3, Nat.mul_add_div]

theorem interleave3_getElem_b : (interleave3 p)[3 * i + 2] = p.b[i] := by
  simp [interleave3, Nat.mul_add_div]

end

/-- A place among 96 bytes is one of the three channels of one of 32 pixels. -/
theorem exists_channel {n : Nat} (h : n < 96) : ∃ i < 32, n = 3 * i ∨ n = 3 * i + 1 ∨ n = 3 * i + 2 :=
  ⟨n / 3, by omega, by omega⟩

theorem interleave3_deinterleave3 (v : Vector Byte 96) : interleave3 (deinterleave3 v) = v := by
  refine Vector.ext fun n h => ?_
  obtain ⟨i, hi, rfl | rfl | rfl⟩ := exists_channel h
  · rw [interleave3_getElem_r _ i hi, deinterleave3_r_getElem]
  · rw [interleave3_getElem_g _ i hi, deinterleave3_g_getElem]
  · rw [interleave3_getElem_b _ i hi, deinterleave3_b_getElem]

theorem Planar.ext_rows {p q : Planar} (r : p.r = q.r) (g : p.g = q.g) (b : p.b = q.b) : p = q := by
  cases p
  cases q
  exact congr (congr (congrArg Planar.mk r) g) b

theorem deinterleave3_interleave3 (p : Planar) : deinterleave3 (interleave3 p) = p := by
  refine Planar.ext_rows (Vector.ext fun i h => ?_) (Vector.ext fun i h => ?_) (Vector.ext fun i h => ?_)
  · rw [deinterleave3_r_getElem, interleave3_getElem_r]
  · rw [deinterleave3_g_getElem, interleave3_getElem_g]
  · rw [deinterleave3_b_getElem, interleave3_getElem_b]

/-- Settles O37: the index equations of the two shuffles, and from them that each undoes the other. -/
theorem shufflesAreInverse : Obligations.ShufflesAreInverse :=
  ⟨fun v i h => ⟨deinterleave3_r_getElem v i h, deinterleave3_g_getElem v i h, deinterleave3_b_getElem v i h⟩,
    fun p i h => ⟨interleave3_getElem_r p i h, interleave3_getElem_g p i h, interleave3_getElem_b p i h⟩,
    interleave3_deinterleave3, deinterleave3_interleave3⟩

end Sys2Proof.Machine
end

section
/-! PROOFS. The forward lane datapath (R195). A lane is the low 16 bits of an integer, and the wrapping operations are those
of the integers; a shift or a pack asks that the integer fits the lane. -/

namespace Sys2Proof.Machine

open Sys2Proof

/-! ## Lanes as integers -/

theorem ofInt_sub {w : Nat} (a b : Int) : BitVec.ofInt w (a - b) = BitVec.ofInt w a - BitVec.ofInt w b := by
  rw [Int.sub_eq_add_neg, BitVec.ofInt_add, BitVec.ofInt_neg, BitVec.sub_eq_add_neg]

/-- R181: a widened byte is the unsigned integer it is. -/
theorem zeroExtend_eq_ofInt {w : Nat} (b : Byte) : b.zeroExtend w = BitVec.ofInt w (ofByte b) := by
  rw [ofByte, BitVec.ofInt_natCast, BitVec.ofNat_toNat]

/-- The constant of the chroma terms (R132, R135). -/
theorem ofByte_128 : ofByte 128 = 128 := rfl

/-- R184: where the integer fits the signed lane, the arithmetic shift is its floor shift. -/
theorem sshiftRight_ofInt {w : Nat} {a : Int} (hw : 0 < w) (low : -2 ^ (w - 1) ≤ a) (high : a < 2 ^ (w - 1)) (k : Nat) :
    (BitVec.ofInt w a).sshiftRight k = BitVec.ofInt w (asr a k) := by
  rw [← BitVec.ofInt_toInt (x := (BitVec.ofInt w a).sshiftRight k), toInt_sshiftRight_eq_asr,
    BitVec.toInt_ofInt_eq_self hw low high]

/-- R185: where the integer fits the unsigned lane, the logical shift is its floor shift. -/
theorem ushiftRight_ofInt {a : Int} (low : 0 ≤ a) (high : a < 65536) (k : Nat) :
    BitVec.ofInt 16 a >>> k = BitVec.ofInt 16 (asr a k) := by
  obtain ⟨n, rfl⟩ := Int.eq_ofNat_of_zero_le low
  have shift : asr (n : Int) k = ((n >>> k : Nat) : Int) := rfl
  refine BitVec.eq_of_toNat_eq ?_
  rw [shift, BitVec.ofInt_natCast, BitVec.ofInt_natCast, BitVec.toNat_ushiftRight, BitVec.toNat_ofNat, BitVec.toNat_ofNat,
    Nat.mod_eq_of_lt (by omega), Nat.mod_eq_of_lt (by have := Nat.shiftRight_le n k; omega)]

/-- R186: where the integer fits the signed lane, the pack is its saturation. -/
theorem packLane_ofInt {a : Int} (low : -32768 ≤ a) (high : a < 32768) :
    packLane (BitVec.ofInt 16 a) = toByte (clamp8 a) := by
  rw [packLane, BitVec.toInt_ofInt_eq_self (by decide) low high]

/-- The pack leaves an integer that fits a byte. -/
theorem packLane_ofInt_of_mem {a : Int} (low : 0 ≤ a) (high : a ≤ 255) : packLane (BitVec.ofInt 16 a) = toByte a := by
  rw [packLane_ofInt (by omega) (by omega), clamp8_of_mem low high]

/-! ## One pixel (R131 to R133) -/

theorem ofByte_mul_range (k b : Byte) : 0 ≤ ofByte k * ofByte b ∧ ofByte k * ofByte b ≤ ofByte k * 255 :=
  ⟨mul_nonneg (ofByte_nonneg k) (ofByte_nonneg b), ofByte_mul_mono k (ofByte_le b)⟩

/-- R139: the weighted sum of the luma needs 16 unsigned bits. -/
theorem lumaSum_range (std : Std) (r g b : Byte) :
    0 ≤ ofByte (lutFwd std).rw * ofByte r + ofByte (lutFwd std).gw * ofByte g + ofByte (lutFwd std).bw * ofByte b ∧
    ofByte (lutFwd std).rw * ofByte r + ofByte (lutFwd std).gw * ofByte g + ofByte (lutFwd std).bw * ofByte b < 65536 := by
  have weights := lutFwd_weights_sum std
  have red := ofByte_mul_range (lutFwd std).rw r
  have green := ofByte_mul_range (lutFwd std).gw g
  have blue := ofByte_mul_range (lutFwd std).bw b
  omega

/-- R139: the two chroma products fit 16 signed bits. -/
theorem chromaProducts_range (std : Std) (r g b : Byte) :
    let yp := fwdLuma (lutFwd std) r g b
    (-32768 ≤ (ofByte b - yp) * ofByte (lutFwd std).cbScale ∧ (ofByte b - yp) * ofByte (lutFwd std).cbScale < 32768) ∧
    (-32768 ≤ (ofByte r - yp) * ofByte (lutFwd std).crScale ∧ (ofByte r - yp) * ofByte (lutFwd std).crScale < 32768) := by
  obtain ⟨-, -, ranges⟩ := forwardValuesLieInTheirRanges std r g b
  cases std <;> dsimp only at ranges ⊢ <;> omega

theorem rerangeProduct_range (std : Std) (r g b : Byte) :
    0 ≤ fwdLuma (lutFwd std) r g b * ofByte (lutFwd std).yScale ∧
    fwdLuma (lutFwd std) r g b * ofByte (lutFwd std).yScale < 65536 := by
  obtain ⟨low, high⟩ := fwdLuma_range std r g b
  have scale := ofByte_le (lutFwd std).yScale
  have product := mul_le_mul high scale (ofByte_nonneg _) (by norm_num)
  exact ⟨mul_nonneg low (ofByte_nonneg _), by omega⟩

/-! ## A group of eight pixels (R195) -/

section
variable {std : Std} {r g b : Vector Half 8} {i : Nat} {h : i < 8} {R G B : Byte} (hr : r[i] = R.zeroExtend 16)
  (hg : g[i] = G.zeroExtend 16) (hb : b[i] = B.zeroExtend 16)
include hr hg hb

theorem lumaGroup_getElem :
    (lumaGroup (lutFwd std) r g b)[i] = BitVec.ofInt 16 (fwdLuma (lutFwd std) R G B) := by
  obtain ⟨low, high⟩ := lumaSum_range std R G B
  rw [fwdLuma, ← ushiftRight_ofInt low high, lumaGroup]
  simp only [srl16_getElem, add16_getElem, mullo16_getElem, broadcast_getElem, hr, hg, hb, zeroExtend_eq_ofInt,
    BitVec.ofInt_add, BitVec.ofInt_mul, BitVec.mul_comm]

theorem fwdGroup_y_getElem :
    (fwdGroup (lutFwd std) r g b).y[i] = BitVec.ofInt 16 (fwdPixel (lutFwd std) R G B).y := by
  obtain ⟨low, high⟩ := rerangeProduct_range std R G B
  rw [fwdPixel, fwdRerange, BitVec.ofInt_add, ← ushiftRight_ofInt low high, fwdGroup]
  simp only [srl16_getElem, add16_getElem, mullo16_getElem, broadcast_getElem, lumaGroup_getElem hr hg hb,
    zeroExtend_eq_ofInt, BitVec.ofInt_mul]

theorem fwdGroup_tU_getElem :
    (fwdGroup (lutFwd std) r g b).tU[i] = BitVec.ofInt 16 (fwdPixel (lutFwd std) R G B).tU := by
  obtain ⟨⟨low, high⟩, -⟩ := chromaProducts_range std R G B
  rw [fwdPixel, fwdTermU, BitVec.ofInt_add, ← sshiftRight_ofInt (by decide) low high, fwdGroup]
  simp only [sra16_getElem, add16_getElem, sub16_getElem, mullo16_getElem, broadcast_getElem, lumaGroup_getElem hr hg hb, hb,
    zeroExtend_eq_ofInt, BitVec.ofInt_mul, ofInt_sub, ofByte_128]

theorem fwdGroup_tV_getElem :
    (fwdGroup (lutFwd std) r g b).tV[i] = BitVec.ofInt 16 (fwdPixel (lutFwd std) R G B).tV := by
  obtain ⟨-, low, high⟩ := chromaProducts_range std R G B
  rw [fwdPixel, fwdTermV, BitVec.ofInt_add, ← sshiftRight_ofInt (by decide) low high, fwdGroup]
  simp only [sra16_getElem, add16_getElem, sub16_getElem, mullo16_getElem, broadcast_getElem, lumaGroup_getElem hr hg hb, hr,
    zeroExtend_eq_ofInt, BitVec.ofInt_mul, ofInt_sub, ofByte_128]

end

/-! ## A row of 32 pixels -/

theorem widenGroup_getElem_row (v : Vector Byte 32) {i : Nat} (h : i < 32) :
    (widenGroup v ⟨i / 8, by omega⟩)[i % 8]'(by omega) = v[i].zeroExtend 16 := by
  rw [widenGroup_getElem]
  simp only [Nat.div_add_mod]

section
variable (std : Std) (row : Vector Byte 96) {i : Nat} (h : i < 32)

/-- The forward arithmetic of pixel `i` of a row of RGB. -/
def rowPixel : FwdPixel := fwdPixel (lutFwd std) row[3 * i] row[3 * i + 1] row[3 * i + 2]

theorem fwdRowLanes_y_getElem : (fwdRowLanes (lutFwd std) row).y[i] = toByte (rowPixel std row h).y := by
  obtain ⟨⟨low, high⟩, -⟩ := fwdPixel_range std row[3 * i] row[3 * i + 1] row[3 * i + 2]
  simp only [fwdRowLanes, pack32_getElem, joinGroups_getElem]
  rw [fwdGroup_y_getElem (widenGroup_getElem_row _ h) (widenGroup_getElem_row _ h) (widenGroup_getElem_row _ h),
    deinterleave3_r_getElem, deinterleave3_g_getElem, deinterleave3_b_getElem, packLane_ofInt_of_mem low high, rowPixel]

theorem fwdRowLanes_tU_getElem :
    (fwdRowLanes (lutFwd std) row).tU[i] = BitVec.ofInt 16 (rowPixel std row h).tU := by
  simp only [fwdRowLanes, joinGroups_getElem]
  rw [fwdGroup_tU_getElem (widenGroup_getElem_row _ h) (widenGroup_getElem_row _ h) (widenGroup_getElem_row _ h),
    deinterleave3_r_getElem, deinterleave3_g_getElem, deinterleave3_b_getElem, rowPixel]

theorem fwdRowLanes_tV_getElem :
    (fwdRowLanes (lutFwd std) row).tV[i] = BitVec.ofInt 16 (rowPixel std row h).tV := by
  simp only [fwdRowLanes, joinGroups_getElem]
  rw [fwdGroup_tV_getElem (widenGroup_getElem_row _ h) (widenGroup_getElem_row _ h) (widenGroup_getElem_row _ h),
    deinterleave3_r_getElem, deinterleave3_g_getElem, deinterleave3_b_getElem, rowPixel]

end

/-- R195, R200: where the lanes of the two rows of a band hold a term that fits a byte, the four lanes of a block are summed
and shifted to its mean. -/
theorem decimateLanes_getElem {t : Nat → Nat → Int} (range : ∀ py px, 0 ≤ t py px ∧ t py px ≤ 255) {band k : Nat}
    {top low : Vector Half 32} (htop : ∀ i (h : i < 32), top[i] = BitVec.ofInt 16 (t (2 * band) (32 * k + i)))
    (hlow : ∀ i (h : i < 32), low[i] = BitVec.ofInt 16 (t (2 * band + 1) (32 * k + i))) {j : Nat} (h : j < 16) :
    (decimateLanes top low)[j] = toByte (decimated .truncSum t band (16 * k + j)) := by
  have column : 2 * (16 * k + j) = 32 * k + 2 * j := by omega
  have tl := range (2 * band) (32 * k + 2 * j)
  have tr := range (2 * band) (32 * k + 2 * j + 1)
  have bl := range (2 * band + 1) (32 * k + 2 * j)
  have br := range (2 * band + 1) (32 * k + 2 * j + 1)
  obtain ⟨meanLow, meanHigh⟩ := decimated_range range .truncSum band (16 * k + j)
  rw [← packLane_ofInt_of_mem meanLow meanHigh, decimated, decimate, chromaDecimate, column,
    ← ushiftRight_ofInt (by omega) (by omega)]
  simp only [decimateLanes, pack16_getElem, srl16_getElem, add16_getElem, pairsum16_getElem, htop, hlow,
    BitVec.ofInt_add, BitVec.add_assoc, Nat.add_assoc]

/-! ## The stores of a vector block -/

theorem yAddr_add (d : Desc) (py px n : Nat) : yAddr d py px + n = yAddr d py (px + n) := Nat.add_assoc ..

theorem uAddr_add (d : Desc) (band bx n : Nat) : uAddr d band bx + n = uAddr d band (bx + n) := Nat.add_assoc ..

theorem vAddr_add (d : Desc) (band bx n : Nat) : vAddr d band bx + n = vAddr d band (bx + n) := Nat.add_assoc ..

theorem rgbAddr_add (d : Desc) (py px n : Nat) : rgbAddr d py px + 3 * n = rgbAddr d py (px + n) := by
  simp only [rgbAddr]
  omega

section
variable (std : Std) (d : Desc) (m : Memory) (py k : Nat)

/-- The 32 pixels of a row of a vector block, loaded by its six 16-byte accesses, are those of the buffer. -/
theorem rowPixel_loadRow96 {i : Nat} (h : i < 32) :
    rowPixel std (loadRow96 m (rgbAddr d py (32 * k))) h = loadFwdPixel (lutFwd std) d m py (32 * k + i) := by
  simp only [rowPixel, loadFwdPixel, loadRow96_getElem, ← Nat.add_assoc, rgbAddr_add]

/-- One pixel row of a vector block through the lane datapath. -/
def fwdRowAt : FwdRowLanes := fwdRowLanes (lutFwd std) (loadRow96 m (rgbAddr d py (32 * k)))

theorem fwdRowAt_y_getElem {i : Nat} (h : i < 32) : (fwdRowAt std d m py k).y[i] = storedY std d m py (32 * k + i) := by
  rw [fwdRowAt, fwdRowLanes_y_getElem, rowPixel_loadRow96]
  rfl

theorem fwdRowAt_tU_getElem {i : Nat} (h : i < 32) :
    (fwdRowAt std d m py k).tU[i] = BitVec.ofInt 16 (termUAt (lutFwd std) d m py (32 * k + i)) := by
  rw [fwdRowAt, fwdRowLanes_tU_getElem, rowPixel_loadRow96]
  rfl

theorem fwdRowAt_tV_getElem {i : Nat} (h : i < 32) :
    (fwdRowAt std d m py k).tV[i] = BitVec.ofInt 16 (termVAt (lutFwd std) d m py (32 * k + i)) := by
  rw [fwdRowAt, fwdRowLanes_tV_getElem, rowPixel_loadRow96]
  rfl

end

section
variable (std : Std) (d : Desc) (m : Memory) (band k : Nat) {j : Nat} (h : j < 16)

theorem decimateLanes_tU_getElem :
    (decimateLanes (fwdRowAt std d m (2 * band) k).tU (fwdRowAt std d m (2 * band + 1) k).tU)[j]
      = storedU .truncSum std d m band (16 * k + j) :=
  decimateLanes_getElem (fun _ _ => have ⟨_, tU, _⟩ := fwdPixel_range std _ _ _; tU)
    (fun _ => fwdRowAt_tU_getElem std d m _ k) (fun _ => fwdRowAt_tU_getElem std d m _ k) h

theorem decimateLanes_tV_getElem :
    (decimateLanes (fwdRowAt std d m (2 * band) k).tV (fwdRowAt std d m (2 * band + 1) k).tV)[j]
      = storedV .truncSum std d m band (16 * k + j) :=
  decimateLanes_getElem (fun _ _ => have ⟨_, _, tV⟩ := fwdPixel_range std _ _ _; tV)
    (fun _ => fwdRowAt_tV_getElem std d m _ k) (fun _ => fwdRowAt_tV_getElem std d m _ k) h

end

/-- The cells of the Y row `py` of a vector block. -/
theorem mem_storeRow32_fwdRowAt {std : Std} {d : Desc} {m : Memory} {py k : Nat} {c : Host.Cell} :
    c ∈ storeRow32 (yAddr d py (32 * k)) (fwdRowAt std d m py k).y ↔
      ∃ i < 32, c = (yAddr d py (32 * k + i), storedY std d m py (32 * k + i)) := by
  simp only [mem_storeRow32, fwdRowAt_y_getElem, yAddr_add, exists_prop]

theorem mem_fwdVectorBlock {std : Std} {d : Desc} {m : Memory} {band k : Nat} {c : Host.Cell} :
    c ∈ fwdVectorBlock (lutFwd std) d m band k ↔
      (∃ dy i, dy < 2 ∧ i < 32
        ∧ c = (yAddr d (2 * band + dy) (32 * k + i), storedY std d m (2 * band + dy) (32 * k + i)))
      ∨ (∃ j < 16, c = (uAddr d band (16 * k + j), storedU .truncSum std d m band (16 * k + j)))
      ∨ (∃ j < 16, c = (vAddr d band (16 * k + j), storedV .truncSum std d m band (16 * k + j))) := by
  change c ∈ storeRow32 (yAddr d (2 * band) (32 * k)) (fwdRowAt std d m (2 * band) k).y
      ++ storeRow32 (yAddr d (2 * band + 1) (32 * k)) (fwdRowAt std d m (2 * band + 1) k).y
      ++ storeVector (uAddr d band (16 * k))
          (decimateLanes (fwdRowAt std d m (2 * band) k).tU (fwdRowAt std d m (2 * band + 1) k).tU)
      ++ storeVector (vAddr d band (16 * k))
          (decimateLanes (fwdRowAt std d m (2 * band) k).tV (fwdRowAt std d m (2 * band + 1) k).tV) ↔ _
  simp only [List.mem_append, mem_storeRow32_fwdRowAt, mem_storeVector, decimateLanes_tU_getElem,
    decimateLanes_tV_getElem, uAddr_add, vAddr_add, exists_prop, or_assoc]
  constructor
  · rintro (⟨i, hi, h⟩ | ⟨i, hi, h⟩ | h | h)
    · exact .inl ⟨0, i, by decide, hi, h⟩
    · exact .inl ⟨1, i, by decide, hi, h⟩
    · exact .inr (.inl h)
    · exact .inr (.inr h)
  · rintro (⟨dy, i, hy, hi, h⟩ | h | h)
    · obtain rfl | rfl : dy = 0 ∨ dy = 1 := by omega
      · exact .inl ⟨i, hi, h⟩
      · exact .inr (.inl ⟨i, hi, h⟩)
    · exact .inr (.inr (.inl h))
    · exact .inr (.inr (.inr h))

/-- Settles O38: the columns `32*k + i` of a vector block are the columns `2*(16*k + j) + dx` of its sixteen blocks. -/
theorem forwardLanesStoreTheBlocks : Obligations.ForwardLanesStoreTheBlocks := by
  intro std d m band k c
  simp only [mem_fwdVectorBlock, mem_fwdBlock]
  constructor
  · rintro (⟨dy, i, hy, hi, h⟩ | ⟨j, hj, h⟩ | ⟨j, hj, h⟩)
    · have column : 2 * (16 * k + i / 2) + i % 2 = 32 * k + i := by omega
      exact ⟨i / 2, by omega, .inl ⟨dy, i % 2, hy, by omega, by rw [column, h]⟩⟩
    · exact ⟨j, hj, .inr (.inl h)⟩
    · exact ⟨j, hj, .inr (.inr h)⟩
  · rintro ⟨j, hj, ⟨dy, dx, hy, hx, h⟩ | h | h⟩
    · have column : 2 * (16 * k + j) + dx = 32 * k + (2 * j + dx) := by omega
      exact .inl ⟨dy, 2 * j + dx, hy, by omega, by rw [← column, h]⟩
    · exact .inr (.inl ⟨j, hj, h⟩)
    · exact .inr (.inr ⟨j, hj, h⟩)

end Sys2Proof.Machine
end

section
/-! PROOFS. The inverse lane datapath (R196), its lanes read as integers like those of the forward one. -/

namespace Sys2Proof.Machine

open Sys2Proof

/-! ## The luma -/

/-- R196: the luma product fits 18 signed bits, whatever the table. -/
theorem invLumaProduct_range (c : InvRow) (y : Byte) :
    -2 ^ 17 ≤ ofByte c.yScale * (ofByte y - ofByte c.yOffset) ∧
    ofByte c.yScale * (ofByte y - ofByte c.yOffset) < 2 ^ 17 := by
  have ySample := ofByte_mul_range c.yScale y
  have offset := ofByte_mul_range c.yScale c.yOffset
  have scale := ofByte_le c.yScale
  rw [mul_sub]
  omega

theorem truncate_ofInt (a : Int) : (BitVec.ofInt 18 a).truncate 16 = BitVec.ofInt 16 a := by
  refine BitVec.eq_of_toNat_eq ?_
  rw [BitVec.truncate_eq_setWidth, BitVec.toNat_setWidth, BitVec.toNat_ofInt, BitVec.toNat_ofInt]
  omega

theorem lumaLane_eq_ofInt (c : InvRow) (y : Byte) : lumaLane c y = BitVec.ofInt 16 (invLuma c y) := by
  obtain ⟨low, high⟩ := invLumaProduct_range c y
  rw [lumaLane, zeroExtend_eq_ofInt, zeroExtend_eq_ofInt, zeroExtend_eq_ofInt, ← ofInt_sub, ← BitVec.ofInt_mul,
    sshiftRight_ofInt (by decide) low high, truncate_ofInt, invLuma]

/-! ## The offsets, in two halves of eight lanes -/

theorem joinHalves_getElem (x y : Vector Half 8) {j : Nat} (h : j < 16) :
    (joinHalves x y)[j] = if low : j < 8 then x[j] else y[j - 8] := by simp [joinHalves]

/-- A chroma difference as a lane (R196). -/
theorem zeroExtend_sub_128 (x : Byte) :
    x.zeroExtend 16 - (128 : Byte).zeroExtend 16 = BitVec.ofInt 16 (ofByte x - 128) := by
  rw [zeroExtend_eq_ofInt, zeroExtend_eq_ofInt, ← ofInt_sub, ofByte_128]

/-- A chroma product of a lane whose chroma byte is `x` (R196). -/
theorem chromaProduct_getElem (c : Byte) {w : Vector Half 8} {j : Nat} {h : j < 8} {x : Byte}
    (hw : w[j] = x.zeroExtend 16) :
    (mullo16 (sub16 w (broadcast 8 128)) (broadcast 8 c))[j] = BitVec.ofInt 16 (ofByte c * (ofByte x - 128)) := by
  rw [mullo16_getElem, sub16_getElem, broadcast_getElem, broadcast_getElem, hw, zeroExtend_sub_128, zeroExtend_eq_ofInt,
    ← BitVec.ofInt_mul, mul_comm]

theorem widenHi_getElem_sub (x : Vector Byte 16) {j : Nat} (low : ¬ j < 8) (h : j < 16) :
    (widenHi x)[j - 8] = x[j].zeroExtend 16 := by
  rw [widenHi_getElem]
  simp only [Nat.add_sub_cancel' (show 8 ≤ j by omega)]

theorem offsetProduct_range (c x : Byte) :
    -2 ^ 15 ≤ ofByte c * (ofByte x - 128) ∧ ofByte c * (ofByte x - 128) < 2 ^ 15 := by
  have sample := ofByte_mul_range c x
  have := ofByte_nonneg c
  have := ofByte_le c
  rw [mul_sub]
  omega

theorem greenSum_range (std : Std) (u v : Byte) :
    -2 ^ 15 ≤ ofByte (lutInv std).gCb * (ofByte u - 128) + ofByte (lutInv std).gCr * (ofByte v - 128) ∧
    ofByte (lutInv std).gCb * (ofByte u - 128) + ofByte (lutInv std).gCr * (ofByte v - 128) < 2 ^ 15 := by
  have := ofByte_mul_range (lutInv std).gCb u
  have := ofByte_mul_range (lutInv std).gCr v
  have weights : ofByte (lutInv std).gCb + ofByte (lutInv std).gCr ≤ 154 := by cases std <;> decide
  have := ofByte_nonneg (lutInv std).gCb
  have := ofByte_nonneg (lutInv std).gCr
  rw [mul_sub, mul_sub]
  omega

theorem offsetLanes_getElem (c : Byte) (x : Vector Byte 16) (shift : Nat) {j : Nat} (h : j < 16) :
    (offsetLanes c x shift)[j] = BitVec.ofInt 16 (asr (ofByte c * (ofByte x[j] - 128)) shift) := by
  obtain ⟨low, high⟩ := offsetProduct_range c x[j]
  rw [← sshiftRight_ofInt (by decide) low high, offsetLanes, joinHalves_getElem]
  split
  next lo => rw [sra16_getElem, chromaProduct_getElem c (widenLo_getElem x j lo)]
  next hi => rw [sra16_getElem, chromaProduct_getElem c (widenHi_getElem_sub x hi h)]

theorem greenLanes_getElem (std : Std) (u v : Vector Byte 16) {j : Nat} (h : j < 16) :
    (greenLanes (lutInv std) u v)[j] = BitVec.ofInt 16 (invOffsets (lutInv std) u[j] v[j]).g := by
  obtain ⟨low, high⟩ := greenSum_range std u[j] v[j]
  rw [invOffsets, ← sshiftRight_ofInt (by decide) low high, greenLanes, joinHalves_getElem, BitVec.ofInt_add]
  split
  next lo =>
    rw [sra16_getElem, add16_getElem, chromaProduct_getElem _ (widenLo_getElem u j lo),
      chromaProduct_getElem _ (widenLo_getElem v j lo)]
  next hi =>
    rw [sra16_getElem, add16_getElem, chromaProduct_getElem _ (widenHi_getElem_sub u hi h),
      chromaProduct_getElem _ (widenHi_getElem_sub v hi h)]

/-! ## A row of 32 pixels -/

/-- The three channels of a row before they are interleaved (R196). -/
def invRowPlanes (c : InvRow) (o : OffsetLanes) (y : Vector Byte 32) : Planar where
  r := pack32 (add16 (y.map (lumaLane c)) (duplicate o.r))
  g := pack32 (sub16 (y.map (lumaLane c)) (duplicate o.g))
  b := pack32 (add16 (y.map (lumaLane c)) (duplicate o.b))

theorem invRowLanes_eq (c : InvRow) (o : OffsetLanes) (y : Vector Byte 32) :
    invRowLanes c o y = interleave3 (invRowPlanes c o y) := rfl

section
variable (std : Std) (u v : Vector Byte 16) (y : Vector Byte 32) {i : Nat} (h : i < 32)

theorem invRowPlanes_r_getElem : (invRowPlanes (lutInv std) (invOffsetLanes (lutInv std) u v) y).r[i]
    = invRed (invLuma (lutInv std) y[i]) (invOffsets (lutInv std) u[i / 2] v[i / 2]) := by
  obtain ⟨low, high⟩ := clampArgument_range (.inl (Eq.refl
    (invLuma (lutInv std) y[i] + (invOffsets (lutInv std) u[i / 2] v[i / 2]).r)))
  rw [invRed, ← packLane_ofInt (by omega) (by omega), BitVec.ofInt_add, invRowPlanes, pack32_getElem, add16_getElem,
    Vector.getElem_map, lumaLane_eq_ofInt, duplicate_getElem, invOffsetLanes, offsetLanes_getElem, invOffsets]

theorem invRowPlanes_g_getElem : (invRowPlanes (lutInv std) (invOffsetLanes (lutInv std) u v) y).g[i]
    = invGreen (invLuma (lutInv std) y[i]) (invOffsets (lutInv std) u[i / 2] v[i / 2]) := by
  obtain ⟨low, high⟩ := clampArgument_range (.inr (.inl (Eq.refl
    (invLuma (lutInv std) y[i] - (invOffsets (lutInv std) u[i / 2] v[i / 2]).g))))
  rw [invGreen, ← packLane_ofInt (by omega) (by omega), ofInt_sub, invRowPlanes, pack32_getElem, sub16_getElem,
    Vector.getElem_map, lumaLane_eq_ofInt, duplicate_getElem, invOffsetLanes, greenLanes_getElem]

theorem invRowPlanes_b_getElem : (invRowPlanes (lutInv std) (invOffsetLanes (lutInv std) u v) y).b[i]
    = invBlue (invLuma (lutInv std) y[i]) (invOffsets (lutInv std) u[i / 2] v[i / 2]) := by
  obtain ⟨low, high⟩ := clampArgument_range (.inr (.inr (Eq.refl
    (invLuma (lutInv std) y[i] + (invOffsets (lutInv std) u[i / 2] v[i / 2]).b))))
  rw [invBlue, ← packLane_ofInt (by omega) (by omega), BitVec.ofInt_add, invRowPlanes, pack32_getElem, add16_getElem,
    Vector.getElem_map, lumaLane_eq_ofInt, duplicate_getElem, invOffsetLanes, offsetLanes_getElem, invOffsets]

end

/-! ## The stores of a vector block -/

/-- The cells of 32 RGB pixels that leave the datapath interleaved. -/
theorem mem_storeRow96_interleave3 {a : Nat} {p : Planar} {c : Host.Cell} :
    c ∈ storeRow96 a (interleave3 p) ↔ ∃ (i : Nat) (h : i < 32),
      c = (a + 3 * i, p.r[i]) ∨ c = (a + 3 * i + 1, p.g[i]) ∨ c = (a + 3 * i + 2, p.b[i]) := by
  rw [mem_storeRow96]
  constructor
  · rintro ⟨n, hn, rfl⟩
    obtain ⟨i, hi, rfl | rfl | rfl⟩ := exists_channel hn
    · exact ⟨i, hi, .inl (by rw [interleave3_getElem_r])⟩
    · exact ⟨i, hi, .inr (.inl (by rw [interleave3_getElem_g, Nat.add_assoc]))⟩
    · exact ⟨i, hi, .inr (.inr (by rw [interleave3_getElem_b, Nat.add_assoc]))⟩
  · rintro ⟨i, hi, rfl | rfl | rfl⟩
    · exact ⟨3 * i, by omega, by rw [interleave3_getElem_r]⟩
    · exact ⟨3 * i + 1, by omega, by rw [interleave3_getElem_g, Nat.add_assoc]⟩
    · exact ⟨3 * i + 2, by omega, by rw [interleave3_getElem_b, Nat.add_assoc]⟩

/-- One pixel row of an inverse vector block through the lane datapath: the row `py` of the image, and the chroma row of its
band. -/
def invRowAt (std : Std) (d : Desc) (m : Memory) (py k : Nat) : Vector Byte 96 :=
  invRowLanes (lutInv std)
    (invOffsetLanes (lutInv std) (loadVector m (uAddr d (py / 2) (16 * k))) (loadVector m (vAddr d (py / 2) (16 * k))))
    (loadRow32 m (yAddr d py (32 * k)))

/-- The cells of a row: each pixel has the chroma of the block that it lies in. -/
theorem mem_storeRow96_invRowAt {std : Std} {d : Desc} {m : Memory} {py k : Nat} {c : Host.Cell} :
    c ∈ storeRow96 (rgbAddr d py (32 * k)) (invRowAt std d m py k) ↔
      ∃ i l, i < 32 ∧ l < 3 ∧ c = (rgbAddr d py (32 * k + i) + l, storedRgb std d m py (32 * k + i) l) := by
  have block : ∀ i, (32 * k + i) / 2 = 16 * k + i / 2 := fun i => by omega
  simp only [invRowAt, invRowLanes_eq, mem_storeRow96_interleave3, invRowPlanes_r_getElem, invRowPlanes_g_getElem,
    invRowPlanes_b_getElem, loadRow32_getElem, loadVector_getElem, yAddr_add, uAddr_add, vAddr_add, rgbAddr_add, ← block]
  constructor
  · rintro ⟨i, hi, h | h | h⟩
    · exact ⟨i, 0, hi, by decide, h⟩
    · exact ⟨i, 1, hi, by decide, h⟩
    · exact ⟨i, 2, hi, by decide, h⟩
  · rintro ⟨i, l, hi, hl, h⟩
    obtain rfl | rfl | rfl : l = 0 ∨ l = 1 ∨ l = 2 := by omega
    · exact ⟨i, hi, .inl h⟩
    · exact ⟨i, hi, .inr (.inl h)⟩
    · exact ⟨i, hi, .inr (.inr h)⟩

theorem invVectorBlock_eq (std : Std) (d : Desc) (m : Memory) (band k : Nat) :
    invVectorBlock (lutInv std) d m band k
      = storeRow96 (rgbAddr d (2 * band) (32 * k)) (invRowAt std d m (2 * band) k)
        ++ storeRow96 (rgbAddr d (2 * band + 1) (32 * k)) (invRowAt std d m (2 * band + 1) k) := by
  have top : 2 * band / 2 = band := by omega
  have low : (2 * band + 1) / 2 = band := by omega
  rw [invRowAt, invRowAt, top, low]
  rfl

theorem mem_invVectorBlock {std : Std} {d : Desc} {m : Memory} {band k : Nat} {c : Host.Cell} :
    c ∈ invVectorBlock (lutInv std) d m band k ↔
      ∃ dy i l, dy < 2 ∧ i < 32 ∧ l < 3
        ∧ c = (rgbAddr d (2 * band + dy) (32 * k + i) + l, storedRgb std d m (2 * band + dy) (32 * k + i) l) := by
  rw [invVectorBlock_eq, List.mem_append, mem_storeRow96_invRowAt, mem_storeRow96_invRowAt]
  constructor
  · rintro (⟨i, l, hi, hl, h⟩ | ⟨i, l, hi, hl, h⟩)
    · exact ⟨0, i, l, by decide, hi, hl, h⟩
    · exact ⟨1, i, l, by decide, hi, hl, h⟩
  · rintro ⟨dy, i, l, hy, hi, hl, h⟩
    obtain rfl | rfl : dy = 0 ∨ dy = 1 := by omega
    · exact .inl ⟨i, l, hi, hl, h⟩
    · exact .inr ⟨i, l, hi, hl, h⟩

/-- Settles O39: the columns `32*k + i` of a vector block are the columns `2*(16*k + j) + dx` of its sixteen blocks. -/
theorem inverseLanesStoreTheBlocks : Obligations.InverseLanesStoreTheBlocks := by
  intro std d m band k c
  simp only [mem_invVectorBlock, mem_invBlock]
  constructor
  · rintro ⟨dy, i, l, hy, hi, hl, h⟩
    have column : 2 * (16 * k + i / 2) + i % 2 = 32 * k + i := by omega
    exact ⟨i / 2, by omega, dy, i % 2, l, hy, by omega, hl, by rw [column, h]⟩
  · rintro ⟨j, hj, dy, dx, l, hy, hx, hl, h⟩
    have column : 2 * (16 * k + j) + dx = 32 * k + (2 * j + dx) := by omega
    exact ⟨dy, 2 * j + dx, l, hy, by omega, hl, by rw [← column, h]⟩

end Sys2Proof.Machine
end

section
/-! PROOFS. The end of a command and of a WAIT (R213, R214). -/

namespace Sys2Proof.Machine

open Sys2Proof

/-- A state that a step leaves as it is stays for any number of steps. -/
theorem run_of_step_self {s : State} (h : step s = .next s) (n : Nat) : Host.Core.run core n s = .next s := by
  induction n with
  | zero => rfl
  | succ n ih => exact (run_step h n).trans ih

theorem step_wait_of_busy {s : State} {rest : List HostOp} (h : s.inputs = .wait :: rest) (busy : s.busy = true) :
    step s = runLatched s := by
  rw [step_cons h, hostTurn, waitOp, if_pos busy]

/-- A WAIT on an idle block with DONE = 0 reads STATUS again and again (R214, notes/assumptions/7.md). -/
theorem step_wait_of_not_done {s : State} {rest : List HostOp} (h : s.inputs = .wait :: rest) (idle : s.busy = false)
    (done : s.done = false) : step s = .next s := by
  rw [step_cons h]
  simp [hostTurn, waitOp, idle, done]

/-- What the engine ran to its end it completed, and nothing of the host's changed. -/
theorem runLatched_next_frame {s t : State} (h : runLatched s = .next t) : Completed t ∧ SameFrame s t := by
  obtain ⟨w, i, -, -, ran⟩ := runLatched_next h
  exact exec_next_frame ran

/-- Settles O46: the three cases of BUSY and DONE are the three branches of the WAIT, and completion leaves the host's
list as it is. -/
theorem waitPollsForDone : Obligations.WaitPollsForDone := by
  intro s rest h
  refine ⟨step_wait_of_done h, fun idle done => run_of_step_self (step_wait_of_not_done h idle done),
    fun busy t next => ?_⟩
  rw [step_wait_of_busy h busy] at next
  obtain ⟨completed, same⟩ := runLatched_next_frame next
  exact ⟨same.inputs.trans h, completed⟩

/-- A BUSY block has latched a command whose preconditions hold (R212). -/
theorem State.Inv.exists_legal {s : State} (h : s.Inv) (busy : s.busy = true) :
    ∃ w i, s.latch = some w ∧ decode Config.hardware w = .ok i ∧ Legal i s := by
  obtain ⟨w, latch⟩ := Option.isSome_iff_exists.1 (h.latched.1 busy)
  obtain ⟨i, cmd, legal, -⟩ := h.startable w latch
  exact ⟨w, i, latch, cmd, commandLegal_of_violation_eq_none legal⟩

theorem exec_completes_of_legal {i : Instr} {s : State} (h : Legal i s) :
    ∃ t, exec i s = .next t ∧ Completed t ∧ SameFrame s t :=
  ⟨_, exec_of_legal h, exec_next_frame (exec_of_legal h)⟩

/-- Settles O54: the invariant gives a latched legal command, which is what the engine's turn runs. -/
theorem startedCommandCompletes : Obligations.StartedCommandCompletes := by
  intro s inv busy
  obtain ⟨w, i, latch, cmd, legal⟩ := inv.exists_legal busy
  obtain ⟨idleHost, finish, -⟩ := stepRunsTheLatchedCommand s w i busy latch cmd
  refine ⟨fun h => ?_, fun rest h => ?_, fun rest h => ?_⟩
  · rw [idleHost h]
    exact exec_completes_of_legal legal
  · rw [finish rest h]
    exact exec_completes_of_legal legal
  · exact ⟨_, run_wait h busy latch cmd legal, ⟨rfl, rfl, rfl⟩, rfl, rfl, rfl⟩

end Sys2Proof.Machine
end

section
/-! PROOFS. When a command completes (R226, R229), what `DEBUG_ASSERT` = on does to a START (R232), and that no step faults (R225). -/

namespace Sys2Proof.Machine

open Sys2Proof

/-- Settles O17: the precondition check is the rules, and it decides between completion and refusal. -/
theorem commandsCompleteExactlyWhenLegal : Obligations.CommandsCompleteExactlyWhenLegal := fun _ _ =>
  ⟨exec_completes_of_legal, exec_refused_of_not_legal⟩

/-! ## `DEBUG_ASSERT` (R232) -/

/-- What a START with debug assertions does: it faults where the engine is idle, the registers are written and one of the conditions
that they observe holds; elsewhere it is the START without them. -/
theorem startOp_debugAssert (cfg : Config) (s : State) :
    startOp { cfg with debugAssert := true } s =
      if s.busy = false ∧ s.regs.allWritten = true ∧ debugObserves cfg s.regs.words = true then .fault .debugAssertion
      else startOp { cfg with debugAssert := false } s := by
  have observes : debugObserves { cfg with debugAssert := true } s.regs.words = debugObserves cfg s.regs.words := rfl
  unfold startOp
  rw [observes]
  cases s.busy with
  | true => rfl
  | false =>
    cases s.regs.allWritten with
    | false => rfl
    | true => cases debugObserves cfg s.regs.words <;> rfl

/-- The words of a command for which debug assertions let a START through. -/
theorem debugObserves_eq_false_iff {cfg : Config} {w : CommandWords} {i : Instr} (cmd : decode cfg w = .ok i) :
    debugObserves cfg w = false ↔
      stridesOk i = true ∧ alignedOk i = true ∧ (i.impl.isVector = true → cmdWidth i % Config.vecPixels = 0)
        ∧ cmdWidth i % 2 = 0 ∧ cmdHeight i % 2 = 0 := by
  simp [debugObserves, cmd, and_assoc]

/-- Settles O35: a legal command keeps U2 and U3, and the even dimensions and the whole groups of 32 pixels are the rest of what
debug assertions observe. -/
theorem debugAssertionsChangeNoResult : Obligations.DebugAssertionsChangeNoResult := by
  refine ⟨debugAssert_hardware, fun s => ?_⟩
  intro on
  have start : startOp on s = _ := startOp_debugAssert Config.hardware s
  rw [start]
  refine ⟨?_, fun i cmd legal evenWidth evenHeight groups => ?_⟩
  · split
    · exact .inl rfl
    · exact .inr rfl
  · obtain ⟨-, strides, aligned, -⟩ :=
      (violation_eq_none_iff Config.hardware i s.backing).1 (violation_eq_none_of_commandLegal legal)
    have quiet : debugObserves Config.hardware s.regs.words = false :=
      (debugObserves_eq_false_iff cmd).2 ⟨strides, aligned, groups, evenWidth, evenHeight⟩
    exact if_neg (by simp [quiet])

/-! ## No step faults (R225) -/

theorem exec_ne_fault (i : Instr) (s : State) (f : Fault) : exec i s ≠ .fault f := by
  rw [exec_eq]
  exact runCommand_ne_fault

theorem runLatched_ne_fault (s : State) (f : Fault) : runLatched s ≠ .fault f := by
  unfold runLatched
  split
  · nofun
  · split
    · nofun
    · exact exec_ne_fault _ s f

theorem engineTurn_ne_fault (s : State) (f : Fault) : engineTurn s ≠ .fault f := by
  unfold engineTurn
  split
  · exact runLatched_ne_fault s f
  · nofun

theorem waitOp_ne_fault (rest : List HostOp) (s : State) (f : Fault) : waitOp rest s ≠ .fault f := by
  unfold waitOp
  split
  · exact runLatched_ne_fault s f
  · split <;> nofun

/-- Only debug assertions make a START fault (R232). -/
theorem startOp_ne_fault {cfg : Config} (off : cfg.debugAssert = false) (s : State) (f : Fault) :
    startOp cfg s ≠ .fault f := by
  simp only [startOp, off, Bool.false_and, Bool.false_eq_true, if_false]
  split
  · nofun
  · split
    · nofun
    · split
      · nofun
      · split <;> nofun

/-- A write stores a register, does nothing, is refused, or is a START (R210). -/
theorem writeTarget_ne_fault {cfg : Config} (off : cfg.debugAssert = false) (t : RegTarget) (v : Word)
    (s : State) (f : Fault) : writeTarget cfg t v s ≠ .fault f := by
  cases t with
  | ctrl =>
    simp only [writeTarget, writeCtrl]
    split
    · nofun
    · split
      · exact startOp_ne_fault off s f
      · nofun
  | reg r =>
    simp only [writeTarget]
    split <;> nofun
  | status | lutFwd _ _ | lutInv _ _ => nofun

theorem writeOp_ne_fault {cfg : Config} (off : cfg.debugAssert = false) (offset bytes : Nat) (v : Word) (s : State)
    (f : Fault) : writeOp cfg offset bytes v s ≠ .fault f := by
  unfold writeOp
  split
  · nofun
  · split
    · nofun
    · exact writeTarget_ne_fault off _ v s f

theorem readOp_ne_fault (offset bytes : Nat) (s : State) (f : Fault) : readOp offset bytes s ≠ .fault f := by
  unfold readOp
  split
  · nofun
  · split <;> nofun

theorem memWriteOp_ne_fault (a : Nat) (v : Byte) (s : State) (f : Fault) : memWriteOp a v s ≠ .fault f := by
  unfold memWriteOp
  split
  · nofun
  · split <;> nofun

theorem memReadOp_ne_fault (a : Nat) (s : State) (f : Fault) : memReadOp a s ≠ .fault f := by
  unfold memReadOp
  split
  · nofun
  · split <;> nofun

theorem lendOp_ne_fault (b : Backing) (s : State) (f : Fault) : lendOp b s ≠ .fault f := by
  unfold lendOp
  split <;> nofun

theorem hostTurn_ne_fault (op : HostOp) (rest : List HostOp) (s : State) (f : Fault) : hostTurn op rest s ≠ .fault f := by
  cases op with
  | wr offset bytes v => exact writeOp_ne_fault debugAssert_hardware offset bytes v _ f
  | rd offset bytes => exact readOp_ne_fault offset bytes _ f
  | wait => exact waitOp_ne_fault rest s f
  | memWrite a v => exact memWriteOp_ne_fault a v _ f
  | memRead a => exact memReadOp_ne_fault a _ f
  | lend b => exact lendOp_ne_fault b _ f
  | reset => nofun
  | finish => exact engineTurn_ne_fault _ f

/-- Settles O53: neither the engine's turn nor a host operation faults. -/
theorem noStepFaults : Obligations.NoStepFaults := by
  intro s f
  cases h : s.inputs with
  | nil => exact step_nil h ▸ engineTurn_ne_fault s f
  | cons op rest => exact step_cons h ▸ hostTurn_ne_fault op rest s f

end Sys2Proof.Machine
end

section
/-! PROOFS. Reset of a running block (R246): what the abandoned command leaves unchanged. -/

namespace Sys2Proof.Machine

open Sys2Proof

/-- The frame of an abandoned command (R246): the free bytes are stored at the addresses of its write footprint. -/
theorem read_abandon_of_not_inWriteSet {m : Memory} (wf : Memory.wf m = true) {i : Instr} (draw : Nat) {a : Nat}
    (out : ¬ InWriteSet i a) : (abandon i draw m).read a = m.read a := by
  refine Memory.read_writeAll_of_not_mem wf fun c hc at_a => out ?_
  obtain ⟨b, written, rfl⟩ := List.mem_map.1 hc
  exact at_a ▸ (mem_writeAddresses i b).1 written

/-- Settles O50: the step is `resetOp`, and memory changes by `abandon` alone. -/
theorem resetOfARunningBlock : Obligations.ResetOfARunningBlock := by
  intro s rest i wf next run
  have run' : ({ s with inputs := rest } : State).running = some i := run
  refine ⟨_, step_cons next, ?_⟩
  rw [resetOp_of_running run']
  exact ⟨rfl, rfl, rfl, rfl, rfl, rfl, rfl, fun r => by simp [Reg.reset],
    fun a out => read_abandon_of_not_inWriteSet wf s.draws out⟩

end Sys2Proof.Machine
end
